-- ==== Sys2Proof/Word.lean ====
section
/-! DEFINITION. The word types of the engine: bytes, 32-bit words, 16-byte blocks, 32-byte keys. -/

namespace Sys2Proof

/-- A byte: 8 bits, unsigned (R11). -/
abbrev Byte := BitVec 8

/-- A 32-bit word: a register, a command word, the data of a bus transaction (R17, R42, R67). -/
abbrev Word := BitVec 32

/-- The 26-bit offset of a bus transaction inside the engine's window (R41). -/
abbrev Offset := BitVec 26

/-- A block: the fixed 16-byte unit of the cipher transform, byte 0 first (R7, R11). -/
abbrev Block := Vector Byte 16

/-- The 32 key bytes `KeyBytes()`, key byte 0 first (R7, R31). -/
abbrev KeyVec := Vector Byte 32

end Sys2Proof
end

