-- ==== Sys2Proof/Syntax.lean ====
section
/-! DEFINITION. The command words as an inductive: one constructor per row of the opcode map (R73). -/

namespace Sys2Proof

/-- The instructions: the 32-bit command words a host writes to CTRL (R67, R73). Every constructor carries the
option bits, because a command stores them in CTRL whatever its OP (R71, R75). Reserved bits select nothing (R24)
and are not kept. -/
inductive Instr where
  /-- CFG: a CTRL write with START = 0 (R72, R86). -/
  | cfg (op : BitVec 3) (perr pchk : Bool)
  /-- ENCODE: OP = 0, START = 1 (R93). -/
  | encode (perr pchk : Bool)
  /-- DECODE: OP = 1, START = 1 (R97). -/
  | decode (perr pchk : Bool)
  /-- ENCRYPT: OP = 2, START = 1 (R107). -/
  | encrypt (perr pchk : Bool)
  /-- DECRYPT: OP = 3, START = 1 (R108). -/
  | decrypt (perr pchk : Bool)
  /-- RESERVED_OP: OP in 4..7, START = 1 (R74, R87). -/
  | reservedOp (op : BitVec 3) (perr pchk : Bool)
  deriving DecidableEq, Repr

end Sys2Proof
end

