-- ==== Sys2Proof/WellFormed.lean ====
section
/-! DEFINITION. Which terms of `Instr` stand for a command word. -/

namespace Sys2Proof

/-- The one check: a RESERVED_OP carries an OP in 4..7 (R73, R87). Every other term stands for a word. -/
def Instr.wellFormed : Instr → Bool
  | .cfg _ _ _ => true
  | .encode _ _ => true
  | .decode _ _ => true
  | .encrypt _ _ => true
  | .decrypt _ _ => true
  | .reservedOp op _ _ => decide (4 ≤ op.toNat)

end Sys2Proof
end

