-- ==== Sys2Proof/Decode.lean ====
section
/-! DEFINITION. Bytes to words, the decoder of command words, the opcode map as data, and the encoder. -/

namespace Sys2Proof

/-- Byte `j` of a word: bits `[8j+7 : 8j]` (R54). -/
def byteOf (w : Word) (j : Nat) : Byte := w.extractLsb' (8 * j) 8

/-- The word `{b3, b2, b1, b0}`: little-endian, `b0` in bits [7:0] (R11, R54). -/
def wordOfBytes (b0 b1 b2 b3 : Byte) : Word := b3 ++ b2 ++ b1 ++ b0

/-- `w[i]` as a word's bit (R11). -/
def bitOf (w : Word) (i : Nat) : Bool := w.getLsbD i

/-- `op = w[2:0]` (R69). -/
def opField (w : Word) : BitVec 3 := w.extractLsb' 0 3

/-- The instruction with START = 1 that an OP value selects (R73). -/
def commandOf (op : BitVec 3) (perr pchk : Bool) : Instr :=
  match op.toNat with
  | 0 => .encode perr pchk
  | 1 => .decode perr pchk
  | 2 => .encrypt perr pchk
  | 3 => .decrypt perr pchk
  | _ => .reservedOp op perr pchk

/-- The decoder of command words: it reads bits [2:0], [4], [5] and [8] and no other, and gives every word a
meaning (R69, R73). -/
def decodeWord (w : Word) : Instr :=
  if bitOf w 8 then commandOf (opField w) (bitOf w 4) (bitOf w 5)
  else .cfg (opField w) (bitOf w 4) (bitOf w 5)

/-- Why bytes are no command word: a command word is exactly 32 bits (R68). -/
inductive DecodeError where
  /-- Fewer than four bytes. Safe: nothing runs. -/
  | tooShort
  /-- More than four bytes. Safe: nothing runs. -/
  | tooLong
  deriving DecidableEq, Repr

/-- The decoder on bytes, lowest offset first, total: four bytes are one command word (R54, R68). -/
def decodeBytes : List Byte → Except DecodeError Instr
  | [b0, b1, b2, b3] => .ok (decodeWord (wordOfBytes b0 b1 b2 b3))
  | _ :: _ :: _ :: _ :: _ :: _ => .error .tooLong
  | _ => .error .tooShort

/-- The four bytes of a word, lowest offset first (R54). -/
def bytesOfWord (w : Word) : List Byte := [byteOf w 0, byteOf w 1, byteOf w 2, byteOf w 3]

/-- The command word that a table word of `nbits` bits stands for: the bits above `nbits` are 0. -/
def tableWord (nbits w : Nat) : Word := BitVec.ofNat 32 (w % 2 ^ nbits)

/-- What the decoder reads from the table's word, laid out in bytes as the bus carries it. -/
def decodeTableWord (nbits w : Nat) : Option Instr :=
  if nbits ≤ 32 then (decodeBytes (bytesOfWord (tableWord nbits w))).toOption else none

/-! ## The encoder -/

/-- A bit placed at position `i` of a word. -/
def bitAt (b : Bool) (i : Nat) : Word := if b then 1#32 <<< i else 0#32

/-- The command word with the given fields and every reserved bit 0 (R67). -/
def packWord (start : Bool) (op : BitVec 3) (perr pchk : Bool) : Word :=
  bitAt start 8 ||| bitAt pchk 5 ||| bitAt perr 4 ||| op.zeroExtend 32

/-- The command word of an instruction (R67, R73, R79). -/
def encode : Instr → Word
  | .cfg op perr pchk => packWord false op perr pchk
  | .encode perr pchk => packWord true 0#3 perr pchk
  | .decode perr pchk => packWord true 1#3 perr pchk
  | .encrypt perr pchk => packWord true 2#3 perr pchk
  | .decrypt perr pchk => packWord true 3#3 perr pchk
  | .reservedOp op perr pchk => packWord true op perr pchk

/-! ## The opcode map as data (R73) -/

/-- One row of the opcode map: a word matches when `w & mask = pattern`. -/
structure OpcodeRow where
  mnemonic : String
  pattern : Word
  mask : Word
  deriving DecidableEq, Repr

/-- The word belongs to the row (R73). -/
def OpcodeRow.hits (r : OpcodeRow) (w : Word) : Bool := w &&& r.mask == r.pattern

/-- The six rows of R73. -/
def opcodeMap : List OpcodeRow :=
  [⟨"CFG", 0x00000000#32, 0x00000100#32⟩, ⟨"ENCODE", 0x00000100#32, 0x00000107#32⟩,
   ⟨"DECODE", 0x00000101#32, 0x00000107#32⟩, ⟨"ENCRYPT", 0x00000102#32, 0x00000107#32⟩,
   ⟨"DECRYPT", 0x00000103#32, 0x00000107#32⟩, ⟨"RESERVED_OP", 0x00000104#32, 0x00000104#32⟩]

/-- The row of the opcode map an instruction belongs to. -/
def Instr.mnemonic : Instr → String
  | .cfg _ _ _ => "CFG"
  | .encode _ _ => "ENCODE"
  | .decode _ _ => "DECODE"
  | .encrypt _ _ => "ENCRYPT"
  | .decrypt _ _ => "DECRYPT"
  | .reservedOp _ _ _ => "RESERVED_OP"

end Sys2Proof
end

