-- ==== Sys2Proof/Config.lean ====
section
/-! DEFINITION. The constants the spec fixes, its open parameters (CAP, BASE, BLOCK_PRIM) and the draws. -/

namespace Sys2Proof.Config

/-- `BLOCK` = 16 bytes (R7). -/
def blockBytes : Nat := 16

/-- `KEYBYTES` = 32 bytes (R7). -/
def keyBytes : Nat := 32

/-- The value register ID always reads (R18). -/
def idValue : Word := 0x504B4337#32

/-- The capacity in bytes that a block count (less one) stands for. Over all of `Fin (2^20)` it takes
exactly the values R8 allows: `16 <= CAP <= 2^24` and `CAP mod 16 = 0`. -/
def capBytes (n : Fin 1048576) : Nat := 16 * (n.val + 1)

/-- The parameter CAP (R8, D3 OPEN), as the number of 16-byte blocks less one. A free value: log entry 6. -/
opaque capBlocks : Fin 1048576

/-- The parameter BASE (R10, D4 OPEN), in units of the 2^26-byte window. A free value: log entry 8. -/
opaque baseIndex : Nat

/-- `BASE`: the platform address at which the window begins, aligned to 2^26 bytes (R10). -/
def base : Nat := baseIndex * 67108864

/-- The parameter BLOCK_PRIM (R9, D2 OPEN): for each key a permutation of blocks, which is P1 (total and
deterministic) and P2 (the two directions undo each other) and nothing more. A free value: log entry 7. -/
opaque blockPrim : KeyVec → Equiv.Perm Block

/-- `Enc(k, b)` of the block primitive (R9). -/
def enc (k : KeyVec) (b : Block) : Block := blockPrim k b

/-- `Dec(k, b)` of the block primitive (R9). -/
def dec (k : KeyVec) (b : Block) : Block := (blockPrim k).symm b

/-- The draw of IN_BUF byte `k` after reset number `epoch` (R138, U7): a free value for each byte, fixed until
the byte is written. Log entry 9. -/
opaque inDraw (epoch k : Nat) : Byte

/-- The unspecified value of OUT_BUF byte `k` after reset number `epoch` (R138, U8). Log entry 10. -/
opaque outDraw (epoch k : Nat) : Byte

end Sys2Proof.Config
end

