-- ==== Sys2Proof/Machine/State.lean ====
section
/-! DEFINITION. The state of the engine and its bus as plain data, its reset value, and why a step can stop. -/

namespace Sys2Proof.Machine

/-- The engine's phase `h.PHASE` (R35, R81). -/
inductive Phase where
  | idle
  | check
  | run
  deriving DecidableEq, Repr

/-- The codes of STATUS.ERR that some rule produces (R116); 6 and 7 have no constructor, since none does (R123). -/
inductive ErrCode where
  /-- 0: every command that succeeds. -/
  | none
  /-- 1: ENCRYPT or DECRYPT without a loaded key (R117). -/
  | keyLength
  /-- 2: ENCRYPT or DECRYPT of a length that is no multiple of 16 (R118). -/
  | alignment
  /-- 3: DECODE with PAD_ERR = 1 of an invalid tail (R119). -/
  | padding
  /-- 4: a length that does not fit the buffers (R120). -/
  | length
  /-- 5: a reserved OP (R121). -/
  | badOp
  deriving DecidableEq, Repr

/-- The direction of a bus transaction (R42). -/
inductive Dir where
  | rd
  | wr
  deriving DecidableEq, Repr

/-- The request of a bus transaction (R42). `size` is in bytes; `wdata` is used by a write only. -/
structure Request where
  dir : Dir
  size : Nat
  off : Offset
  wdata : Word
  deriving DecidableEq, Repr

/-- The two responses of the bus (R42). -/
inductive Resp where
  | okay
  | error
  deriving DecidableEq, Repr

/-- The response of a bus transaction (R42). `rdata` is there for a read only. -/
structure Response where
  resp : Resp
  rdata : Option Word
  deriving DecidableEq, Repr

/-- One atomic step of an execution that is still to come (R58): a host transaction (R43), a turn of the engine
(R83, R84), or reset (R135) with the transaction it cuts off, if any. -/
inductive Event where
  | bus (q : Request)
  | engine
  | reset (cutOff : Option Request)
  deriving DecidableEq, Repr

/-- A buffer's bytes: pairs of buffer offset and byte, offsets strictly rising; a byte nothing has written is
not listed. -/
abbrev Memory := List Host.Cell

/-- The state of the machine. INVENTORY.md gives every field its rule. -/
structure State where
  /-- CAP (R36): the block count less one that `Config.capBytes` reads. -/
  capBlocks : Fin 1048576
  /-- CTRL.OP (R20). -/
  ctrlOp : BitVec 3
  /-- CTRL.PAD_ERR (R21). -/
  ctrlPadErr : Bool
  /-- CTRL.PAD_CHK (R22). -/
  ctrlPadChk : Bool
  /-- STATUS.DONE (R27). -/
  done : Bool
  /-- STATUS.NOSTRIP (R28). -/
  nostrip : Bool
  /-- STATUS.ERR (R29). -/
  err : ErrCode
  /-- STATUS.KEYW (R30). -/
  keyw : BitVec 8
  /-- KEY0 .. KEY7 (R31). -/
  key : Vector Word 8
  /-- IN_LEN (R32). -/
  inLen : Word
  /-- OUT_LEN (R33). -/
  outLen : Word
  /-- BLK_IDX (R34). -/
  blkIdx : Word
  /-- `h.PHASE` (R35). -/
  phase : Phase
  /-- `h.LOP` (R35). -/
  lop : BitVec 3
  /-- `h.LPERR` (R35). -/
  lperr : Bool
  /-- `h.LPCHK` (R35). -/
  lpchk : Bool
  /-- `h.LLEN` (R35). -/
  llen : Word
  /-- `h.NBLK` (R35). -/
  nblk : Word
  /-- `h.OLEN` (R35). -/
  olen : Word
  /-- `h.PADB` (R35). -/
  padb : Byte
  /-- IN_BUF (R37). -/
  inBuf : Memory
  /-- OUT_BUF (R37). -/
  outBuf : Memory
  /-- The model's: resets so far, which the draws of R138 depend on (log entry 9). -/
  epoch : Nat
  /-- The model's: the steps to come, oldest first (log entry 2). -/
  pending : List Event
  /-- The model's: the response of the last transaction (log entry 5). -/
  resp : Option Response
  deriving DecidableEq, Repr

/-- Why a step of the engine stops. Both name a state that no run reaches. -/
inductive Fault where
  /-- Raised by a RUN step outside R84's range `0 <= i < h.NBLK`, or whose chunk is not inside OUT_BUF (R41). Safe:
  the machine stops (log entry 12). -/
  | chunkOutOfRange
  /-- Raised by a RUN step whose latched OP is reserved: R84 gives no chunk for it and R83 never enters RUN with
  it. Safe: the machine stops (log entry 12). -/
  | reservedOpInRun
  deriving DecidableEq, Repr

/-- Why a step has no meaning. -/
inductive Refusal where
  /-- Raised by an arm of `exec` without a meaning; there is none left. Safe: the machine stops. -/
  | notModelled (mnemonic : String)
  deriving DecidableEq, Repr

/-- The machine right after reset (R135, R136). The draws of both buffers stand for the unlisted bytes; the
model's own fields are those of log entries 2, 5 and 9. -/
def State.reset : State where
  capBlocks := Config.capBlocks
  ctrlOp := 0#3
  ctrlPadErr := false
  ctrlPadChk := false
  done := false
  nostrip := false
  err := .none
  keyw := 0#8
  key := Vector.replicate 8 0#32
  inLen := 0#32
  outLen := 0#32
  blkIdx := 0#32
  phase := .idle
  lop := 0#3
  lperr := false
  lpchk := false
  llen := 0#32
  nblk := 0#32
  olen := 0#32
  padb := 0#8
  inBuf := []
  outBuf := []
  epoch := 0
  pending := []
  resp := none

end Sys2Proof.Machine
end

