-- ==== Sys2Proof/Machine/Ops.lean ====
section
/-! DEFINITION. The named operations: buffer memory, bus responses, the parts every command shares (START,
finish, key zeroization, reset). -/

namespace Sys2Proof.Machine

/-! ## Buffer memory -/

/-- What is listed at offset `k`; a byte nothing has written has no value here (log entry 11). -/
def Memory.read : Memory → Nat → Option Byte
  | [], _ => none
  | (a, b) :: m, k => if a = k then some b else Memory.read m k

/-- Byte `k` becomes `b`; every other byte keeps what it has. -/
def Memory.write : Memory → Nat → Byte → Memory
  | [], k, b => [(k, b)]
  | (a, c) :: m, k, b =>
    if k < a then (k, b) :: (a, c) :: m
    else if k = a then (k, b) :: m
    else (a, c) :: Memory.write m k b

/-- The bytes of a sequence written from offset `k` on: `MemWrite` (00_scope.md, pseudocode primitives). -/
def Memory.writeBytes : Memory → Nat → List Byte → Memory
  | m, _, [] => m
  | m, k, b :: bs => Memory.writeBytes (Memory.write m k b) (k + 1) bs

/-- The bytes at offsets below `n`; the others go back to having no value. -/
def Memory.below (m : Memory) (n : Nat) : Memory := m.filter fun c => decide (c.1 < n)

/-- The canonical form: offsets strictly rising. (An unlisted byte has no value, so no entry can equal it.) -/
abbrev Memory.wf (m : Memory) : Prop := m.Pairwise fun x y => x.1 < y.1

/-- Every listed byte lies below `n`. -/
abbrev Memory.inside (m : Memory) (n : Nat) : Prop := ∀ c ∈ m, c.1 < n

/-! ## Views of the state -/

/-- The parameter CAP in bytes (R8, R36). -/
def State.cap (s : State) : Nat := Config.capBytes s.capBlocks

/-- STATUS.BUSY: 1 exactly when `h.PHASE != IDLE` (R26). -/
def State.busy (s : State) : Bool := s.phase != .idle

/-- IN_BUF byte `k`: what is listed, else the byte's draw (R50, R138). -/
def State.inByte (s : State) (k : Nat) : Byte := (s.inBuf.read k).getD (Config.inDraw s.epoch k)

/-- OUT_BUF byte `k` as the buffer holds it: what is listed, else unspecified (R138). -/
def State.outByte (s : State) (k : Nat) : Byte := (s.outBuf.read k).getD (Config.outDraw s.epoch k)

/-- `ob(k)`: OUT_BUF byte `k` as a host read sees it, through the OUT_LEN mask (R52). -/
def State.maskedOutByte (s : State) (k : Nat) : Byte :=
  if k < s.outLen.toNat then s.outByte k else 0x00#8

/-! ## Bus responses -/

/-- The current transaction gets OKAY with read data `w`. -/
def State.okayRead (s : State) (w : Word) : State := { s with resp := some ⟨.okay, some w⟩ }

/-- The current write gets OKAY. -/
def State.okayWrite (s : State) : State := { s with resp := some ⟨.okay, none⟩ }

/-- The response of `raise BusError`: ERROR, with read data 0 for a read (R46). -/
def errorResponse : Dir → Response
  | .rd => ⟨.error, some 0#32⟩
  | .wr => ⟨.error, none⟩

/-- `raise BusError`: the response is ERROR and nothing of the engine changes (R46). -/
def State.busError (s : State) (d : Dir) : State := { s with resp := some (errorResponse d) }

/-! ## Register writes -/

/-- The three fields of CTRL are stored (R23, R71, R72). -/
def State.storeCtrl (s : State) (op : BitVec 3) (perr pchk : Bool) : State :=
  { s with ctrlOp := op, ctrlPadErr := perr, ctrlPadChk := pchk }

/-- IN_LEN is written (R32, R49). -/
def State.writeInLen (s : State) (w : Word) : State := { s with inLen := w }

/-- KEYi is written and STATUS.KEYW bit `16 + i` is set (R30, R31, R49; log entry 17). -/
def State.writeKey (s : State) (i : Fin 8) (w : Word) : State :=
  { s with key := s.key.set i.val w i.isLt, keyw := s.keyw ||| 1#8 <<< i.val }

/-- Bytes are written to IN_BUF from offset `k` on (R50, R51). -/
def State.writeIn (s : State) (k : Nat) (bs : List Byte) : State :=
  { s with inBuf := s.inBuf.writeBytes k bs }

/-! ## The command cycle -/

/-- The START transition: CTRL's fields, the latches, the flags, the counters and the phase; the key, KEYW and the
buffers stay (R82). -/
def State.start (s : State) (op : BitVec 3) (perr pchk : Bool) : State :=
  { s.storeCtrl op perr pchk with
    lop := op, lperr := perr, lpchk := pchk, llen := s.inLen
    nblk := 0#32, olen := 0#32, padb := 0#8
    done := false, err := .none, nostrip := false
    outLen := 0#32, blkIdx := 0#32, phase := .check }

/-- A CTRL write with START = 1: ERROR while BUSY, else the START transition in the same step (R47, R71, R82). -/
def startCommand (op : BitVec 3) (perr pchk : Bool) (s : State) : State :=
  if s.busy then s.busError .wr else (s.start op perr pchk).okayWrite

/-- A CTRL write with START = 0: ERROR while BUSY, else the three fields are stored (R47, R72). -/
def configure (op : BitVec 3) (perr pchk : Bool) (s : State) : State :=
  if s.busy then s.busError .wr else (s.storeCtrl op perr pchk).okayWrite

/-- `KeyZeroize()`: KEY0 .. KEY7 and STATUS.KEYW become 0 (R111). -/
def State.keyZeroize (s : State) : State := { s with key := Vector.replicate 8 0#32, keyw := 0#8 }

/-- The latched command is ENCRYPT or DECRYPT. -/
def State.ecbLatched (s : State) : Bool := s.lop == 2#3 || s.lop == 3#3

/-- `x[OUT_LEN] <- h.OLEN` when the code is 0 (R85). -/
def State.reportLength (s : State) (code : ErrCode) : State :=
  if code = .none then { s with outLen := s.olen } else s

/-- `finish(code)`: the end of a command, and the entry of every command error (R85, R126). -/
def State.finish (s : State) (code : ErrCode) : State :=
  let t := { s.reportLength code with err := code, done := true, phase := .idle }
  if s.ecbLatched then t.keyZeroize else t

/-- The engine goes from CHECK to producing chunks (R83). -/
def State.enterRun (s : State) : State := { s with phase := .run }

/-- What a command's part of the CHECK step decides: an error code, or the output length and chunk count are set
(R83). -/
inductive Verdict where
  | fail (code : ErrCode) (s : State)
  | pass (s : State)
  deriving DecidableEq, Repr

/-- The rest of the CHECK step: finish with the error, finish at once when there is no chunk, else enter RUN
(R83). -/
def Verdict.conclude : Verdict → State
  | .fail code s => s.finish code
  | .pass s => if s.nblk = 0#32 then s.finish .none else s.enterRun

/-- The lengths a successful check sets, narrowed to the 32 bits of R35 (R12: nothing is lost; log entry 14). -/
def State.setLengths (s : State) (olen nblk : Nat) : State :=
  { s with olen := BitVec.ofNat 32 olen, nblk := BitVec.ofNat 32 nblk }

/-- The effect of a RUN step that produced chunk `c` of index `i`: the chunk is written, the counter moves, and
the last chunk finishes the command (R84). -/
def State.putChunk (s : State) (i : Nat) (c : Block) : State :=
  let t := { s with outBuf := s.outBuf.writeBytes (16 * i) c.toList, blkIdx := BitVec.ofNat 32 (i + 1) }
  if i + 1 = s.nblk.toNat then t.finish .none else t

/-! ## Reset -/

/-- OUT_BUF after reset: what the RUN steps of an aborted command wrote stays (R137), every other byte is
unspecified (R138; log entry 10). -/
def State.outBufAfterReset (s : State) : Memory :=
  if s.busy then s.outBuf.below (16 * s.blkIdx.toNat) else []

/-- The reset step (R135): every register and hidden field at its reset value, CAP as it is wired, IN_BUF and
OUT_BUF unspecified, and the inputs that come after it as they are. -/
def State.resetStep (s : State) : State :=
  { State.reset with
    capBlocks := s.capBlocks, outBuf := s.outBufAfterReset, epoch := s.epoch + 1, pending := s.pending }

end Sys2Proof.Machine
end

