-- ==== Sys2Proof/Machine/Operands.lean ====
section
/-! DEFINITION. The operands of the commands (R70): the input bytes, blocks and the key; the pad length and the
tail check. -/

namespace Sys2Proof.Machine

/-- `L = h.LLEN`, the input length latched at START (R70). -/
def State.inputLength (s : State) : Nat := s.llen.toNat

/-- `KeyBytes()`: key byte `4i + j` is `KEYi[8j+7 : 8j]` (R31, R54). -/
def State.keyBytes (s : State) : KeyVec :=
  Vector.ofFn fun n => byteOf (s.key[n.val / 4]'(by omega)) (n.val % 4)

/-- The key is loaded: KEYW = 0xFF (R30). -/
def State.keyLoaded (s : State) : Bool := s.keyw == 0xFF#8

/-- `MemRead(IN + 16*i, 16)`: the block whose byte `j` is IN_BUF byte `16i + j` (R57). -/
def State.inBlock (s : State) (i : Nat) : Block := Vector.ofFn fun j => s.inByte (16 * i + j.val)

/-- `MemRead(IN + k, n)` as a byte sequence (00_scope.md, pseudocode primitives). -/
def State.inBytes (s : State) (k n : Nat) : List Byte := (List.range n).map fun j => s.inByte (k + j)

/-- `padlen(L) = 16 - (L mod 16)` (R92). -/
def padlen (len : Nat) : Nat := 16 - len % 16

/-- `ceil(n / 16)` as `(n + 15) / 16` (R98, R100). -/
def blocksFor (n : Nat) : Nat := (n + 15) / 16

/-- `TailValid(L, p, chk)` on the bytes that `f` gives (R96). -/
def tailValid (f : Nat → Byte) (len : Nat) (p : Byte) (chk : Bool) : Bool :=
  decide (1 ≤ p.toNat) && decide (p.toNat ≤ 16) && decide (p.toNat ≤ len) &&
    (!chk || (List.range p.toNat).all fun j => f (len - p.toNat + j) == p)

end Sys2Proof.Machine
end

