-- ==== Sys2Proof/Machine/Flags.lean ====
section
/-! DEFINITION. The register words a host reads: CTRL and STATUS put together from their fields. -/

namespace Sys2Proof.Machine

/-- The number STATUS.ERR shows for a code (R116). -/
def ErrCode.code : ErrCode → BitVec 3
  | .none => 0#3
  | .keyLength => 1#3
  | .alignment => 2#3
  | .padding => 3#3
  | .length => 4#3
  | .badOp => 5#3

/-- What a read of CTRL returns: `(PAD_CHK << 5) | (PAD_ERR << 4) | OP` (R19). -/
def State.ctrlWord (s : State) : Word :=
  bitAt s.ctrlPadChk 5 ||| bitAt s.ctrlPadErr 4 ||| s.ctrlOp.zeroExtend 32

/-- What a read of STATUS returns, every reserved bit 0 (R25). -/
def State.statusWord (s : State) : Word :=
  s.keyw.zeroExtend 32 <<< 16 ||| s.err.code.zeroExtend 32 <<< 4 |||
    bitAt s.nostrip 2 ||| bitAt s.done 1 ||| bitAt s.busy 0

end Sys2Proof.Machine
end

