-- ==== Sys2Proof/Machine/Ecb.lean ====
section
/-! DEFINITION. The ECB block iterator: ENCRYPT and DECRYPT, each with its host step and its chunks, and their
common check. -/

namespace Sys2Proof.Machine

/-- ENCRYPT's host step: START with OP = 2 (R82, R107). The engine's steps are `ecbCheck` and `encryptChunk`. -/
def execEncrypt (perr pchk : Bool) (s : State) : Host.Outcome State Fault Refusal :=
  .next (startCommand 2#3 perr pchk s)

/-- DECRYPT's host step: START with OP = 3 (R82, R108). The engine's steps are `ecbCheck` and `decryptChunk`. -/
def execDecrypt (perr pchk : Bool) (s : State) : Host.Outcome State Fault Refusal :=
  .next (startCommand 3#3 perr pchk s)

/-- `EcbCheck()`: LENGTH, then ALIGNMENT, then KEY_LENGTH, else the lengths (R109, R125). -/
def ecbCheck (s : State) : Verdict :=
  if s.cap < s.inputLength then .fail .length s
  else if s.inputLength % 16 ≠ 0 then .fail .alignment s
  else if !s.keyLoaded then .fail .keyLength s
  else .pass (s.setLengths s.inputLength (s.inputLength / 16))

/-- `Chunk(2, i)` (R110). -/
def encryptChunk (s : State) (i : Nat) : Block := Config.enc s.keyBytes (s.inBlock i)

/-- `Chunk(3, i)` (R110). -/
def decryptChunk (s : State) (i : Nat) : Block := Config.dec s.keyBytes (s.inBlock i)

end Sys2Proof.Machine
end

