-- ==== Sys2Proof/Machine/Padding.lean ====
section
/-! DEFINITION. The padding codec: ENCODE and DECODE, each with its host step, its check and its chunks. -/

namespace Sys2Proof.Machine

/-- ENCODE's host step: START with OP = 0 (R82, R93). The engine's steps are `encodeCheck` and `encodeChunk`. -/
def execEncode (perr pchk : Bool) (s : State) : Host.Outcome State Fault Refusal :=
  .next (startCommand 0#3 perr pchk s)

/-- `EncodeCheck()` (R94). -/
def encodeCheck (s : State) : Verdict :=
  if s.cap ≤ s.inputLength then .fail .length s
  else
    let p := padlen s.inputLength
    .pass ({ s with padb := BitVec.ofNat 8 p }.setLengths (s.inputLength + p) ((s.inputLength + p) / 16))

/-- `Chunk(0, i)`: lane `j` is the input byte below L, else the pad byte (R95). -/
def encodeChunk (s : State) (i : Nat) : Block :=
  Vector.ofFn fun j => if 16 * i + j.val < s.inputLength then s.inByte (16 * i + j.val) else s.padb

/-- DECODE's host step: START with OP = 1 (R82, R97). The engine's steps are `decodeCheck` and `decodeChunk`. -/
def execDecode (perr pchk : Bool) (s : State) : Host.Outcome State Fault Refusal :=
  .next (startCommand 1#3 perr pchk s)

/-- The part of `DecodeCheck()` after an invalid tail: NOSTRIP, then PADDING or pass-through (R98). -/
def decodeInvalidTail (s : State) : Verdict :=
  let t := { s with nostrip := true }
  if s.lperr then .fail .padding t else .pass (t.setLengths s.inputLength (blocksFor s.inputLength))

/-- `DecodeCheck()` (R98). -/
def decodeCheck (s : State) : Verdict :=
  let len := s.inputLength
  if s.cap < len then .fail .length s
  else if len = 0 then .pass (s.setLengths 0 0)
  else
    let p := s.inByte (len - 1)
    if tailValid s.inByte len p s.lpchk then .pass (s.setLengths (len - p.toNat) (blocksFor (len - p.toNat)))
    else decodeInvalidTail s

/-- `Chunk(1, i)`: lane `j` is the input byte below `h.OLEN`, else 0x00 (R99). -/
def decodeChunk (s : State) (i : Nat) : Block :=
  Vector.ofFn fun j => if 16 * i + j.val < s.olen.toNat then s.inByte (16 * i + j.val) else 0x00#8

end Sys2Proof.Machine
end

