-- ==== Sys2Proof/Machine/System.lean ====
section
/-! DEFINITION. CFG and RESERVED_OP. -/

namespace Sys2Proof.Machine

/-- CFG (R86). -/
def execCfg (op : BitVec 3) (perr pchk : Bool) (s : State) : Host.Outcome State Fault Refusal :=
  .next (configure op perr pchk s)

/-- RESERVED_OP's host step (R87): START as for any command (log entry 18 for the ill-formed term). -/
def execReservedOp (op : BitVec 3) (perr pchk : Bool) (s : State) : Host.Outcome State Fault Refusal :=
  .next (startCommand op perr pchk s)

/-- RESERVED_OP's part of the CHECK step: BAD_OP, before anything is read (R83, R87, R121). -/
def reservedCheck (s : State) : Verdict := .fail .badOp s

end Sys2Proof.Machine
end

