-- ==== Sys2Proof/Machine/Dispatch.lean ====
section
/-! DEFINITION. One arm per command word: the host step that writes the word to CTRL. -/

namespace Sys2Proof.Machine

def exec (i : Instr) (s : State) : Host.Outcome State Fault Refusal :=
  match i with
  | .cfg op perr pchk => Sys2Proof.Machine.execCfg op perr pchk s
  | .encode perr pchk => Sys2Proof.Machine.execEncode perr pchk s
  | .decode perr pchk => Sys2Proof.Machine.execDecode perr pchk s
  | .encrypt perr pchk => Sys2Proof.Machine.execEncrypt perr pchk s
  | .decrypt perr pchk => Sys2Proof.Machine.execDecrypt perr pchk s
  | .reservedOp op perr pchk => Sys2Proof.Machine.execReservedOp op perr pchk s

end Sys2Proof.Machine
end

