-- ==== Sys2Proof/Machine/Bus.lean ====
section
/-! DEFINITION. The bus: the address map, which transactions get OKAY, and what each of them does. -/

namespace Sys2Proof.Machine

/-- The registers of the register map (R17). -/
inductive Reg where
  | id
  | ctrl
  | status
  | inLen
  | outLen
  | blkIdx
  | cap
  | key (i : Fin 8)
  deriving DecidableEq, Repr

/-- The access column of the register map (R17). -/
inductive Access where
  | readOnly
  | writeOnly
  | readWrite
  deriving DecidableEq, Repr

/-- The access a register allows (R17). -/
def Reg.access : Reg → Access
  | .id => .readOnly
  | .ctrl => .readWrite
  | .status => .readOnly
  | .inLen => .readWrite
  | .outLen => .readOnly
  | .blkIdx => .readOnly
  | .cap => .readOnly
  | .key _ => .writeOnly

/-- The register whose four bytes hold offset `4n` .. `4n + 3`; the others are reserved (R17, R38). -/
def regAt (n : Nat) : Option Reg :=
  match n with
  | 0 => some .id
  | 1 => some .ctrl
  | 2 => some .status
  | 3 => some .inLen
  | 4 => some .outLen
  | 5 => some .blkIdx
  | 6 => some .cap
  | 7 => none
  | k + 8 => if h : k < 8 then some (.key ⟨k, h⟩) else none

/-- The regions of the window (R41). -/
inductive Region where
  | register (r : Reg)
  | reserved
  | inBuf (k : Nat)
  | outBuf (k : Nat)
  | unmapped
  deriving DecidableEq, Repr

/-- The region a 26-bit offset selects, for a capacity of `cap` bytes (R41). -/
def regionAt (cap : Nat) (off : Nat) : Region :=
  if off < 0x100 then
    match regAt (off / 4) with
    | some r => .register r
    | none => .reserved
  else if off < 0x1000000 then .unmapped
  else if off < 0x2000000 then
    if off - 0x1000000 < cap then .inBuf (off - 0x1000000) else .unmapped
  else if off < 0x3000000 then
    if off - 0x2000000 < cap then .outBuf (off - 0x2000000) else .unmapped
  else .unmapped

/-- The region a request names. -/
def State.regionOf (s : State) (q : Request) : Region := regionAt s.cap q.off.toNat

/-- `off = address - BASE` for an address inside the window; the rest of the platform's addresses do not reach
the engine (R10, R41). -/
def offsetOf (addr : Nat) : Option Offset :=
  if Config.base ≤ addr ∧ addr < Config.base + 67108864 then some (BitVec.ofNat 26 (addr - Config.base)) else none

/-- The access column allows the direction (R17). -/
def Access.allows : Access → Dir → Bool
  | .readOnly, d => d == .rd
  | .writeOnly, d => d == .wr
  | .readWrite, _ => true

/-- The table of R44: the cases that get OKAY when nothing is locked. Alignment is that of the offset, since
every region begins at a multiple of 4. -/
def permits (g : Region) (q : Request) : Bool :=
  match g with
  | .register r => q.size == 4 && q.off.toNat % 4 == 0 && r.access.allows q.dir
  | .inBuf _ => q.size == 1 || (q.size == 4 && q.off.toNat % 4 == 0)
  | .outBuf _ => q.dir == .rd && (q.size == 1 || (q.size == 4 && q.off.toNat % 4 == 0))
  | .reserved => false
  | .unmapped => false

/-- The busy lockout's list: writes of CTRL, IN_LEN and the key, every access of IN_BUF, reads of OUT_BUF (R47). -/
def lockable (g : Region) (d : Dir) : Bool :=
  match g with
  | .register .ctrl => d == .wr
  | .register .inLen => d == .wr
  | .register (.key _) => d == .wr
  | .inBuf _ => true
  | .outBuf _ => d == .rd
  | _ => false

/-- The transaction gets OKAY: the lockout first, then the table (R44, R47). -/
def State.accepts (s : State) (q : Request) : Bool :=
  !(s.busy && lockable (s.regionOf q) q.dir) && permits (s.regionOf q) q

/-- The value a readable register returns (R48); the key is never readable (R31). -/
def State.regValue (s : State) : Reg → Option Word
  | .id => some Config.idValue
  | .ctrl => some s.ctrlWord
  | .status => some s.statusWord
  | .inLen => some s.inLen
  | .outLen => some s.outLen
  | .blkIdx => some s.blkIdx
  | .cap => some (BitVec.ofNat 32 s.cap)
  | .key _ => none

/-- `zext_32` of a byte (R42). -/
def zextByte (b : Byte) : Word := b.zeroExtend 32

/-- The data a read of `size` bytes gives, from the byte at each offset: one byte zero-extended, or four
little-endian (R50 to R52, R54). -/
def readData (f : Nat → Byte) (size k : Nat) : Word :=
  if size = 1 then zextByte (f k) else wordOfBytes (f k) (f (k + 1)) (f (k + 2)) (f (k + 3))

/-- The bytes a write of `size` bytes stores, lowest offset first (R50, R51). -/
def writeData (size : Nat) (w : Word) : List Byte := if size = 1 then [byteOf w 0] else bytesOfWord w

/-- A register read that gets OKAY (R48). -/
def readRegister (r : Reg) (s : State) : State :=
  match s.regValue r with
  | some w => s.okayRead w
  | none => s.busError .rd

/-- A register write that gets OKAY (R49). A CTRL write runs the command word. -/
def writeRegister (r : Reg) (w : Word) (s : State) : Host.Outcome State Fault Refusal :=
  match r with
  | .ctrl => exec (decodeWord w) s
  | .inLen => .next (s.writeInLen w).okayWrite
  | .key i => .next (s.writeKey i w).okayWrite
  | _ => .next (s.busError .wr)

/-- What a transaction that gets OKAY does (R48 to R53). -/
def perform (g : Region) (q : Request) (s : State) : Host.Outcome State Fault Refusal :=
  match g, q.dir with
  | .register r, .rd => .next (readRegister r s)
  | .register r, .wr => writeRegister r q.wdata s
  | .inBuf k, .rd => .next (s.okayRead (readData s.inByte q.size k))
  | .inBuf k, .wr => .next (s.writeIn k (writeData q.size q.wdata)).okayWrite
  | .outBuf k, .rd => .next (s.okayRead (readData s.maskedOutByte q.size k))
  | _, d => .next (s.busError d)

/-- One bus transaction, one atomic step of the host (R43): performed whole, or ERROR (R46). -/
def transact (q : Request) (s : State) : Host.Outcome State Fault Refusal :=
  if s.accepts q then perform (s.regionOf q) q s else .next (s.busError q.dir)

/-- The transaction that writes a command word: `wr32 CTRL, w` (R67, R79). -/
def ctrlWrite (w : Word) : Request := ⟨.wr, 4, 0x004#26, w⟩

end Sys2Proof.Machine
end

