-- ==== Sys2Proof/Machine/Engine.lean ====
section
/-! DEFINITION. The engine's own steps: CHECK, RUN, and none while idle. -/

namespace Sys2Proof.Machine

/-- The command's part of the CHECK step, selected by the latched OP; BAD_OP comes first (R83, R125). -/
def State.check (s : State) : Verdict :=
  match s.lop.toNat with
  | 0 => encodeCheck s
  | 1 => decodeCheck s
  | 2 => ecbCheck s
  | 3 => ecbCheck s
  | _ => reservedCheck s

/-- `Chunk(h.LOP, i)`; no rule gives a chunk for a reserved OP (R84). -/
def State.chunk (s : State) (i : Nat) : Option Block :=
  match s.lop.toNat with
  | 0 => some (encodeChunk s i)
  | 1 => some (decodeChunk s i)
  | 2 => some (encryptChunk s i)
  | 3 => some (decryptChunk s i)
  | _ => none

/-- The CHECK step (R83). -/
def checkStep (s : State) : State := s.check.conclude

/-- The chunk index is in R84's range and the chunk lies inside OUT_BUF. -/
def State.chunkInRange (s : State) (i : Nat) : Bool :=
  decide (i < s.nblk.toNat) && decide (16 * i + 16 ≤ s.cap)

/-- The RUN step (R84). -/
def runStep (s : State) : Host.Outcome State Fault Refusal :=
  let i := s.blkIdx.toNat
  if s.chunkInRange i then
    match s.chunk i with
    | some c => .next (s.putChunk i c)
    | none => .fault .reservedOpInRun
  else .fault .chunkOutOfRange

/-- One turn of the engine: its one enabled step, or nothing while it is idle (R81). -/
def engineStep (s : State) : Host.Outcome State Fault Refusal :=
  match s.phase with
  | .idle => .next s
  | .check => .next (checkStep s)
  | .run => runStep s

end Sys2Proof.Machine
end

