-- ==== Sys2Proof/Machine/Step.lean ====
section
/-! DEFINITION. One atomic step of an execution (R58), and how a command word is put before the machine. -/

namespace Sys2Proof.Machine

/-- The step takes the oldest input still to come: a host transaction, a turn of the engine, or reset. With no
input to come the engine takes its turn (R147; log entries 2 and 3). -/
def step (s : State) : Host.Outcome State Fault Refusal :=
  match s.pending with
  | [] => engineStep s
  | .engine :: rest => engineStep { s with pending := rest }
  | .bus q :: rest => transact q { s with pending := rest }
  | .reset _ :: rest => .next { s with pending := rest }.resetStep

/-- `s` with the host's write of the table word `w` to CTRL as its next input (log entry 2). -/
def State.withFetchWord (s : State) (nbits w : Nat) : State :=
  { s with pending := .bus (ctrlWrite (tableWord nbits w)) :: s.pending }

end Sys2Proof.Machine
end

