-- ==== Sys2Proof/Machine/HostAsm.lean ====
section
/-! DEFINITION. The host's assembler (R77 to R80): statements, symbolic offsets, command mnemonics and
pseudo-instructions, as the bus transactions they stand for. -/

namespace Sys2Proof.Machine

/-! ## Symbolic offsets (R78) -/

def offId : Offset := 0x000#26
def offCtrl : Offset := 0x004#26
def offStatus : Offset := 0x008#26
def offInLen : Offset := 0x00C#26
def offOutLen : Offset := 0x010#26
def offBlkIdx : Offset := 0x014#26
def offCap : Offset := 0x018#26

/-- `KEYi` = 0x020 + 4i. -/
def offKey (i : Nat) : Offset := BitVec.ofNat 26 (0x020 + 4 * i)

/-- `IN+k` = 0x100_0000 + k. -/
def offIn (k : Nat) : Offset := BitVec.ofNat 26 (0x1000000 + k)

/-- `OUT+k` = 0x200_0000 + k. -/
def offOut (k : Nat) : Offset := BitVec.ofNat 26 (0x2000000 + k)

/-! ## Statements (R77) -/

/-- A statement; `err` stands for the trailing `!ERR`, `expect` for the value after `->`, absent for `-> ?`. -/
inductive Stmt where
  | wr32 (off : Offset) (v : Word) (err : Bool)
  | wr8 (off : Offset) (v : Byte) (err : Bool)
  | rd32 (off : Offset) (expect : Option Word) (err : Bool)
  | rd8 (off : Offset) (expect : Option Word) (err : Bool)
  deriving DecidableEq, Repr

/-- The transaction a statement stands for. -/
def Stmt.request : Stmt → Request
  | .wr32 off v _ => ⟨.wr, 4, off, v⟩
  | .wr8 off v _ => ⟨.wr, 1, off, zextByte v⟩
  | .rd32 off _ _ => ⟨.rd, 4, off, 0#32⟩
  | .rd8 off _ _ => ⟨.rd, 1, off, 0#32⟩

/-- The read data is the expected value, where one is written. -/
def expectationMet : Option Word → Option Word → Bool
  | none, _ => true
  | some e, d => d == some e

/-- The response is the one the statement is written with. -/
def Stmt.meets : Stmt → Response → Bool
  | .wr32 _ _ err, r => r.resp == if err then .error else .okay
  | .wr8 _ _ err, r => r.resp == if err then .error else .okay
  | .rd32 _ e err, r => (r.resp == if err then .error else .okay) && expectationMet e r.rdata
  | .rd8 _ e err, r => (r.resp == if err then .error else .okay) && expectationMet e r.rdata

/-- The inputs that a sequence of statements gives the machine, in order. -/
def hostEvents (p : List Stmt) : List Event := p.map fun t => .bus t.request

/-! ## Command mnemonics (R79) -/

def padEnc : Stmt := .wr32 offCtrl 0x00000100#32 false
def padDec : Stmt := .wr32 offCtrl 0x00000101#32 false
def padDecErr : Stmt := .wr32 offCtrl 0x00000111#32 false
def padDecChk : Stmt := .wr32 offCtrl 0x00000121#32 false
def padDecErrChk : Stmt := .wr32 offCtrl 0x00000131#32 false
def ecbEnc : Stmt := .wr32 offCtrl 0x00000102#32 false
def ecbDec : Stmt := .wr32 offCtrl 0x00000103#32 false

/-- `cfg op, perr, pchk`: the word `(pchk << 5) | (perr << 4) | op`. -/
def cfgStmt (op : BitVec 3) (perr pchk : Bool) : Stmt :=
  .wr32 offCtrl (bitAt pchk 5 ||| bitAt perr 4 ||| op.zeroExtend 32) false

/-! ## Pseudo-instructions (R80) -/

/-- `wait` as an interleaving runs it: `turns` turns of the engine, then the poll that sees BUSY = 0. The polls
before it change nothing but the response (log entry 16). -/
def waitEvents (turns : Nat) : List Event :=
  List.replicate turns .engine ++ [.bus (Stmt.rd32 offStatus none false).request]

/-- `setlen n`. -/
def setlen (n : Word) : Stmt := .wr32 offInLen n false

/-- `{b(4m+3), b(4m+2), b(4m+1), b(4m)}` of a byte sequence. -/
def wordAt (b : List Byte) (m : Nat) : Word :=
  wordOfBytes (b.getD (4 * m) 0#8) (b.getD (4 * m + 1) 0#8) (b.getD (4 * m + 2) 0#8) (b.getD (4 * m + 3) 0#8)

/-- `loadkey k0 .. k31`: the eight key words, KEY0 first. -/
def loadkey (k : List Byte) : List Stmt := (List.range 8).map fun i => .wr32 (offKey i) (wordAt k i) false

/-- `fill IN, b0 .. b(n-1)`: the whole words, then the remaining `n mod 4` bytes one at a time. -/
def fillIn (b : List Byte) : List Stmt :=
  ((List.range (b.length / 4)).map fun m => .wr32 (offIn (4 * m)) (wordAt b m) false) ++
    ((List.range (b.length % 4)).map fun j =>
      .wr8 (offIn (4 * (b.length / 4) + j)) (b.getD (4 * (b.length / 4) + j) 0#8) false)

/-- `copy n`, where `v m` is the word the read of `OUT+4m` gives: reads and writes in turn, then `setlen n`. -/
def copyOut (n : Nat) (v : Nat → Word) : List Stmt :=
  ((List.range ((n + 3) / 4)).flatMap fun m =>
    [.rd32 (offOut (4 * m)) (some (v m)) false, .wr32 (offIn (4 * m)) (v m) false]) ++
    [setlen (BitVec.ofNat 32 n)]

/-- The word a host reads at `OUT+4m` while the engine is idle (R52), which is what `copy` moves. -/
def State.outWord (s : State) (m : Nat) : Word := readData s.maskedOutByte 4 (4 * m)

end Sys2Proof.Machine
end

