-- ==== Sys2Proof/Safety.lean ====
section
/-! DEFINITION. The terms claims are stated in: the source's functions on byte sequences, what a command's result
is, the invariant of the machine, and completion. -/

namespace Sys2Proof.Machine

/-! ## The source's functions on byte sequences -/

/-- `X ++ rep(p, p)` with `p = padlen(len X)`: the source's `encode` (R93). -/
def sourceEncode (x : List Byte) : List Byte :=
  x ++ List.replicate (padlen x.length) (BitVec.ofNat 8 (padlen x.length))

/-- The tail of `y` is valid (R96). -/
def sourceTailValid (y : List Byte) (chk : Bool) : Bool :=
  let p := y.getLastD 0#8
  decide (1 ≤ p.toNat) && decide (p.toNat ≤ 16) && decide (p.toNat ≤ y.length) &&
    (!chk || (y.drop (y.length - p.toNat)).all (· == p))

/-- Block `i` of a byte sequence: bytes `16i .. 16i+15` (R105). -/
def blockOf (x : List Byte) (i : Nat) : Block := Vector.ofFn fun j => x.getD (16 * i + j.val) 0#8

/-- A block transform applied to each 16-byte chunk, in order, the results concatenated: the source's `process`
(R105). -/
def sourceProcess (f : Block → Block) (x : List Byte) : List Byte :=
  (List.range (x.length / 16)).flatMap fun i => (f (blockOf x i)).toList

/-- What a command reports: the pair of R85 (error code, output bytes) and the NOSTRIP flag. -/
structure Report where
  err : ErrCode
  nostrip : Bool
  out : List Byte
  deriving DecidableEq, Repr

/-- The report of a command error: no output (R85, R126). -/
def Report.failed (code : ErrCode) : Report := ⟨code, false, []⟩

/-- ENCODE's report for capacity `cap`, length `len` and input `x` (R93, R94). -/
def encodeReport (cap len : Nat) (x : List Byte) : Report :=
  if cap ≤ len then .failed .length else ⟨.none, false, sourceEncode x⟩

/-- DECODE's report (R97, R98). -/
def decodeReport (cap len : Nat) (y : List Byte) (perr chk : Bool) : Report :=
  if cap < len then .failed .length
  else if len = 0 then ⟨.none, false, []⟩
  else if sourceTailValid y chk then ⟨.none, false, y.take (len - (y.getLastD 0#8).toNat)⟩
  else if perr then ⟨.padding, true, []⟩
  else ⟨.none, true, y⟩

/-- The report of ENCRYPT or DECRYPT with the block transform `f` (R107 to R109, R125). -/
def ecbReport (cap len : Nat) (x : List Byte) (loaded : Bool) (f : Block → Block) : Report :=
  if cap < len then .failed .length
  else if len % 16 ≠ 0 then .failed .alignment
  else if !loaded then .failed .keyLength
  else ⟨.none, false, sourceProcess f x⟩

/-- What a command whose inputs are those of `s` must report: a function of the latched command word and length,
IN_BUF and the key alone (R60). -/
def State.dueReport (s : State) : Report :=
  let len := s.inputLength
  match s.lop.toNat with
  | 0 => encodeReport s.cap len (s.inBytes 0 len)
  | 1 => decodeReport s.cap len (s.inBytes 0 len) s.lperr s.lpchk
  | 2 => ecbReport s.cap len (s.inBytes 0 len) s.keyLoaded (Config.enc s.keyBytes)
  | 3 => ecbReport s.cap len (s.inBytes 0 len) s.keyLoaded (Config.dec s.keyBytes)
  | _ => .failed .badOp

/-- The output byte sequence a host reads: OUT_BUF bytes `0 .. OUT_LEN-1` (R33, R52). -/
def State.outputBytes (s : State) : List Byte := (List.range s.outLen.toNat).map s.maskedOutByte

/-- What the registers and OUT_BUF report after a command (R85). -/
def State.report (s : State) : Report := ⟨s.err, s.nostrip, s.outputBytes⟩

/-- The engine steps a command with this report takes (R88, R145). -/
def Report.engineSteps (r : Report) : Nat := if r.err = .none then 1 + blocksFor r.out.length else 1

/-! ## Completion -/

/-- From `s`, `n` steps of the machine lead to `t`. -/
def Runs (n : Nat) (s t : State) : Prop := Host.Core.run Sys2Proof.core n s = .next t

/-- From `s` the machine reaches `t`, with the engine idle and no input left, in some number of steps. -/
def Settles (s t : State) : Prop :=
  ∃ n, Runs n s t ∧ t.phase = .idle ∧ t.pending = []

/-- `t` is what the host's write of the command word `w` to the idle `s` leads to, no other input coming. -/
def CommandLeadsTo (s : State) (w : Word) (t : State) : Prop :=
  Settles { s with pending := [.bus (ctrlWrite w)] } t

/-- Between `s` and `t` the host ran `copy`: IN_BUF holds the output of `s` and IN_LEN its length (R80,
R143). That `copyOut` leads there is proved in Laws/HostAsm.lean. -/
def CopiedOut (s t : State) : Prop :=
  t.phase = .idle ∧ t.pending = [] ∧ t.capBlocks = s.capBlocks ∧ t.inLen = s.outLen ∧
    ∀ k, k < s.outLen.toNat → t.inByte k = s.maskedOutByte k

/-! ## What a command leaves alone -/

/-- What no command changes: CAP, IN_LEN, IN_BUF and its draws, the inputs to come (R56). -/
structure InputsKept (s t : State) : Prop where
  capBlocks : t.capBlocks = s.capBlocks
  inLen : t.inLen = s.inLen
  inBuf : t.inBuf = s.inBuf
  epoch : t.epoch = s.epoch
  pending : t.pending = s.pending

/-- CTRL and the latches hold the command word's fields, `h.LLEN` the input length (R82). -/
structure Latched (op : BitVec 3) (perr pchk : Bool) (s t : State) : Prop where
  ctrlOp : t.ctrlOp = op
  ctrlPadErr : t.ctrlPadErr = perr
  ctrlPadChk : t.ctrlPadChk = pchk
  lop : t.lop = op
  lperr : t.lperr = perr
  lpchk : t.lpchk = pchk
  llen : t.llen = s.inLen

/-- `t` reports a command that ended with `code`: idle, DONE, the code, NOSTRIP, and the two counters (R85). -/
structure Ended (code : ErrCode) (nostrip : Bool) (outLen blkIdx : Nat) (t : State) : Prop where
  phase : t.phase = .idle
  done : t.done = true
  err : t.err = code
  nostrip : t.nostrip = nostrip
  outLen : t.outLen.toNat = outLen
  blkIdx : t.blkIdx.toNat = blkIdx

/-- The key and KEYW are as they were. -/
structure KeyKept (s t : State) : Prop where
  key : t.key = s.key
  keyw : t.keyw = s.keyw

/-- The key is cleared: KEY0 .. KEY7 = 0 and KEYW = 0x00 (R111). -/
structure KeyCleared (t : State) : Prop where
  key : ∀ i : Fin 8, t.key[i.val] = 0#32
  keyw : t.keyw = 0#8

/-! ## The invariant -/

/-- Every OUT_BUF byte below `n` has been written. -/
def State.outWritten (s : State) (n : Nat) : Prop := ∀ k, k < n → (s.outBuf.read k).isSome = true

/-- No result is reported: the flags and counters as START and reset leave them (R39, R82, R135). -/
structure Unreported (s : State) : Prop where
  done : s.done = false
  err : s.err = .none
  outLen : s.outLen = 0#32

/-- While idle (R33, R34, R59, R89). -/
structure IdleInv (s : State) : Prop where
  fresh : s.done = false → Unreported s ∧ s.nostrip = false ∧ s.blkIdx = 0#32
  failed : s.err ≠ .none → s.outLen = 0#32 ∧ s.blkIdx = 0#32
  nostripDecode : s.nostrip = true → s.lop = 1#3
  fits : 16 * s.blkIdx.toNat ≤ s.cap
  blocks : s.blkIdx.toNat = blocksFor s.outLen.toNat
  written : s.outWritten (16 * s.blkIdx.toNat)

/-- Between START and CHECK (R82). -/
structure CheckInv (s : State) : Prop where
  unreported : Unreported s
  nostrip : s.nostrip = false
  blkIdx : s.blkIdx = 0#32
  nblk : s.nblk = 0#32
  olen : s.olen = 0#32
  padb : s.padb = 0#8

/-- While chunks are produced (R84, R94, R98, R109). -/
structure RunInv (s : State) : Prop where
  unreported : Unreported s
  progress : s.blkIdx.toNat < s.nblk.toNat
  fits : 16 * s.nblk.toNat ≤ s.cap
  blocks : s.nblk.toNat = blocksFor s.olen.toNat
  legalOp : s.lop.toNat < 4
  length : s.llen.toNat ≤ s.cap
  nostripDecode : s.nostrip = true → s.lop = 1#3 ∧ s.lperr = false ∧ s.olen = s.llen
  encode : s.lop = 0#3 → s.padb.toNat = padlen s.inputLength ∧ s.olen.toNat = s.inputLength + padlen s.inputLength
  decode : s.lop = 1#3 → s.olen.toNat ≤ s.inputLength
  ecb : s.ecbLatched = true → s.olen = s.llen ∧ s.inputLength % 16 = 0 ∧ s.keyLoaded = true
  written : s.outWritten (16 * s.blkIdx.toNat)

/-- The invariant of the machine: the buffers keep their canonical form inside CAP, a key word not loaded holds 0
(R30, R31, R111), and each phase has the registers its rules leave. -/
structure Inv (s : State) : Prop where
  inWf : s.inBuf.wf
  inInside : s.inBuf.inside s.cap
  outWf : s.outBuf.wf
  outInside : s.outBuf.inside s.cap
  unloadedKey : ∀ i : Fin 8, s.keyw.getLsbD i.val = false → s.key[i.val] = 0#32
  idle : s.phase = .idle → IdleInv s
  check : s.phase = .check → CheckInv s
  run : s.phase = .run → RunInv s

/-- A run of `n` steps is safe: it ends in a next state, with no fault and no refusal on the way. -/
def SafeRun (n : Nat) (s : State) : Prop := ∃ t, Runs n s t

/-- The turns of the engine among the inputs to come. -/
def engineTurns (evs : List Event) : Nat := evs.countP (· == .engine)

/-- No input is a reset. -/
def NoReset (evs : List Event) : Prop := ∀ e ∈ evs, ∀ q, e ≠ .reset q

end Sys2Proof.Machine
end

