-- ==== Sys2Proof/Certificates/Slice0/Obligations.lean ====
section
/-! DEFINITION. The statements for the provers, each a `Prop` that cites the rules of spec/ it says. -/

open Sys2Proof Sys2Proof.Machine

/-! ## Command words -/

/-- R71, R73: when the next input is the host's write of a word to CTRL, and the word's bytes decode to `i`, then
`i` is well formed and the step is `exec i`, with the input taken off the list. The same for the host's table words.
`pending` and `withFetchWord` are the model's (log entry 2); `exec` is the host's write of the word (log entry 1). -/
def Obligations.StepRunsTheCommandWordWritten : Prop :=
  (∀ (s : State) (w : Word) (i : Instr) (rest : List Event),
    s.pending = .bus (ctrlWrite w) :: rest → decodeBytes (bytesOfWord w) = .ok i →
      i.wellFormed = true ∧ step s = exec i { s with pending := rest }) ∧
  (∀ (s : State) (n : Nat) (i : Instr),
    decodeTableWord 32 n = some i → step (s.withFetchWord 32 n) = exec i s)

/-- R73, R79: the words the tables write out decode to the commands they stand for. -/
def Obligations.WrittenOutWordsDecode : Prop :=
  decodeWord 0x00000100#32 = .encode false false ∧ decodeWord 0x00000101#32 = .decode false false ∧
  decodeWord 0x00000111#32 = .decode true false ∧ decodeWord 0x00000121#32 = .decode false true ∧
  decodeWord 0x00000131#32 = .decode true true ∧ decodeWord 0x00000102#32 = .encrypt false false ∧
  decodeWord 0x00000103#32 = .decrypt false false ∧ decodeWord 0x00000107#32 = .reservedOp 7#3 false false ∧
  decodeWord 0xFFFFFEFF#32 = .cfg 7#3 true true

/-- R69, R73: decoding an encoded well-formed instruction gives it back; every word decodes to a well-formed
instruction whose encoding is the word with its reserved bits cleared. -/
def Obligations.DecodeAndEncodeAgree : Prop :=
  (∀ i : Instr, i.wellFormed = true → decodeWord (encode i) = i) ∧
  (∀ w : Word, (decodeWord w).wellFormed = true ∧ encode (decodeWord w) = w &&& 0x00000137#32)

/-- R73: a word decodes to the instruction of the one row of the opcode map it matches, by the masks and matches of
the table; every word matches exactly one of the six rows. -/
def Obligations.OpcodeRowsPartitionTheWords : Prop :=
  ∀ w : Word,
    ((decodeWord w).mnemonic = "CFG" ↔ w &&& 0x00000100#32 = 0x00000000#32) ∧
    ((decodeWord w).mnemonic = "ENCODE" ↔ w &&& 0x00000107#32 = 0x00000100#32) ∧
    ((decodeWord w).mnemonic = "DECODE" ↔ w &&& 0x00000107#32 = 0x00000101#32) ∧
    ((decodeWord w).mnemonic = "ENCRYPT" ↔ w &&& 0x00000107#32 = 0x00000102#32) ∧
    ((decodeWord w).mnemonic = "DECRYPT" ↔ w &&& 0x00000107#32 = 0x00000103#32) ∧
    ((decodeWord w).mnemonic = "RESERVED_OP" ↔ w &&& 0x00000104#32 = 0x00000104#32) ∧
    (opcodeMap.filter fun r => r.hits w).map OpcodeRow.mnemonic = [(decodeWord w).mnemonic]

/-- R24: two words that agree in OP, PAD_ERR, PAD_CHK and START make the same step, and a read of CTRL returns 0 in
every reserved bit (and in START, R23). `pending` and `resp` are the model's fields (log entries 2 and 5). -/
def Obligations.ReservedWordBitsSelectNothing : Prop :=
  (∀ (s : State) (w v : Word) (rest : List Event), w &&& 0x00000137#32 = v &&& 0x00000137#32 →
    step { s with pending := .bus (ctrlWrite w) :: rest } = step { s with pending := .bus (ctrlWrite v) :: rest }) ∧
  (∀ (s : State) (v : Word) (rest : List Event), ∃ w,
    step { s with pending := .bus ⟨.rd, 4, 0x004#26, v⟩ :: rest } =
      .next { s with pending := rest, resp := some ⟨.okay, some w⟩ } ∧ w &&& 0xFFFFFFC8#32 = 0#32)

/-! ## What a command word does to an idle and to a busy engine -/

/-- R72, R86: CFG on an idle engine stores the three fields, gets OKAY, and changes nothing else; so does every CTRL
write with START = 0, from the fields of its word. `pending` and `resp` are the model's fields (log entries 2 and 5).
`exec` is the host's write of the word (log entry 1). -/
def Obligations.CfgStoresItsThreeFields : Prop :=
  (∀ (s : State) (op : BitVec 3) (perr pchk : Bool), s.phase = .idle →
    exec (.cfg op perr pchk) s =
      .next { s with ctrlOp := op, ctrlPadErr := perr, ctrlPadChk := pchk, resp := some ⟨.okay, none⟩ }) ∧
  (∀ (s : State) (w : Word) (rest : List Event), s.phase = .idle → w.getLsbD 8 = false →
    step { s with pending := .bus ⟨.wr, 4, 0x004#26, w⟩ :: rest } = .next { s with
      ctrlOp := w.extractLsb' 0 3, ctrlPadErr := w.getLsbD 4, ctrlPadChk := w.getLsbD 5
      pending := rest, resp := some ⟨.okay, none⟩ })

/-- R82: each of the five commands makes the START transition on an idle engine; so does every CTRL write with
START = 1, from the fields of its word. `pending` and `resp` are the model's fields (log entries 2 and 5). `exec` is
the host's write of the word (log entry 1). -/
def Obligations.CommandsMakeTheStartTransition : Prop :=
  (∀ (s : State) (i : Instr) (op : BitVec 3) (perr pchk : Bool), s.phase = .idle →
    ((i = .encode perr pchk ∧ op = 0#3) ∨ (i = .decode perr pchk ∧ op = 1#3) ∨
      (i = .encrypt perr pchk ∧ op = 2#3) ∨ (i = .decrypt perr pchk ∧ op = 3#3) ∨
      (i = .reservedOp op perr pchk ∧ 4 ≤ op.toNat)) →
    exec i s = .next { s with
      ctrlOp := op, ctrlPadErr := perr, ctrlPadChk := pchk
      lop := op, lperr := perr, lpchk := pchk, llen := s.inLen
      nblk := 0#32, olen := 0#32, padb := 0#8
      done := false, err := .none, nostrip := false, outLen := 0#32, blkIdx := 0#32
      phase := .check, resp := some ⟨.okay, none⟩ }) ∧
  (∀ (s : State) (w : Word) (rest : List Event), s.phase = .idle → w.getLsbD 8 = true →
    step { s with pending := .bus ⟨.wr, 4, 0x004#26, w⟩ :: rest } = .next { s with
      ctrlOp := w.extractLsb' 0 3, ctrlPadErr := w.getLsbD 4, ctrlPadChk := w.getLsbD 5
      lop := w.extractLsb' 0 3, lperr := w.getLsbD 4, lpchk := w.getLsbD 5, llen := s.inLen
      nblk := 0#32, olen := 0#32, padb := 0#8
      done := false, err := .none, nostrip := false, outLen := 0#32, blkIdx := 0#32
      phase := .check, pending := rest, resp := some ⟨.okay, none⟩ })

/-- R47, R71: while BUSY = 1 no command word does anything but get ERROR. `resp` is the model's field (log entry 5).
`exec` is the host's write of the word (log entry 1). -/
def Obligations.BusyEngineTurnsCommandWordsAway : Prop :=
  ∀ (s : State) (i : Instr), s.phase ≠ .idle → exec i s = .next { s with resp := some ⟨.error, none⟩ }

/-- R62: of two command words written one after the other, the first starts its command and the second gets ERROR
and changes nothing. `resp` is the model's field (log entry 5). `exec` is the host's write of the word (log entry
1). -/
def Obligations.FirstOfTwoStartsWins : Prop :=
  ∀ (s : State) (i j : Instr), s.phase = .idle → i.wellFormed = true → (∀ op pe pc, i ≠ .cfg op pe pc) →
    ∃ t, exec i s = .next t ∧ t.phase = .check ∧ t.resp = some ⟨.okay, none⟩ ∧
      exec j t = .next { t with resp := some ⟨.error, none⟩ }

/-! ## ENCODE and DECODE -/

/-- R93: which words are ENCODE, and ENCODE on an idle engine. For `L < CAP` it takes `1 + (L+p)/16` engine steps
and leaves `X ++ rep(p, p)` in OUT_BUF; for `L >= CAP` it finishes with LENGTH in one engine step and writes no
output. `pending` is the model's field (log entry 2). A run with no input left is the engine's turns (log entry 3).
`exec` is the host's write of the word (log entry 1). -/
def Obligations.EncodePadsTheInputOrReportsLength : Prop :=
  (∀ w : Word, w &&& 0x00000107#32 = 0x00000100#32 → decodeWord w = .encode (w.getLsbD 4) (w.getLsbD 5)) ∧
  ∀ (s : State) (perr pchk : Bool), s.phase = .idle → s.pending = [] →
    let len := s.inLen.toNat
    let p := 16 - len % 16
    (len < s.cap →
      ∃ s1 t, exec (.encode perr pchk) s = .next s1 ∧ Runs (1 + (len + p) / 16) s1 t ∧
        Ended .none false (len + p) ((len + p) / 16) t ∧
        (∀ k, k < len → t.outBuf.read k = some (s.inByte k)) ∧
        (∀ k, len ≤ k → k < len + p → t.outBuf.read k = some (BitVec.ofNat 8 p)) ∧
        (∀ k, len + p ≤ k → t.outBuf.read k = s.outBuf.read k) ∧
        InputsKept s t ∧ Latched 0#3 perr pchk s t ∧ KeyKept s t) ∧
    (s.cap ≤ len →
      ∃ s1 t, exec (.encode perr pchk) s = .next s1 ∧ Runs 1 s1 t ∧ Ended .length false 0 0 t ∧
        (∀ k, t.outBuf.read k = s.outBuf.read k) ∧
        InputsKept s t ∧ Latched 0#3 perr pchk s t ∧ KeyKept s t)

/-- R96, R97: DECODE of a non-empty input with a valid tail strips the last `p` bytes. `pending` is the model's
field (log entry 2). A run with no input left is the engine's turns (log entry 3). `exec` is the host's write of the
word (log entry 1). -/
def Obligations.DecodeStripsAValidTail : Prop :=
  ∀ (s : State) (perr pchk : Bool), s.phase = .idle → s.pending = [] →
    let len := s.inLen.toNat
    let p := (s.inByte (len - 1)).toNat
    let n := len - p
    0 < len → len ≤ s.cap → 1 ≤ p → p ≤ 16 → p ≤ len →
    (pchk = true → ∀ k, len - p ≤ k → k < len → s.inByte k = s.inByte (len - 1)) →
    ∃ s1 t, exec (.decode perr pchk) s = .next s1 ∧ Runs (1 + (n + 15) / 16) s1 t ∧
      Ended .none false n ((n + 15) / 16) t ∧
      (∀ k, k < n → t.outBuf.read k = some (s.inByte k)) ∧
      (∀ k, n ≤ k → k < 16 * ((n + 15) / 16) → t.outBuf.read k = some 0#8) ∧
      (∀ k, 16 * ((n + 15) / 16) ≤ k → t.outBuf.read k = s.outBuf.read k) ∧
      InputsKept s t ∧ Latched 1#3 perr pchk s t ∧ KeyKept s t

/-- R97, R28: with PAD_ERR = 0, DECODE of an invalid tail passes the whole input through and sets NOSTRIP. `pending`
is the model's field (log entry 2). A run with no input left is the engine's turns (log entry 3). `exec` is the
host's write of the word (log entry 1). -/
def Obligations.DecodePassesAnInvalidTailThrough : Prop :=
  ∀ (s : State) (pchk : Bool), s.phase = .idle → s.pending = [] →
    let len := s.inLen.toNat
    let p := (s.inByte (len - 1)).toNat
    0 < len → len ≤ s.cap →
    ¬ (1 ≤ p ∧ p ≤ 16 ∧ p ≤ len ∧
      (pchk = true → ∀ k, len - p ≤ k → k < len → s.inByte k = s.inByte (len - 1))) →
    ∃ s1 t, exec (.decode false pchk) s = .next s1 ∧ Runs (1 + (len + 15) / 16) s1 t ∧
      Ended .none true len ((len + 15) / 16) t ∧
      (∀ k, k < len → t.outBuf.read k = some (s.inByte k)) ∧
      (∀ k, len ≤ k → k < 16 * ((len + 15) / 16) → t.outBuf.read k = some 0#8) ∧
      (∀ k, 16 * ((len + 15) / 16) ≤ k → t.outBuf.read k = s.outBuf.read k) ∧
      InputsKept s t ∧ Latched 1#3 false pchk s t ∧ KeyKept s t

/-- R119: with PAD_ERR = 1, DECODE of an invalid tail finishes with PADDING and NOSTRIP in one engine step, and
writes no output. `pending` is the model's field (log entry 2). A run with no input left is the engine's turns (log
entry 3). `exec` is the host's write of the word (log entry 1). -/
def Obligations.DecodeReportsAnInvalidTail : Prop :=
  ∀ (s : State) (pchk : Bool), s.phase = .idle → s.pending = [] →
    let len := s.inLen.toNat
    let p := (s.inByte (len - 1)).toNat
    0 < len → len ≤ s.cap →
    ¬ (1 ≤ p ∧ p ≤ 16 ∧ p ≤ len ∧
      (pchk = true → ∀ k, len - p ≤ k → k < len → s.inByte k = s.inByte (len - 1))) →
    ∃ s1 t, exec (.decode true pchk) s = .next s1 ∧ Runs 1 s1 t ∧ Ended .padding true 0 0 t ∧
      (∀ k, t.outBuf.read k = s.outBuf.read k) ∧ InputsKept s t ∧ Latched 1#3 true pchk s t ∧ KeyKept s t

/-- R97, R120: DECODE of an empty input ends at once with empty output and no error, in every mode; DECODE of more
than CAP bytes ends at once with LENGTH and judges no tail. `pending` is the model's field (log entry 2). A run with
no input left is the engine's turns (log entry 3). `exec` is the host's write of the word (log entry 1). -/
def Obligations.DecodeOfEmptyAndOfTooLongInput : Prop :=
  ∀ (s : State) (perr pchk : Bool), s.phase = .idle → s.pending = [] →
    (s.inLen.toNat = 0 ∨ s.cap < s.inLen.toNat) →
    ∃ s1 t, exec (.decode perr pchk) s = .next s1 ∧ Runs 1 s1 t ∧
      Ended (if s.inLen.toNat = 0 then .none else .length) false 0 0 t ∧
      (∀ k, t.outBuf.read k = s.outBuf.read k) ∧ InputsKept s t ∧ Latched 1#3 perr pchk s t ∧ KeyKept s t

/-! ## ENCRYPT, DECRYPT and RESERVED_OP -/

/-- R107, R125: ENCRYPT on an idle engine. A block-aligned input that fits, with a loaded key, gives `Enc(K, chunk)`
for every chunk; any other input finishes in one engine step with the first of LENGTH, ALIGNMENT, KEY_LENGTH that
applies and writes nothing. The key is cleared either way. `pending` is the model's field (log entry 2). A run with
no input left is the engine's turns (log entry 3). `exec` is the host's write of the word (log entry 1). -/
def Obligations.EncryptTransformsEachChunkOrReports : Prop :=
  ∀ (s : State) (perr pchk : Bool), s.phase = .idle → s.pending = [] →
    let len := s.inLen.toNat
    (len ≤ s.cap ∧ len % 16 = 0 ∧ s.keyw = 0xFF#8 →
      ∃ s1 t, exec (.encrypt perr pchk) s = .next s1 ∧ Runs (1 + len / 16) s1 t ∧
        Ended .none false len (len / 16) t ∧
        (∀ i, i < len / 16 → ∀ j (h : j < 16),
          t.outBuf.read (16 * i + j) = some (Config.enc s.keyBytes (s.inBlock i))[j]) ∧
        (∀ k, len ≤ k → t.outBuf.read k = s.outBuf.read k) ∧
        InputsKept s t ∧ Latched 2#3 perr pchk s t ∧ KeyCleared t) ∧
    (¬ (len ≤ s.cap ∧ len % 16 = 0 ∧ s.keyw = 0xFF#8) →
      ∃ s1 t, exec (.encrypt perr pchk) s = .next s1 ∧ Runs 1 s1 t ∧
        Ended (if s.cap < len then .length else if len % 16 ≠ 0 then .alignment else .keyLength) false 0 0 t ∧
        (∀ k, t.outBuf.read k = s.outBuf.read k) ∧
        InputsKept s t ∧ Latched 2#3 perr pchk s t ∧ KeyCleared t)

/-- R108, R125: DECRYPT on an idle engine. A block-aligned input that fits, with a loaded key, gives `Dec(K, chunk)`
for every chunk; any other input finishes in one engine step with the first of LENGTH, ALIGNMENT, KEY_LENGTH that
applies and writes nothing. The key is cleared either way. `pending` is the model's field (log entry 2). A run with
no input left is the engine's turns (log entry 3). `exec` is the host's write of the word (log entry 1). -/
def Obligations.DecryptTransformsEachChunkOrReports : Prop :=
  ∀ (s : State) (perr pchk : Bool), s.phase = .idle → s.pending = [] →
    let len := s.inLen.toNat
    (len ≤ s.cap ∧ len % 16 = 0 ∧ s.keyw = 0xFF#8 →
      ∃ s1 t, exec (.decrypt perr pchk) s = .next s1 ∧ Runs (1 + len / 16) s1 t ∧
        Ended .none false len (len / 16) t ∧
        (∀ i, i < len / 16 → ∀ j (h : j < 16),
          t.outBuf.read (16 * i + j) = some (Config.dec s.keyBytes (s.inBlock i))[j]) ∧
        (∀ k, len ≤ k → t.outBuf.read k = s.outBuf.read k) ∧
        InputsKept s t ∧ Latched 3#3 perr pchk s t ∧ KeyCleared t) ∧
    (¬ (len ≤ s.cap ∧ len % 16 = 0 ∧ s.keyw = 0xFF#8) →
      ∃ s1 t, exec (.decrypt perr pchk) s = .next s1 ∧ Runs 1 s1 t ∧
        Ended (if s.cap < len then .length else if len % 16 ≠ 0 then .alignment else .keyLength) false 0 0 t ∧
        (∀ k, t.outBuf.read k = s.outBuf.read k) ∧
        InputsKept s t ∧ Latched 3#3 perr pchk s t ∧ KeyCleared t)

/-- R87: which words are RESERVED_OP; a reserved OP starts like any command and finishes with BAD_OP in one engine
step, whatever the length and the key; the key stays. `pending` is the model's field (log entry 2). A run with no
input left is the engine's turns (log entry 3). `exec` is the host's write of the word (log entry 1). -/
def Obligations.ReservedOpReportsBadOp : Prop :=
  (∀ w : Word, w &&& 0x00000104#32 = 0x00000104#32 →
    decodeWord w = .reservedOp (w.extractLsb' 0 3) (w.getLsbD 4) (w.getLsbD 5) ∧ 4 ≤ (w.extractLsb' 0 3).toNat) ∧
  ∀ (s : State) (op : BitVec 3) (perr pchk : Bool), s.phase = .idle → s.pending = [] → 4 ≤ op.toNat →
    ∃ s1 t, exec (.reservedOp op perr pchk) s = .next s1 ∧ Runs 1 s1 t ∧ Ended .badOp false 0 0 t ∧
      (∀ k, t.outBuf.read k = s.outBuf.read k) ∧ InputsKept s t ∧ Latched op perr pchk s t ∧ KeyKept s t

/-! ## Laws of the commands -/

/-- R60, R88, R97, R107 to R109: from the state after any START, with no other input coming, the engine takes
exactly the number of steps R88 gives and ends with the report that the source's functions give for the latched
inputs; before that it is busy. `pending` is the model's field (log entry 2). A run with no input left is the
engine's turns (log entry 3). -/
def Obligations.EveryCommandReportsTheSourceFunction : Prop :=
  ∀ s : State, s.phase = .check → CheckInv s → s.pending = [] →
    ∃ t, Runs s.dueReport.engineSteps s t ∧ t.phase = .idle ∧ t.done = true ∧ t.report = s.dueReport ∧
      ∀ n, n < s.dueReport.engineSteps → ∃ u, Runs n s u ∧ u.busy = true

/-- R58, R60, R147: however host transactions are interleaved with the turns of a running engine, up to and with the
turn that may finish, they change nothing but the response: the state is the one the engine's turns alone reach.
`pending` and `resp` are the model's fields (log entries 2 and 5). A run with no input left is the engine's turns
(log entry 3). -/
def Obligations.InterleavedTransactionsDoNotDisturbACommand : Prop :=
  ∀ (s u : State) (evs : List Event), NoReset evs →
    (∀ n, n ≤ engineTurns evs → ∃ v, Runs n { s with pending := [] } v ∧ v.busy = true) →
    Runs (engineTurns evs + 1) { s with pending := [] } u →
    ∃ t, Runs (evs.length + 1) { s with pending := evs ++ [.engine] } t ∧ t = { u with resp := t.resp }

/-- R102: after a successful ENCODE of `L` bytes OUT_LEN is a multiple of 16, at least 16, and 1 to 16 more than
`L`. A run with no input left is the engine's turns (log entry 3). -/
def Obligations.EncodeGrowsByOneToSixteenToAMultiple : Prop :=
  ∀ (s t : State) (perr pchk : Bool), s.phase = .idle → s.inLen.toNat < s.cap →
    CommandLeadsTo s (encode (.encode perr pchk)) t →
    t.outLen.toNat % 16 = 0 ∧ 16 ≤ t.outLen.toNat ∧ s.inLen.toNat + 1 ≤ t.outLen.toNat ∧
      t.outLen.toNat ≤ s.inLen.toNat + 16

/-- R104: a successful DECODE gives a prefix of its input, at most 16 bytes shorter, the whole input when NOSTRIP is
set; with PAD_ERR = 0 the whole input only when NOSTRIP is set or the input is empty. A run with no input left is
the engine's turns (log entry 3). -/
def Obligations.DecodeGivesAPrefixOfItsInput : Prop :=
  ∀ (s t : State) (perr pchk : Bool), s.phase = .idle →
    CommandLeadsTo s (encode (.decode perr pchk)) t → t.err = .none →
    t.outLen.toNat ≤ s.inLen.toNat ∧ s.inLen.toNat ≤ t.outLen.toNat + 16 ∧
      (t.nostrip = true → t.outLen = s.inLen) ∧
      (perr = false → (t.outLen = s.inLen ↔ t.nostrip = true ∨ s.inLen = 0#32)) ∧
      ∀ k, k < t.outLen.toNat → t.maskedOutByte k = s.inByte k

/-- R112: a successful ENCRYPT or DECRYPT keeps the length. A run with no input left is the engine's turns (log
entry 3). -/
def Obligations.EcbKeepsTheLength : Prop :=
  ∀ (s t : State) (i : Instr) (perr pchk : Bool), s.phase = .idle →
    (i = .encrypt perr pchk ∨ i = .decrypt perr pchk) → CommandLeadsTo s (encode i) t → t.err = .none →
    t.outLen = s.inLen

/-- R113: in two successful ENCRYPT commands under the same key, equal input chunks give equal output chunks,
whatever their places. A run with no input left is the engine's turns (log entry 3). -/
def Obligations.EqualChunksEncryptEqually : Prop :=
  ∀ (s t s' t' : State) (pe pc pe' pc' : Bool) (i i' : Nat), s.phase = .idle → s'.phase = .idle →
    CommandLeadsTo s (encode (.encrypt pe pc)) t → t.err = .none →
    CommandLeadsTo s' (encode (.encrypt pe' pc')) t' → t'.err = .none →
    s.key = s'.key → 16 * i < t.outLen.toNat → 16 * i' < t'.outLen.toNat →
    (∀ j, j < 16 → s.inByte (16 * i + j) = s'.inByte (16 * i' + j)) →
    ∀ j, j < 16 → t.maskedOutByte (16 * i + j) = t'.maskedOutByte (16 * i' + j)

/-- R103: DECODE of what ENCODE left, in any mode, succeeds, strips, and gives back the input. A run with no input
left is the engine's turns (log entry 3). -/
def Obligations.DecodeUndoesEncode : Prop :=
  ∀ (s t s' t' : State) (pe pc pe' pc' : Bool), s.phase = .idle → s.inLen.toNat < s.cap →
    CommandLeadsTo s (encode (.encode pe pc)) t → CopiedOut t s' →
    CommandLeadsTo s' (encode (.decode pe' pc')) t' →
    t'.err = .none ∧ t'.nostrip = false ∧ t'.outLen = s.inLen ∧
      ∀ k, k < s.inLen.toNat → t'.maskedOutByte k = s.inByte k

/-- R114: ENCODE, ENCRYPT, DECRYPT, DECODE, each fed with the output before it and the two ciphers with the same
loaded key, give back the input, and every command succeeds. A run with no input left is the engine's turns (log
entry 3). -/
def Obligations.FullRoundTripGivesTheInputBack : Prop :=
  ∀ (s0 t0 s1 t1 s2 t2 s3 t3 : State) (pe0 pc0 pe1 pc1 pe2 pc2 pe3 pc3 : Bool), s0.phase = .idle →
    s0.inLen.toNat < s0.cap → CommandLeadsTo s0 (encode (.encode pe0 pc0)) t0 →
    CopiedOut t0 s1 → s1.keyw = 0xFF#8 → CommandLeadsTo s1 (encode (.encrypt pe1 pc1)) t1 →
    CopiedOut t1 s2 → s2.keyw = 0xFF#8 → s2.key = s1.key → CommandLeadsTo s2 (encode (.decrypt pe2 pc2)) t2 →
    CopiedOut t2 s3 → CommandLeadsTo s3 (encode (.decode pe3 pc3)) t3 →
    t0.err = .none ∧ t1.err = .none ∧ t2.err = .none ∧ t3.err = .none ∧ t3.outLen = s0.inLen ∧
      ∀ k, k < s0.inLen.toNat → t3.maskedOutByte k = s0.inByte k

/-- R147, R81: a busy engine left alone is idle with DONE after at most `1 + CAP/16` turns. `pending` is the model's
field (log entry 2). A run with no input left is the engine's turns (log entry 3). -/
def Obligations.EveryCommandFinishes : Prop :=
  ∀ s : State, Inv s → s.busy = true → s.pending = [] →
    ∃ n t, n ≤ 1 + s.cap / 16 ∧ Runs n s t ∧ t.phase = .idle ∧ t.done = true

/-! ## The parts of the command cycle -/

/-- R92: the pad length is `16 - (L mod 16)`, always 1 to 16, and 16 when `L mod 16 = 0`; it brings the length to a
multiple of 16. -/
def Obligations.PadLengthIsOneToSixteen : Prop :=
  ∀ len : Nat, padlen len = 16 - len % 16 ∧ 1 ≤ padlen len ∧ padlen len ≤ 16 ∧ (len + padlen len) % 16 = 0 ∧
    (padlen len = 16 ↔ len % 16 = 0)

/-- R125: the CHECK step reports the first that applies of BAD_OP, LENGTH, ALIGNMENT, KEY_LENGTH, PADDING, and no
error when none applies. `pending` is the model's field (log entry 2). -/
def Obligations.CheckReportsTheFirstErrorThatApplies : Prop :=
  ∀ s : State, s.phase = .check → s.err = .none → s.pending = [] →
    let len := s.llen.toNat
    ∃ t, step s = .next t ∧ (t.err ≠ .none → t.phase = .idle ∧ t.done = true) ∧
      t.err =
        if 4 ≤ s.lop.toNat then .badOp
        else if (s.lop = 0#3 ∧ s.cap ≤ len) ∨ s.cap < len then .length
        else if (s.lop = 2#3 ∨ s.lop = 3#3) ∧ len % 16 ≠ 0 then .alignment
        else if (s.lop = 2#3 ∨ s.lop = 3#3) ∧ s.keyw ≠ 0xFF#8 then .keyLength
        else if s.lop = 1#3 ∧ s.lperr = true ∧ 0 < len ∧ tailValid s.inByte len (s.inByte (len - 1)) s.lpchk = false
          then .padding
        else .none

/-- R96: when a tail is valid. -/
def Obligations.TailIsValidExactlyWhen : Prop :=
  ∀ (f : Nat → Byte) (len : Nat) (p : Byte) (chk : Bool),
    tailValid f len p chk = true ↔
      1 ≤ p.toNat ∧ p.toNat ≤ 16 ∧ p.toNat ≤ len ∧
        (chk = false ∨ ∀ k, len - p.toNat ≤ k → k < len → f k = p)

/-- R85, R111: what `finish` writes, and that it writes nothing else; with a code other than 0 OUT_LEN keeps its
value, which is the 0 that START set. -/
def Obligations.FinishRecordsTheCodeAndClearsTheKey : Prop :=
  ∀ (s : State) (code : ErrCode),
    s.finish code = { s with
      outLen := if code = .none then s.olen else s.outLen
      err := code, done := true, phase := .idle
      key := if s.lop = 2#3 ∨ s.lop = 3#3 then Vector.replicate 8 0#32 else s.key
      keyw := if s.lop = 2#3 ∨ s.lop = 3#3 then 0x00#8 else s.keyw }

/-- R84: a RUN step in R84's range writes chunk BLK_IDX at `16 * BLK_IDX`, moves BLK_IDX by 1, and finishes with
code 0 exactly when that was the last chunk. A chunk is a function of IN_BUF, `KeyBytes()` and the latched OP and
scalars alone. `pending` is the model's field (log entry 2). -/
def Obligations.RunStepWritesOneChunk : Prop :=
  (∀ s : State, s.phase = .run → s.pending = [] → s.lop.toNat < 4 → s.blkIdx.toNat < s.nblk.toNat →
    16 * s.nblk.toNat ≤ s.cap →
    ∃ t b, step s = .next t ∧ s.chunk s.blkIdx.toNat = some b ∧ t.blkIdx = s.blkIdx + 1#32 ∧
      (∀ j (h : j < 16), t.outBuf.read (16 * s.blkIdx.toNat + j) = some b[j]) ∧
      (∀ k, k < 16 * s.blkIdx.toNat ∨ 16 * s.blkIdx.toNat + 16 ≤ k → t.outBuf.read k = s.outBuf.read k) ∧
      t = if s.blkIdx.toNat + 1 = s.nblk.toNat then
          State.finish { s with outBuf := t.outBuf, blkIdx := t.blkIdx } .none
        else { s with outBuf := t.outBuf, blkIdx := t.blkIdx }) ∧
  (∀ (s u : State) (i : Nat), u.lop = s.lop → u.llen = s.llen → u.olen = s.olen → u.padb = s.padb →
    u.keyBytes = s.keyBytes → (∀ k, u.inByte k = s.inByte k) → u.chunk i = s.chunk i)

/-- R95, R99, R110, R31, R57: the lanes of the chunk of each operation, of the block it reads and of the key. -/
def Obligations.ChunkLanes : Prop :=
  ∀ (s : State) (i j : Nat) (h : j < 16),
    (s.lop = 0#3 → ∃ blk, s.chunk i = some blk ∧
      blk[j] = if 16 * i + j < s.llen.toNat then s.inByte (16 * i + j) else s.padb) ∧
    (s.lop = 1#3 → ∃ blk, s.chunk i = some blk ∧
      blk[j] = if 16 * i + j < s.olen.toNat then s.inByte (16 * i + j) else 0x00#8) ∧
    (s.lop = 2#3 → s.chunk i = some (Config.enc s.keyBytes (s.inBlock i))) ∧
    (s.lop = 3#3 → s.chunk i = some (Config.dec s.keyBytes (s.inBlock i))) ∧
    (s.inBlock i)[j] = s.inByte (16 * i + j) ∧
    (∀ (a b : Nat) (ha : a < 8) (hb : b < 4), s.keyBytes[4 * a + b] = s.key[a].extractLsb' (8 * b) 8)

/-- R56: an engine turn never writes IN_BUF, IN_LEN or CTRL, and writes the key only to clear it at the finish of
ENCRYPT or DECRYPT. `resp` is the model's field (log entry 5). -/
def Obligations.EngineTurnsWriteOnlyTheirOwn : Prop :=
  ∀ s t : State, engineStep s = .next t →
    t.inBuf = s.inBuf ∧ t.inLen = s.inLen ∧ t.ctrlOp = s.ctrlOp ∧ t.ctrlPadErr = s.ctrlPadErr ∧
      t.ctrlPadChk = s.ctrlPadChk ∧ t.capBlocks = s.capBlocks ∧ t.resp = s.resp ∧
      ((t.key = s.key ∧ t.keyw = s.keyw) ∨ (s.ecbLatched = true ∧ s.busy = true ∧ t.phase = .idle ∧ KeyCleared t))

/-- R59, R27, R81: an idle engine keeps its result through every input but a CTRL write with START = 1 and reset.
`pending` is the model's field (log entry 2). -/
def Obligations.ResultsStayUntilTheNextStart : Prop :=
  ∀ (s t : State) (e : Event) (rest : List Event), s.phase = .idle →
    (∀ q, e ≠ .reset q) → (∀ w, w.getLsbD 8 = true → e ≠ .bus (ctrlWrite w)) →
    step { s with pending := e :: rest } = .next t →
    t.phase = .idle ∧ t.done = s.done ∧ t.err = s.err ∧ t.nostrip = s.nostrip ∧ t.outLen = s.outLen ∧
      t.blkIdx = s.blkIdx ∧ t.outBuf = s.outBuf ∧ (∀ k, t.maskedOutByte k = s.maskedOutByte k)

/-! ## The bus -/

/-- R44, R47: which transactions get OKAY; every transaction gets a response. `pending` and `resp` are the model's
fields (log entries 2 and 5). -/
def Obligations.TransactionsGetOkayExactlyByTheTable : Prop :=
  ∀ (s : State) (q : Request) (rest : List Event),
    let off := q.off.toNat
    ∃ t r, step { s with pending := .bus q :: rest } = .next t ∧ t.resp = some r ∧
      (r.resp = .okay ↔
        (s.busy = true → q.dir = .rd ∧ off < 0x100) ∧
        ((q.size = 4 ∧ off % 4 = 0 ∧ q.dir = .rd ∧ off < 0x01C) ∨
         (q.size = 4 ∧ off % 4 = 0 ∧ q.dir = .wr ∧ (off = 0x004 ∨ off = 0x00C ∨ (0x020 ≤ off ∧ off < 0x040))) ∨
         ((q.size = 1 ∨ (q.size = 4 ∧ off % 4 = 0)) ∧ 0x1000000 ≤ off ∧ off < 0x1000000 + s.cap) ∨
         (q.dir = .rd ∧ (q.size = 1 ∨ (q.size = 4 ∧ off % 4 = 0)) ∧ 0x2000000 ≤ off ∧ off < 0x2000000 + s.cap)))

/-- R46, R122: a transaction that gets ERROR changes nothing but the response, and a read of it returns 0. `pending`
and `resp` are the model's fields (log entries 2 and 5). -/
def Obligations.BusErrorsChangeNothing : Prop :=
  ∀ (s t : State) (q : Request) (rest : List Event) (d : Option Word),
    step { s with pending := .bus q :: rest } = .next t → t.resp = some ⟨.error, d⟩ →
    t = { s with pending := rest, resp := some ⟨.error, d⟩ } ∧
      d = match q.dir with | .rd => some 0#32 | .wr => none

/-- R48, R55: no read anywhere in the window changes anything but the response, idle or busy. `pending` and `resp`
are the model's fields (log entries 2 and 5). -/
def Obligations.ReadsHaveNoSideEffect : Prop :=
  ∀ (s : State) (q : Request) (rest : List Event), q.dir = .rd →
    ∃ r w, step { s with pending := .bus q :: rest } = .next { s with pending := rest, resp := some ⟨r, some w⟩ }

/-- R47: while BUSY = 1 no transaction changes anything but the response; aligned word reads of the readable
registers get OKAY with the register's value, everything else gets ERROR. `pending` and `resp` are the model's
fields (log entries 2 and 5). -/
def Obligations.BusyTransactionsChangeOnlyTheResponse : Prop :=
  ∀ (s : State) (q : Request) (rest : List Event), s.busy = true →
    ∃ r, step { s with pending := .bus q :: rest } = .next { s with pending := rest, resp := some r } ∧
      (r.resp = .okay ↔ q.dir = .rd ∧ q.size = 4 ∧ q.off.toNat % 4 = 0 ∧ q.off.toNat ≤ 0x018) ∧
      (r.resp = .okay → ∀ g, regAt (q.off.toNat / 4) = some g → r.rdata = s.regValue g)

/-- R18, R19, R25, R32 to R34, R36, R48: what a word read of each readable register returns, idle or busy. `pending`
and `resp` are the model's fields (log entries 2 and 5). -/
def Obligations.RegisterReadsReturnTheirValues : Prop :=
  ∀ (s : State) (rest : List Event) (off : Offset) (v w : Word),
    ((off = 0x000#26 ∧ w = 0x504B4337#32) ∨
     (off = 0x004#26 ∧ w.toNat = 32 * s.ctrlPadChk.toNat + 16 * s.ctrlPadErr.toNat + s.ctrlOp.toNat) ∨
     (off = 0x008#26 ∧ w.toNat = 65536 * s.keyw.toNat + 16 * s.err.code.toNat + 4 * s.nostrip.toNat +
        2 * s.done.toNat + (if s.phase = .idle then 0 else 1)) ∨
     (off = 0x00C#26 ∧ w = s.inLen) ∨ (off = 0x010#26 ∧ w = s.outLen) ∨ (off = 0x014#26 ∧ w = s.blkIdx) ∨
     (off = 0x018#26 ∧ w.toNat = s.cap)) →
    step { s with pending := .bus ⟨.rd, 4, off, v⟩ :: rest } =
      .next { s with pending := rest, resp := some ⟨.okay, some w⟩ }

/-- R32, R49: a word write of IN_LEN while idle stores all 32 bits and nothing else. `pending` and `resp` are the
model's fields (log entries 2 and 5). -/
def Obligations.InLenWriteStoresTheWord : Prop :=
  ∀ (s : State) (w : Word) (rest : List Event), s.phase = .idle →
    step { s with pending := .bus ⟨.wr, 4, 0x00C#26, w⟩ :: rest } =
      .next { s with inLen := w, pending := rest, resp := some ⟨.okay, none⟩ }

/-- R30, R31: a word write of KEYi while idle stores the word, sets KEYW bit `i` and nothing else. `pending` and
`resp` are the model's fields (log entries 2 and 5). -/
def Obligations.KeyWriteStoresTheWordAndMarksIt : Prop :=
  ∀ (s : State) (i : Fin 8) (w : Word) (rest : List Event), s.phase = .idle →
    ∃ t, step { s with pending := .bus ⟨.wr, 4, BitVec.ofNat 26 (0x020 + 4 * i.val), w⟩ :: rest } = .next t ∧
      t = { s with key := t.key, keyw := t.keyw, pending := rest, resp := some ⟨.okay, none⟩ } ∧
      t.key[i.val] = w ∧ t.keyw.getLsbD i.val = true ∧
      (∀ j : Fin 8, j ≠ i → t.key[j.val] = s.key[j.val] ∧ t.keyw.getLsbD j.val = s.keyw.getLsbD j.val)

/-- R31: no transaction tells the host anything about the key: two states that differ in the key alone answer every
transaction alike and go on to differ in the key alone. `pending` and `resp` are the model's fields (log entries 2
and 5). -/
def Obligations.TransactionsDoNotRevealTheKey : Prop :=
  ∀ (s t t' : State) (k : Vector Word 8) (q : Request) (rest : List Event),
    step { s with pending := .bus q :: rest } = .next t →
    step { s with key := k, pending := .bus q :: rest } = .next t' →
    t'.resp = t.resp ∧ t' = { t with key := t'.key }

/-- R50, R42: byte accesses of IN_BUF while idle: a write at `IN + k` sets that byte to `wdata[7:0]` and nothing
else; a read returns the byte zero-extended. `pending` and `resp` are the model's fields (log entries 2 and 5). -/
def Obligations.InBufByteAccesses : Prop :=
  ∀ (s : State) (k : Nat) (w : Word) (rest : List Event), s.phase = .idle → k < s.cap →
    (∃ t, step { s with pending := .bus ⟨.wr, 1, BitVec.ofNat 26 (0x1000000 + k), w⟩ :: rest } = .next t ∧
      t = { s with inBuf := t.inBuf, pending := rest, resp := some ⟨.okay, none⟩ } ∧
      t.inByte k = w.extractLsb' 0 8 ∧ (∀ a, a ≠ k → t.inByte a = s.inByte a)) ∧
    step { s with pending := .bus ⟨.rd, 1, BitVec.ofNat 26 (0x1000000 + k), w⟩ :: rest } =
      .next { s with pending := rest, resp := some ⟨.okay, some ((s.inByte k).zeroExtend 32)⟩ }

/-- R51, R54: aligned word accesses of IN_BUF while idle: a write at `IN + k` sets bytes `k .. k+3`, least
significant first, and nothing else; a read returns the word whose lane `j` is byte `k + j`. `pending` and `resp`
are the model's fields (log entries 2 and 5). -/
def Obligations.InBufWordAccesses : Prop :=
  ∀ (s : State) (k : Nat) (w : Word) (rest : List Event), s.phase = .idle → k < s.cap → k % 4 = 0 →
    (∃ t, step { s with pending := .bus ⟨.wr, 4, BitVec.ofNat 26 (0x1000000 + k), w⟩ :: rest } = .next t ∧
      t = { s with inBuf := t.inBuf, pending := rest, resp := some ⟨.okay, none⟩ } ∧
      (∀ j, j < 4 → t.inByte (k + j) = w.extractLsb' (8 * j) 8) ∧
      (∀ a, a < k ∨ k + 4 ≤ a → t.inByte a = s.inByte a)) ∧
    (∃ v : Word, step { s with pending := .bus ⟨.rd, 4, BitVec.ofNat 26 (0x1000000 + k), w⟩ :: rest } =
        .next { s with pending := rest, resp := some ⟨.okay, some v⟩ } ∧
      ∀ j, j < 4 → v.extractLsb' (8 * j) 8 = s.inByte (k + j))

/-- R52: reads of OUT_BUF while idle, byte and word, go through the OUT_LEN mask. `pending` and `resp` are the
model's fields (log entries 2 and 5). -/
def Obligations.OutBufReadsAreMaskedByOutLen : Prop :=
  ∀ (s : State) (k : Nat) (w : Word) (rest : List Event), s.phase = .idle → k < s.cap →
    let ob := fun a => if a < s.outLen.toNat then s.outByte a else 0x00#8
    step { s with pending := .bus ⟨.rd, 1, BitVec.ofNat 26 (0x2000000 + k), w⟩ :: rest } =
      .next { s with pending := rest, resp := some ⟨.okay, some ((ob k).zeroExtend 32)⟩ } ∧
    (k % 4 = 0 → ∃ v : Word,
      step { s with pending := .bus ⟨.rd, 4, BitVec.ofNat 26 (0x2000000 + k), w⟩ :: rest } =
        .next { s with pending := rest, resp := some ⟨.okay, some v⟩ } ∧
      ∀ j, j < 4 → v.extractLsb' (8 * j) 8 = ob (k + j))

/-- R53: every host write to OUT_BUF gets ERROR and changes nothing; OUT_BUF changes only in a RUN step (and in
reset, R135). `pending` and `resp` are the model's fields (log entries 2 and 5). -/
def Obligations.OnlyRunStepsWriteOutBuf : Prop :=
  (∀ (s : State) (q : Request) (rest : List Event), q.dir = .wr → 0x2000000 ≤ q.off.toNat →
    q.off.toNat < 0x2000000 + s.cap →
    step { s with pending := .bus q :: rest } = .next { s with pending := rest, resp := some ⟨.error, none⟩ }) ∧
  (∀ s t : State, step s = .next t → t.outBuf ≠ s.outBuf →
    (s.phase = .run ∧ (s.pending = [] ∨ ∃ rest, s.pending = .engine :: rest)) ∨
      ∃ q rest, s.pending = .reset q :: rest)

/-- R10, R41: an address inside the window is its offset above BASE, and no other address reaches the engine. -/
def Obligations.WindowOffsetsStartAtBase : Prop :=
  Config.base % 2 ^ 26 = 0 ∧ (∀ off : Offset, offsetOf (Config.base + off.toNat) = some off) ∧
    (∀ addr : Nat, addr < Config.base ∨ Config.base + 2 ^ 26 ≤ addr → offsetOf addr = none)

/-- R80, R31: `loadkey` on an idle engine leaves the 32 bytes as `KeyBytes()` and KEYW = 0xFF. `pending` and `resp`
are the model's fields (log entries 2 and 5). A run with no input left is the engine's turns (log entry 3). -/
def Obligations.LoadKeyLoadsTheThirtyTwoBytes : Prop :=
  ∀ (s : State) (k : List Byte), s.phase = .idle → (hk : k.length = 32) →
    ∃ t, Runs 8 { s with pending := hostEvents (loadkey k) } t ∧ t.keyw = 0xFF#8 ∧
      (∀ n (h : n < 32), t.keyBytes[n] = k[n]) ∧
      t = { s with key := t.key, keyw := t.keyw, pending := [], resp := some ⟨.okay, none⟩ }

/-- R80, R50, R51: `fill` on an idle engine puts the bytes in IN_BUF from offset 0 on and changes no other byte.
`pending` and `resp` are the model's fields (log entries 2 and 5). A run with no input left is the engine's turns
(log entry 3). -/
def Obligations.FillPutsTheBytesInInBuf : Prop :=
  ∀ (s : State) (b : List Byte), s.phase = .idle → b.length ≤ s.cap →
    ∃ t, Runs (fillIn b).length { s with pending := hostEvents (fillIn b) } t ∧
      t.inBytes 0 b.length = b ∧ (∀ a, b.length ≤ a → t.inByte a = s.inByte a) ∧
      t = { s with inBuf := t.inBuf, pending := [], resp := t.resp }

/-! ## Reset -/

/-- R136: the reset values the spec gives; no IN_BUF byte has a value but its draw; all of OUT_BUF reads as 0. -/
def Obligations.ResetValues : Prop :=
  let s := State.reset
  s.regValue .id = some 0x504B4337#32 ∧ s.ctrlWord = 0#32 ∧ s.statusWord = 0#32 ∧ s.inLen = 0#32 ∧
    s.outLen = 0#32 ∧ s.blkIdx = 0#32 ∧ s.regValue .cap = some (BitVec.ofNat 32 s.cap) ∧
    (∀ i : Fin 8, s.key[i.val] = 0#32) ∧ s.phase = .idle ∧ s.lop = 0#3 ∧ s.lperr = false ∧ s.lpchk = false ∧
    s.llen = 0#32 ∧ s.nblk = 0#32 ∧ s.olen = 0#32 ∧ s.padb = 0#8 ∧ (∀ k, s.inBuf.read k = none) ∧
    (∀ k, s.maskedOutByte k = 0x00#8)

/-- R135: reset in any state, during a command too, leaves CTRL, STATUS, IN_LEN, OUT_LEN, BLK_IDX, the key and the
hidden state at 0 and IDLE, ID and CAP as they are, no IN_BUF byte with a value but its draw, and all of OUT_BUF
reading as 0. The transaction `q` under way is not performed. `pending` is the model's field (log entry 2). -/
def Obligations.ResetClearsEverythingButCap : Prop :=
  ∀ (s : State) (q : Option Request) (rest : List Event),
    ∃ t, step { s with pending := .reset q :: rest } = .next t ∧ t.regValue .id = some 0x504B4337#32 ∧
      t.ctrlWord = 0#32 ∧ t.statusWord = 0#32 ∧ t.inLen = 0#32 ∧ t.outLen = 0#32 ∧ t.blkIdx = 0#32 ∧
      (∀ i : Fin 8, t.key[i.val] = 0#32) ∧ t.phase = .idle ∧ t.lop = 0#3 ∧ t.lperr = false ∧ t.lpchk = false ∧
      t.llen = 0#32 ∧ t.nblk = 0#32 ∧ t.olen = 0#32 ∧ t.padb = 0#8 ∧ t.capBlocks = s.capBlocks ∧
      t.pending = rest ∧ (∀ k, t.inBuf.read k = none) ∧ (∀ k, t.maskedOutByte k = 0x00#8)

/-- R137: reset during a command: DONE stays 0, and the OUT_BUF bytes its RUN steps wrote stay, unread. `pending` is
the model's field (log entry 2). -/
def Obligations.ResetDuringACommandMasksItsOutput : Prop :=
  ∀ (s t : State) (q : Option Request) (rest : List Event), s.busy = true →
    step { s with pending := .reset q :: rest } = .next t →
    t.busy = false ∧ t.done = false ∧ KeyCleared t ∧
      ∀ k, k < 16 * s.blkIdx.toNat → t.outBuf.read k = s.outBuf.read k ∧ t.maskedOutByte k = 0x00#8

/-- R138: an IN_BUF byte keeps its value, written or a draw, through every step but reset and an accepted write that
covers it. `pending` is the model's field (log entry 2). -/
def Obligations.InBufBytesKeepTheirValue : Prop :=
  ∀ (s t : State) (k : Nat), step s = .next t →
    (∀ q rest, s.pending ≠ .reset q :: rest) →
    (∀ q rest, s.pending = .bus q :: rest → q.dir = .wr →
      0x1000000 + k < q.off.toNat ∨ q.off.toNat + q.size ≤ 0x1000000 + k) →
    t.inByte k = s.inByte k

/-! ## Whole-machine invariants -/

/-- R36, R8: CAP reads the capacity, a write of it gets ERROR, no step changes it, and it is a legal capacity.
`pending` and `resp` are the model's fields (log entries 2 and 5). -/
def Obligations.CapIsHardwiredAndLegal : Prop :=
  (∀ (s : State) (w : Word) (rest : List Event),
    step { s with pending := .bus ⟨.rd, 4, 0x018#26, w⟩ :: rest } =
      .next { s with pending := rest, resp := some ⟨.okay, some (BitVec.ofNat 32 s.cap)⟩ } ∧
    step { s with pending := .bus ⟨.wr, 4, 0x018#26, w⟩ :: rest } =
      .next { s with pending := rest, resp := some ⟨.error, none⟩ }) ∧
  (∀ s t : State, step s = .next t → t.cap = s.cap) ∧
  (∀ s : State, 16 ≤ s.cap ∧ s.cap ≤ 2 ^ 24 ∧ s.cap % 16 = 0)

/-- R27: DONE is set whenever a command ends (BUSY goes to 0, but for reset); it is cleared only by a START
transition and by reset; it is 0 while BUSY = 1; it is 0 at reset. `pending` is the model's field (log entry 2). -/
def Obligations.DoneFollowsTheCommands : Prop :=
  (∀ s t : State, step s = .next t → s.busy = true → t.busy = false →
    t.done = true ∨ ∃ q rest, s.pending = .reset q :: rest) ∧
  (∀ s t : State, step s = .next t → s.done = true → t.done = false →
    (∃ q rest, s.pending = .reset q :: rest) ∨
    (s.phase = .idle ∧ t.phase = .check ∧ ∃ w rest, w.getLsbD 8 = true ∧ s.pending = .bus (ctrlWrite w) :: rest)) ∧
  (∀ s : State, Inv s → s.busy = true → s.done = false) ∧ State.reset.done = false

/-- R39: every step that is not reset is one of five: START, which writes the flags and counters as the table says;
a KEYi write, which writes KEYW bit `i` alone; a CHECK step; a RUN step; or a step that writes none of them.
`pending` is the model's field (log entry 2). -/
def Obligations.FlagsAndCountersHaveTheirWriters : Prop :=
  ∀ s t : State, step s = .next t → (∀ q rest, s.pending ≠ .reset q :: rest) →
    (s.phase = .idle ∧ t.phase = .check ∧ (∃ w rest, w.getLsbD 8 = true ∧ s.pending = .bus (ctrlWrite w) :: rest) ∧
      t.done = false ∧ t.nostrip = false ∧ t.err = .none ∧ t.keyw = s.keyw ∧ t.outLen = 0#32 ∧ t.blkIdx = 0#32) ∨
    (s.phase = .idle ∧ t.phase = .idle ∧
      (∃ (i : Fin 8) (w : Word) (rest : List Event),
        s.pending = .bus ⟨.wr, 4, BitVec.ofNat 26 (0x020 + 4 * i.val), w⟩ :: rest ∧
          t.keyw = s.keyw ||| 1#8 <<< i.val) ∧
      t.done = s.done ∧ t.nostrip = s.nostrip ∧ t.err = s.err ∧ t.outLen = s.outLen ∧ t.blkIdx = s.blkIdx) ∨
    (s.phase = .check ∧ t.blkIdx = s.blkIdx ∧
      t.nostrip = (if s.lop = 1#3 ∧ 0 < s.llen.toNat ∧ s.llen.toNat ≤ s.cap ∧
          tailValid s.inByte s.llen.toNat (s.inByte (s.llen.toNat - 1)) s.lpchk = false then true else s.nostrip) ∧
      ((t.phase = .run ∧ t.done = s.done ∧ t.err = s.err ∧ t.keyw = s.keyw ∧ t.outLen = s.outLen) ∨
       (t.phase = .idle ∧ t.done = true ∧ t.keyw = (if s.ecbLatched then 0x00#8 else s.keyw) ∧
         t.outLen = (if t.err = .none then t.olen else s.outLen)))) ∨
    (s.phase = .run ∧ t.blkIdx = s.blkIdx + 1#32 ∧ t.nostrip = s.nostrip ∧
      ((t.phase = .run ∧ t.done = s.done ∧ t.err = s.err ∧ t.keyw = s.keyw ∧ t.outLen = s.outLen) ∨
       (t.phase = .idle ∧ t.done = true ∧ t.err = .none ∧ t.keyw = (if s.ecbLatched then 0x00#8 else s.keyw) ∧
         t.outLen = s.olen))) ∨
    (t.phase = s.phase ∧ t.done = s.done ∧ t.nostrip = s.nostrip ∧ t.err = s.err ∧ t.keyw = s.keyw ∧
      t.outLen = s.outLen ∧ t.blkIdx = s.blkIdx)

/-- R111: the key goes from loaded to not loaded only at reset and at the finish of ENCRYPT or DECRYPT, and then it
is cleared whole. `pending` is the model's field (log entry 2). -/
def Obligations.LoadedKeyIsLostOnlyWhole : Prop :=
  ∀ s t : State, step s = .next t → s.keyw = 0xFF#8 → t.keyw ≠ 0xFF#8 →
    KeyCleared t ∧ t.phase = .idle ∧
      ((∃ q rest, s.pending = .reset q :: rest) ∨ (s.ecbLatched = true ∧ s.busy = true))

/-- Every step keeps the invariant: buffers canonical and inside CAP, unloaded key words 0, and in each phase what
R33, R34, R82, R84, R94, R98 and R109 leave. -/
def Obligations.EveryStepKeepsInv : Prop :=
  ∀ s t : State, Inv s → step s = .next t → Inv t

/-- The invariant holds right after reset. -/
def Obligations.InvHoldsAtReset : Prop := Inv State.reset

/-- From a state that meets the invariant no step faults or is refused, and no run does. -/
def Obligations.InvStatesNeverStop : Prop :=
  ∀ (s : State) (n : Nat), Inv s → SafeRun n s
end

