-- ==== Sys2Proof/Laws/Memory.lean ====
section
/-! SUPPORT. The laws of buffer memory: what a read gives after each write, and that every operation keeps the
canonical form and the bound. -/

namespace Sys2Proof.Machine

@[simp] theorem Memory.read_nil (k : Nat) : Memory.read [] k = none := rfl

/-- A read after a write: the byte written at its offset, the old one elsewhere. -/
theorem Memory.read_write (m : Memory) (k a : Nat) (b : Byte) :
    (m.write k b).read a = if a = k then some b else m.read a := by
  induction m with
  | nil => by_cases h : k = a <;> simp [Memory.write, Memory.read, h, eq_comm]
  | cons c m ih =>
    obtain ⟨x, y⟩ := c
    simp only [Memory.write]
    split
    · by_cases h : k = a <;> simp [Memory.read, h, eq_comm]
    · split
      · subst_vars
        by_cases h : x = a
        · simp [Memory.read, h]
        · simp [Memory.read, h, Ne.symm h]
      · rename_i h1 h2
        by_cases h : x = a
        · subst h; simp [Memory.read, Ne.symm h2]
        · simp [Memory.read, h, ih]

/-- The entries after a write: the new one, or an old one. -/
theorem Memory.mem_write {m : Memory} {k : Nat} {b : Byte} {c : Host.Cell} (h : c ∈ m.write k b) :
    c = (k, b) ∨ c ∈ m := by
  induction m with
  | nil => simpa [Memory.write] using h
  | cons d m ih =>
    simp only [Memory.write] at h
    split at h
    · simpa using h
    · split at h
      · rcases List.mem_cons.1 h with h | h
        · exact .inl h
        · exact .inr (List.mem_cons_of_mem _ h)
      · rcases List.mem_cons.1 h with h | h
        · exact .inr (h ▸ List.mem_cons_self)
        · exact (ih h).imp_right (List.mem_cons_of_mem _)

theorem Memory.wf_write {m : Memory} (h : m.wf) (k : Nat) (b : Byte) : (m.write k b).wf := by
  induction m with
  | nil => simp [Memory.write]
  | cons d m ih =>
    obtain ⟨x, y⟩ := d
    obtain ⟨hd, ht⟩ := List.pairwise_cons.1 h
    simp only [Memory.write]
    split
    · refine List.pairwise_cons.2 ⟨fun c hc => ?_, h⟩
      rcases List.mem_cons.1 hc with rfl | hc
      · assumption
      · exact Nat.lt_trans ‹_› (hd c hc)
    · split
      · subst_vars
        exact List.pairwise_cons.2 ⟨hd, ht⟩
      · refine List.pairwise_cons.2 ⟨fun c hc => ?_, ih ht⟩
        rcases Memory.mem_write hc with rfl | hc
        · show x < k
          omega
        · exact hd c hc

theorem Memory.inside_write {m : Memory} {n : Nat} (h : m.inside n) {k : Nat} (hk : k < n) (b : Byte) :
    (m.write k b).inside n := fun _ hc => (Memory.mem_write hc).elim (fun e => e ▸ hk) (h _)

/-- A read after a sequence of bytes was written from `k` on. -/
theorem Memory.read_writeBytes (bs : List Byte) (m : Memory) (k a : Nat) :
    (m.writeBytes k bs).read a = if k ≤ a ∧ a < k + bs.length then bs[a - k]? else m.read a := by
  induction bs generalizing m k with
  | nil => simp [Memory.writeBytes]
  | cons b bs ih =>
    rw [Memory.writeBytes, ih, Memory.read_write]
    by_cases h : a = k
    · subst h; simp
    · by_cases h1 : k + 1 ≤ a ∧ a < k + 1 + bs.length
      · have h2 : k ≤ a ∧ a < k + (b :: bs).length := by simp; omega
        have h3 : a - k = (a - (k + 1)) + 1 := by omega
        rw [if_pos h1, if_pos h2, h3, List.getElem?_cons_succ]
      · have h2 : ¬ (k ≤ a ∧ a < k + (b :: bs).length) := by simp; omega
        rw [if_neg h1, if_neg h2, if_neg h]

theorem Memory.wf_writeBytes (bs : List Byte) {m : Memory} (h : m.wf) (k : Nat) : (m.writeBytes k bs).wf := by
  induction bs generalizing m k with
  | nil => exact h
  | cons b bs ih => exact ih (Memory.wf_write h k b) (k + 1)

theorem Memory.inside_writeBytes (bs : List Byte) {m : Memory} {n : Nat} (h : m.inside n) {k : Nat}
    (hk : k + bs.length ≤ n) : (m.writeBytes k bs).inside n := by
  induction bs generalizing m k with
  | nil => exact h
  | cons b bs ih =>
    rw [List.length_cons] at hk
    exact ih (Memory.inside_write h (by omega) b) (by omega)

theorem Memory.wf_below {m : Memory} (h : m.wf) (n : Nat) : (m.below n).wf := List.Pairwise.filter _ h

theorem Memory.inside_below {m : Memory} {b : Nat} (h : m.inside b) (n : Nat) : (m.below n).inside b :=
  fun _ hc => h _ (List.mem_filter.1 hc).1

/-- A read after everything from `n` on was forgotten. -/
theorem Memory.read_below (m : Memory) (n a : Nat) :
    (m.below n).read a = if a < n then m.read a else none := by
  induction m with
  | nil => simp [Memory.below]
  | cons c m ih =>
    obtain ⟨x, y⟩ := c
    unfold Memory.below at ih ⊢
    by_cases hx : x < n
    · rw [List.filter_cons_of_pos (by simpa using hx)]
      by_cases h : x = a
      · subst h; simp [Memory.read, hx]
      · simp [Memory.read, h, ih]
    · rw [List.filter_cons_of_neg (by simpa using hx), ih]
      by_cases h : a < n
      · have : x ≠ a := by omega
        simp [Memory.read, h, this]
      · simp [h]

end Sys2Proof.Machine
end

