-- ==== Sys2Proof/Laws/State.lean ====
section
/-! SUPPORT. For each update of the state, what every field holds after it. -/

namespace Sys2Proof.Machine

/-! ## `State.okayRead` -/

@[simp] theorem okayRead_capBlocks (s : State) (w : Word) : (s.okayRead w).capBlocks = s.capBlocks := rfl
@[simp] theorem okayRead_ctrlOp (s : State) (w : Word) : (s.okayRead w).ctrlOp = s.ctrlOp := rfl
@[simp] theorem okayRead_ctrlPadErr (s : State) (w : Word) : (s.okayRead w).ctrlPadErr = s.ctrlPadErr := rfl
@[simp] theorem okayRead_ctrlPadChk (s : State) (w : Word) : (s.okayRead w).ctrlPadChk = s.ctrlPadChk := rfl
@[simp] theorem okayRead_done (s : State) (w : Word) : (s.okayRead w).done = s.done := rfl
@[simp] theorem okayRead_nostrip (s : State) (w : Word) : (s.okayRead w).nostrip = s.nostrip := rfl
@[simp] theorem okayRead_err (s : State) (w : Word) : (s.okayRead w).err = s.err := rfl
@[simp] theorem okayRead_keyw (s : State) (w : Word) : (s.okayRead w).keyw = s.keyw := rfl
@[simp] theorem okayRead_key (s : State) (w : Word) : (s.okayRead w).key = s.key := rfl
@[simp] theorem okayRead_inLen (s : State) (w : Word) : (s.okayRead w).inLen = s.inLen := rfl
@[simp] theorem okayRead_outLen (s : State) (w : Word) : (s.okayRead w).outLen = s.outLen := rfl
@[simp] theorem okayRead_blkIdx (s : State) (w : Word) : (s.okayRead w).blkIdx = s.blkIdx := rfl
@[simp] theorem okayRead_phase (s : State) (w : Word) : (s.okayRead w).phase = s.phase := rfl
@[simp] theorem okayRead_lop (s : State) (w : Word) : (s.okayRead w).lop = s.lop := rfl
@[simp] theorem okayRead_lperr (s : State) (w : Word) : (s.okayRead w).lperr = s.lperr := rfl
@[simp] theorem okayRead_lpchk (s : State) (w : Word) : (s.okayRead w).lpchk = s.lpchk := rfl
@[simp] theorem okayRead_llen (s : State) (w : Word) : (s.okayRead w).llen = s.llen := rfl
@[simp] theorem okayRead_nblk (s : State) (w : Word) : (s.okayRead w).nblk = s.nblk := rfl
@[simp] theorem okayRead_olen (s : State) (w : Word) : (s.okayRead w).olen = s.olen := rfl
@[simp] theorem okayRead_padb (s : State) (w : Word) : (s.okayRead w).padb = s.padb := rfl
@[simp] theorem okayRead_inBuf (s : State) (w : Word) : (s.okayRead w).inBuf = s.inBuf := rfl
@[simp] theorem okayRead_outBuf (s : State) (w : Word) : (s.okayRead w).outBuf = s.outBuf := rfl
@[simp] theorem okayRead_epoch (s : State) (w : Word) : (s.okayRead w).epoch = s.epoch := rfl
@[simp] theorem okayRead_pending (s : State) (w : Word) : (s.okayRead w).pending = s.pending := rfl
@[simp] theorem okayRead_resp (s : State) (w : Word) : (s.okayRead w).resp = some ⟨.okay, some w⟩ := rfl

/-! ## `State.okayWrite` -/

@[simp] theorem okayWrite_capBlocks (s : State) : s.okayWrite.capBlocks = s.capBlocks := rfl
@[simp] theorem okayWrite_ctrlOp (s : State) : s.okayWrite.ctrlOp = s.ctrlOp := rfl
@[simp] theorem okayWrite_ctrlPadErr (s : State) : s.okayWrite.ctrlPadErr = s.ctrlPadErr := rfl
@[simp] theorem okayWrite_ctrlPadChk (s : State) : s.okayWrite.ctrlPadChk = s.ctrlPadChk := rfl
@[simp] theorem okayWrite_done (s : State) : s.okayWrite.done = s.done := rfl
@[simp] theorem okayWrite_nostrip (s : State) : s.okayWrite.nostrip = s.nostrip := rfl
@[simp] theorem okayWrite_err (s : State) : s.okayWrite.err = s.err := rfl
@[simp] theorem okayWrite_keyw (s : State) : s.okayWrite.keyw = s.keyw := rfl
@[simp] theorem okayWrite_key (s : State) : s.okayWrite.key = s.key := rfl
@[simp] theorem okayWrite_inLen (s : State) : s.okayWrite.inLen = s.inLen := rfl
@[simp] theorem okayWrite_outLen (s : State) : s.okayWrite.outLen = s.outLen := rfl
@[simp] theorem okayWrite_blkIdx (s : State) : s.okayWrite.blkIdx = s.blkIdx := rfl
@[simp] theorem okayWrite_phase (s : State) : s.okayWrite.phase = s.phase := rfl
@[simp] theorem okayWrite_lop (s : State) : s.okayWrite.lop = s.lop := rfl
@[simp] theorem okayWrite_lperr (s : State) : s.okayWrite.lperr = s.lperr := rfl
@[simp] theorem okayWrite_lpchk (s : State) : s.okayWrite.lpchk = s.lpchk := rfl
@[simp] theorem okayWrite_llen (s : State) : s.okayWrite.llen = s.llen := rfl
@[simp] theorem okayWrite_nblk (s : State) : s.okayWrite.nblk = s.nblk := rfl
@[simp] theorem okayWrite_olen (s : State) : s.okayWrite.olen = s.olen := rfl
@[simp] theorem okayWrite_padb (s : State) : s.okayWrite.padb = s.padb := rfl
@[simp] theorem okayWrite_inBuf (s : State) : s.okayWrite.inBuf = s.inBuf := rfl
@[simp] theorem okayWrite_outBuf (s : State) : s.okayWrite.outBuf = s.outBuf := rfl
@[simp] theorem okayWrite_epoch (s : State) : s.okayWrite.epoch = s.epoch := rfl
@[simp] theorem okayWrite_pending (s : State) : s.okayWrite.pending = s.pending := rfl
@[simp] theorem okayWrite_resp (s : State) : s.okayWrite.resp = some ⟨.okay, none⟩ := rfl

/-! ## `State.busError` -/

@[simp] theorem busError_capBlocks (s : State) (d : Dir) : (s.busError d).capBlocks = s.capBlocks := rfl
@[simp] theorem busError_ctrlOp (s : State) (d : Dir) : (s.busError d).ctrlOp = s.ctrlOp := rfl
@[simp] theorem busError_ctrlPadErr (s : State) (d : Dir) : (s.busError d).ctrlPadErr = s.ctrlPadErr := rfl
@[simp] theorem busError_ctrlPadChk (s : State) (d : Dir) : (s.busError d).ctrlPadChk = s.ctrlPadChk := rfl
@[simp] theorem busError_done (s : State) (d : Dir) : (s.busError d).done = s.done := rfl
@[simp] theorem busError_nostrip (s : State) (d : Dir) : (s.busError d).nostrip = s.nostrip := rfl
@[simp] theorem busError_err (s : State) (d : Dir) : (s.busError d).err = s.err := rfl
@[simp] theorem busError_keyw (s : State) (d : Dir) : (s.busError d).keyw = s.keyw := rfl
@[simp] theorem busError_key (s : State) (d : Dir) : (s.busError d).key = s.key := rfl
@[simp] theorem busError_inLen (s : State) (d : Dir) : (s.busError d).inLen = s.inLen := rfl
@[simp] theorem busError_outLen (s : State) (d : Dir) : (s.busError d).outLen = s.outLen := rfl
@[simp] theorem busError_blkIdx (s : State) (d : Dir) : (s.busError d).blkIdx = s.blkIdx := rfl
@[simp] theorem busError_phase (s : State) (d : Dir) : (s.busError d).phase = s.phase := rfl
@[simp] theorem busError_lop (s : State) (d : Dir) : (s.busError d).lop = s.lop := rfl
@[simp] theorem busError_lperr (s : State) (d : Dir) : (s.busError d).lperr = s.lperr := rfl
@[simp] theorem busError_lpchk (s : State) (d : Dir) : (s.busError d).lpchk = s.lpchk := rfl
@[simp] theorem busError_llen (s : State) (d : Dir) : (s.busError d).llen = s.llen := rfl
@[simp] theorem busError_nblk (s : State) (d : Dir) : (s.busError d).nblk = s.nblk := rfl
@[simp] theorem busError_olen (s : State) (d : Dir) : (s.busError d).olen = s.olen := rfl
@[simp] theorem busError_padb (s : State) (d : Dir) : (s.busError d).padb = s.padb := rfl
@[simp] theorem busError_inBuf (s : State) (d : Dir) : (s.busError d).inBuf = s.inBuf := rfl
@[simp] theorem busError_outBuf (s : State) (d : Dir) : (s.busError d).outBuf = s.outBuf := rfl
@[simp] theorem busError_epoch (s : State) (d : Dir) : (s.busError d).epoch = s.epoch := rfl
@[simp] theorem busError_pending (s : State) (d : Dir) : (s.busError d).pending = s.pending := rfl
@[simp] theorem busError_resp (s : State) (d : Dir) : (s.busError d).resp = some (errorResponse d) := rfl

/-! ## `State.storeCtrl` -/

@[simp] theorem storeCtrl_capBlocks (s : State) (op : BitVec 3) (pe pc : Bool) : (s.storeCtrl op pe pc).capBlocks = s.capBlocks := rfl
@[simp] theorem storeCtrl_ctrlOp (s : State) (op : BitVec 3) (pe pc : Bool) : (s.storeCtrl op pe pc).ctrlOp = op := rfl
@[simp] theorem storeCtrl_ctrlPadErr (s : State) (op : BitVec 3) (pe pc : Bool) : (s.storeCtrl op pe pc).ctrlPadErr = pe := rfl
@[simp] theorem storeCtrl_ctrlPadChk (s : State) (op : BitVec 3) (pe pc : Bool) : (s.storeCtrl op pe pc).ctrlPadChk = pc := rfl
@[simp] theorem storeCtrl_done (s : State) (op : BitVec 3) (pe pc : Bool) : (s.storeCtrl op pe pc).done = s.done := rfl
@[simp] theorem storeCtrl_nostrip (s : State) (op : BitVec 3) (pe pc : Bool) : (s.storeCtrl op pe pc).nostrip = s.nostrip := rfl
@[simp] theorem storeCtrl_err (s : State) (op : BitVec 3) (pe pc : Bool) : (s.storeCtrl op pe pc).err = s.err := rfl
@[simp] theorem storeCtrl_keyw (s : State) (op : BitVec 3) (pe pc : Bool) : (s.storeCtrl op pe pc).keyw = s.keyw := rfl
@[simp] theorem storeCtrl_key (s : State) (op : BitVec 3) (pe pc : Bool) : (s.storeCtrl op pe pc).key = s.key := rfl
@[simp] theorem storeCtrl_inLen (s : State) (op : BitVec 3) (pe pc : Bool) : (s.storeCtrl op pe pc).inLen = s.inLen := rfl
@[simp] theorem storeCtrl_outLen (s : State) (op : BitVec 3) (pe pc : Bool) : (s.storeCtrl op pe pc).outLen = s.outLen := rfl
@[simp] theorem storeCtrl_blkIdx (s : State) (op : BitVec 3) (pe pc : Bool) : (s.storeCtrl op pe pc).blkIdx = s.blkIdx := rfl
@[simp] theorem storeCtrl_phase (s : State) (op : BitVec 3) (pe pc : Bool) : (s.storeCtrl op pe pc).phase = s.phase := rfl
@[simp] theorem storeCtrl_lop (s : State) (op : BitVec 3) (pe pc : Bool) : (s.storeCtrl op pe pc).lop = s.lop := rfl
@[simp] theorem storeCtrl_lperr (s : State) (op : BitVec 3) (pe pc : Bool) : (s.storeCtrl op pe pc).lperr = s.lperr := rfl
@[simp] theorem storeCtrl_lpchk (s : State) (op : BitVec 3) (pe pc : Bool) : (s.storeCtrl op pe pc).lpchk = s.lpchk := rfl
@[simp] theorem storeCtrl_llen (s : State) (op : BitVec 3) (pe pc : Bool) : (s.storeCtrl op pe pc).llen = s.llen := rfl
@[simp] theorem storeCtrl_nblk (s : State) (op : BitVec 3) (pe pc : Bool) : (s.storeCtrl op pe pc).nblk = s.nblk := rfl
@[simp] theorem storeCtrl_olen (s : State) (op : BitVec 3) (pe pc : Bool) : (s.storeCtrl op pe pc).olen = s.olen := rfl
@[simp] theorem storeCtrl_padb (s : State) (op : BitVec 3) (pe pc : Bool) : (s.storeCtrl op pe pc).padb = s.padb := rfl
@[simp] theorem storeCtrl_inBuf (s : State) (op : BitVec 3) (pe pc : Bool) : (s.storeCtrl op pe pc).inBuf = s.inBuf := rfl
@[simp] theorem storeCtrl_outBuf (s : State) (op : BitVec 3) (pe pc : Bool) : (s.storeCtrl op pe pc).outBuf = s.outBuf := rfl
@[simp] theorem storeCtrl_epoch (s : State) (op : BitVec 3) (pe pc : Bool) : (s.storeCtrl op pe pc).epoch = s.epoch := rfl
@[simp] theorem storeCtrl_pending (s : State) (op : BitVec 3) (pe pc : Bool) : (s.storeCtrl op pe pc).pending = s.pending := rfl
@[simp] theorem storeCtrl_resp (s : State) (op : BitVec 3) (pe pc : Bool) : (s.storeCtrl op pe pc).resp = s.resp := rfl

/-! ## `State.writeInLen` -/

@[simp] theorem writeInLen_capBlocks (s : State) (w : Word) : (s.writeInLen w).capBlocks = s.capBlocks := rfl
@[simp] theorem writeInLen_ctrlOp (s : State) (w : Word) : (s.writeInLen w).ctrlOp = s.ctrlOp := rfl
@[simp] theorem writeInLen_ctrlPadErr (s : State) (w : Word) : (s.writeInLen w).ctrlPadErr = s.ctrlPadErr := rfl
@[simp] theorem writeInLen_ctrlPadChk (s : State) (w : Word) : (s.writeInLen w).ctrlPadChk = s.ctrlPadChk := rfl
@[simp] theorem writeInLen_done (s : State) (w : Word) : (s.writeInLen w).done = s.done := rfl
@[simp] theorem writeInLen_nostrip (s : State) (w : Word) : (s.writeInLen w).nostrip = s.nostrip := rfl
@[simp] theorem writeInLen_err (s : State) (w : Word) : (s.writeInLen w).err = s.err := rfl
@[simp] theorem writeInLen_keyw (s : State) (w : Word) : (s.writeInLen w).keyw = s.keyw := rfl
@[simp] theorem writeInLen_key (s : State) (w : Word) : (s.writeInLen w).key = s.key := rfl
@[simp] theorem writeInLen_inLen (s : State) (w : Word) : (s.writeInLen w).inLen = w := rfl
@[simp] theorem writeInLen_outLen (s : State) (w : Word) : (s.writeInLen w).outLen = s.outLen := rfl
@[simp] theorem writeInLen_blkIdx (s : State) (w : Word) : (s.writeInLen w).blkIdx = s.blkIdx := rfl
@[simp] theorem writeInLen_phase (s : State) (w : Word) : (s.writeInLen w).phase = s.phase := rfl
@[simp] theorem writeInLen_lop (s : State) (w : Word) : (s.writeInLen w).lop = s.lop := rfl
@[simp] theorem writeInLen_lperr (s : State) (w : Word) : (s.writeInLen w).lperr = s.lperr := rfl
@[simp] theorem writeInLen_lpchk (s : State) (w : Word) : (s.writeInLen w).lpchk = s.lpchk := rfl
@[simp] theorem writeInLen_llen (s : State) (w : Word) : (s.writeInLen w).llen = s.llen := rfl
@[simp] theorem writeInLen_nblk (s : State) (w : Word) : (s.writeInLen w).nblk = s.nblk := rfl
@[simp] theorem writeInLen_olen (s : State) (w : Word) : (s.writeInLen w).olen = s.olen := rfl
@[simp] theorem writeInLen_padb (s : State) (w : Word) : (s.writeInLen w).padb = s.padb := rfl
@[simp] theorem writeInLen_inBuf (s : State) (w : Word) : (s.writeInLen w).inBuf = s.inBuf := rfl
@[simp] theorem writeInLen_outBuf (s : State) (w : Word) : (s.writeInLen w).outBuf = s.outBuf := rfl
@[simp] theorem writeInLen_epoch (s : State) (w : Word) : (s.writeInLen w).epoch = s.epoch := rfl
@[simp] theorem writeInLen_pending (s : State) (w : Word) : (s.writeInLen w).pending = s.pending := rfl
@[simp] theorem writeInLen_resp (s : State) (w : Word) : (s.writeInLen w).resp = s.resp := rfl

/-! ## `State.writeKey` -/

@[simp] theorem writeKey_capBlocks (s : State) (i : Fin 8) (w : Word) : (s.writeKey i w).capBlocks = s.capBlocks := rfl
@[simp] theorem writeKey_ctrlOp (s : State) (i : Fin 8) (w : Word) : (s.writeKey i w).ctrlOp = s.ctrlOp := rfl
@[simp] theorem writeKey_ctrlPadErr (s : State) (i : Fin 8) (w : Word) : (s.writeKey i w).ctrlPadErr = s.ctrlPadErr := rfl
@[simp] theorem writeKey_ctrlPadChk (s : State) (i : Fin 8) (w : Word) : (s.writeKey i w).ctrlPadChk = s.ctrlPadChk := rfl
@[simp] theorem writeKey_done (s : State) (i : Fin 8) (w : Word) : (s.writeKey i w).done = s.done := rfl
@[simp] theorem writeKey_nostrip (s : State) (i : Fin 8) (w : Word) : (s.writeKey i w).nostrip = s.nostrip := rfl
@[simp] theorem writeKey_err (s : State) (i : Fin 8) (w : Word) : (s.writeKey i w).err = s.err := rfl
@[simp] theorem writeKey_keyw (s : State) (i : Fin 8) (w : Word) : (s.writeKey i w).keyw = s.keyw ||| 1#8 <<< i.val := rfl
@[simp] theorem writeKey_key (s : State) (i : Fin 8) (w : Word) : (s.writeKey i w).key = s.key.set i.val w i.isLt := rfl
@[simp] theorem writeKey_inLen (s : State) (i : Fin 8) (w : Word) : (s.writeKey i w).inLen = s.inLen := rfl
@[simp] theorem writeKey_outLen (s : State) (i : Fin 8) (w : Word) : (s.writeKey i w).outLen = s.outLen := rfl
@[simp] theorem writeKey_blkIdx (s : State) (i : Fin 8) (w : Word) : (s.writeKey i w).blkIdx = s.blkIdx := rfl
@[simp] theorem writeKey_phase (s : State) (i : Fin 8) (w : Word) : (s.writeKey i w).phase = s.phase := rfl
@[simp] theorem writeKey_lop (s : State) (i : Fin 8) (w : Word) : (s.writeKey i w).lop = s.lop := rfl
@[simp] theorem writeKey_lperr (s : State) (i : Fin 8) (w : Word) : (s.writeKey i w).lperr = s.lperr := rfl
@[simp] theorem writeKey_lpchk (s : State) (i : Fin 8) (w : Word) : (s.writeKey i w).lpchk = s.lpchk := rfl
@[simp] theorem writeKey_llen (s : State) (i : Fin 8) (w : Word) : (s.writeKey i w).llen = s.llen := rfl
@[simp] theorem writeKey_nblk (s : State) (i : Fin 8) (w : Word) : (s.writeKey i w).nblk = s.nblk := rfl
@[simp] theorem writeKey_olen (s : State) (i : Fin 8) (w : Word) : (s.writeKey i w).olen = s.olen := rfl
@[simp] theorem writeKey_padb (s : State) (i : Fin 8) (w : Word) : (s.writeKey i w).padb = s.padb := rfl
@[simp] theorem writeKey_inBuf (s : State) (i : Fin 8) (w : Word) : (s.writeKey i w).inBuf = s.inBuf := rfl
@[simp] theorem writeKey_outBuf (s : State) (i : Fin 8) (w : Word) : (s.writeKey i w).outBuf = s.outBuf := rfl
@[simp] theorem writeKey_epoch (s : State) (i : Fin 8) (w : Word) : (s.writeKey i w).epoch = s.epoch := rfl
@[simp] theorem writeKey_pending (s : State) (i : Fin 8) (w : Word) : (s.writeKey i w).pending = s.pending := rfl
@[simp] theorem writeKey_resp (s : State) (i : Fin 8) (w : Word) : (s.writeKey i w).resp = s.resp := rfl

/-! ## `State.writeIn` -/

@[simp] theorem writeIn_capBlocks (s : State) (k : Nat) (bs : List Byte) : (s.writeIn k bs).capBlocks = s.capBlocks := rfl
@[simp] theorem writeIn_ctrlOp (s : State) (k : Nat) (bs : List Byte) : (s.writeIn k bs).ctrlOp = s.ctrlOp := rfl
@[simp] theorem writeIn_ctrlPadErr (s : State) (k : Nat) (bs : List Byte) : (s.writeIn k bs).ctrlPadErr = s.ctrlPadErr := rfl
@[simp] theorem writeIn_ctrlPadChk (s : State) (k : Nat) (bs : List Byte) : (s.writeIn k bs).ctrlPadChk = s.ctrlPadChk := rfl
@[simp] theorem writeIn_done (s : State) (k : Nat) (bs : List Byte) : (s.writeIn k bs).done = s.done := rfl
@[simp] theorem writeIn_nostrip (s : State) (k : Nat) (bs : List Byte) : (s.writeIn k bs).nostrip = s.nostrip := rfl
@[simp] theorem writeIn_err (s : State) (k : Nat) (bs : List Byte) : (s.writeIn k bs).err = s.err := rfl
@[simp] theorem writeIn_keyw (s : State) (k : Nat) (bs : List Byte) : (s.writeIn k bs).keyw = s.keyw := rfl
@[simp] theorem writeIn_key (s : State) (k : Nat) (bs : List Byte) : (s.writeIn k bs).key = s.key := rfl
@[simp] theorem writeIn_inLen (s : State) (k : Nat) (bs : List Byte) : (s.writeIn k bs).inLen = s.inLen := rfl
@[simp] theorem writeIn_outLen (s : State) (k : Nat) (bs : List Byte) : (s.writeIn k bs).outLen = s.outLen := rfl
@[simp] theorem writeIn_blkIdx (s : State) (k : Nat) (bs : List Byte) : (s.writeIn k bs).blkIdx = s.blkIdx := rfl
@[simp] theorem writeIn_phase (s : State) (k : Nat) (bs : List Byte) : (s.writeIn k bs).phase = s.phase := rfl
@[simp] theorem writeIn_lop (s : State) (k : Nat) (bs : List Byte) : (s.writeIn k bs).lop = s.lop := rfl
@[simp] theorem writeIn_lperr (s : State) (k : Nat) (bs : List Byte) : (s.writeIn k bs).lperr = s.lperr := rfl
@[simp] theorem writeIn_lpchk (s : State) (k : Nat) (bs : List Byte) : (s.writeIn k bs).lpchk = s.lpchk := rfl
@[simp] theorem writeIn_llen (s : State) (k : Nat) (bs : List Byte) : (s.writeIn k bs).llen = s.llen := rfl
@[simp] theorem writeIn_nblk (s : State) (k : Nat) (bs : List Byte) : (s.writeIn k bs).nblk = s.nblk := rfl
@[simp] theorem writeIn_olen (s : State) (k : Nat) (bs : List Byte) : (s.writeIn k bs).olen = s.olen := rfl
@[simp] theorem writeIn_padb (s : State) (k : Nat) (bs : List Byte) : (s.writeIn k bs).padb = s.padb := rfl
@[simp] theorem writeIn_inBuf (s : State) (k : Nat) (bs : List Byte) : (s.writeIn k bs).inBuf = s.inBuf.writeBytes k bs := rfl
@[simp] theorem writeIn_outBuf (s : State) (k : Nat) (bs : List Byte) : (s.writeIn k bs).outBuf = s.outBuf := rfl
@[simp] theorem writeIn_epoch (s : State) (k : Nat) (bs : List Byte) : (s.writeIn k bs).epoch = s.epoch := rfl
@[simp] theorem writeIn_pending (s : State) (k : Nat) (bs : List Byte) : (s.writeIn k bs).pending = s.pending := rfl
@[simp] theorem writeIn_resp (s : State) (k : Nat) (bs : List Byte) : (s.writeIn k bs).resp = s.resp := rfl

/-! ## `State.start` -/

@[simp] theorem start_capBlocks (s : State) (op : BitVec 3) (pe pc : Bool) : (s.start op pe pc).capBlocks = s.capBlocks := rfl
@[simp] theorem start_ctrlOp (s : State) (op : BitVec 3) (pe pc : Bool) : (s.start op pe pc).ctrlOp = op := rfl
@[simp] theorem start_ctrlPadErr (s : State) (op : BitVec 3) (pe pc : Bool) : (s.start op pe pc).ctrlPadErr = pe := rfl
@[simp] theorem start_ctrlPadChk (s : State) (op : BitVec 3) (pe pc : Bool) : (s.start op pe pc).ctrlPadChk = pc := rfl
@[simp] theorem start_done (s : State) (op : BitVec 3) (pe pc : Bool) : (s.start op pe pc).done = false := rfl
@[simp] theorem start_nostrip (s : State) (op : BitVec 3) (pe pc : Bool) : (s.start op pe pc).nostrip = false := rfl
@[simp] theorem start_err (s : State) (op : BitVec 3) (pe pc : Bool) : (s.start op pe pc).err = .none := rfl
@[simp] theorem start_keyw (s : State) (op : BitVec 3) (pe pc : Bool) : (s.start op pe pc).keyw = s.keyw := rfl
@[simp] theorem start_key (s : State) (op : BitVec 3) (pe pc : Bool) : (s.start op pe pc).key = s.key := rfl
@[simp] theorem start_inLen (s : State) (op : BitVec 3) (pe pc : Bool) : (s.start op pe pc).inLen = s.inLen := rfl
@[simp] theorem start_outLen (s : State) (op : BitVec 3) (pe pc : Bool) : (s.start op pe pc).outLen = 0#32 := rfl
@[simp] theorem start_blkIdx (s : State) (op : BitVec 3) (pe pc : Bool) : (s.start op pe pc).blkIdx = 0#32 := rfl
@[simp] theorem start_phase (s : State) (op : BitVec 3) (pe pc : Bool) : (s.start op pe pc).phase = .check := rfl
@[simp] theorem start_lop (s : State) (op : BitVec 3) (pe pc : Bool) : (s.start op pe pc).lop = op := rfl
@[simp] theorem start_lperr (s : State) (op : BitVec 3) (pe pc : Bool) : (s.start op pe pc).lperr = pe := rfl
@[simp] theorem start_lpchk (s : State) (op : BitVec 3) (pe pc : Bool) : (s.start op pe pc).lpchk = pc := rfl
@[simp] theorem start_llen (s : State) (op : BitVec 3) (pe pc : Bool) : (s.start op pe pc).llen = s.inLen := rfl
@[simp] theorem start_nblk (s : State) (op : BitVec 3) (pe pc : Bool) : (s.start op pe pc).nblk = 0#32 := rfl
@[simp] theorem start_olen (s : State) (op : BitVec 3) (pe pc : Bool) : (s.start op pe pc).olen = 0#32 := rfl
@[simp] theorem start_padb (s : State) (op : BitVec 3) (pe pc : Bool) : (s.start op pe pc).padb = 0#8 := rfl
@[simp] theorem start_inBuf (s : State) (op : BitVec 3) (pe pc : Bool) : (s.start op pe pc).inBuf = s.inBuf := rfl
@[simp] theorem start_outBuf (s : State) (op : BitVec 3) (pe pc : Bool) : (s.start op pe pc).outBuf = s.outBuf := rfl
@[simp] theorem start_epoch (s : State) (op : BitVec 3) (pe pc : Bool) : (s.start op pe pc).epoch = s.epoch := rfl
@[simp] theorem start_pending (s : State) (op : BitVec 3) (pe pc : Bool) : (s.start op pe pc).pending = s.pending := rfl
@[simp] theorem start_resp (s : State) (op : BitVec 3) (pe pc : Bool) : (s.start op pe pc).resp = s.resp := rfl

/-! ## `State.keyZeroize` -/

@[simp] theorem keyZeroize_capBlocks (s : State) : s.keyZeroize.capBlocks = s.capBlocks := rfl
@[simp] theorem keyZeroize_ctrlOp (s : State) : s.keyZeroize.ctrlOp = s.ctrlOp := rfl
@[simp] theorem keyZeroize_ctrlPadErr (s : State) : s.keyZeroize.ctrlPadErr = s.ctrlPadErr := rfl
@[simp] theorem keyZeroize_ctrlPadChk (s : State) : s.keyZeroize.ctrlPadChk = s.ctrlPadChk := rfl
@[simp] theorem keyZeroize_done (s : State) : s.keyZeroize.done = s.done := rfl
@[simp] theorem keyZeroize_nostrip (s : State) : s.keyZeroize.nostrip = s.nostrip := rfl
@[simp] theorem keyZeroize_err (s : State) : s.keyZeroize.err = s.err := rfl
@[simp] theorem keyZeroize_keyw (s : State) : s.keyZeroize.keyw = 0#8 := rfl
@[simp] theorem keyZeroize_key (s : State) : s.keyZeroize.key = Vector.replicate 8 0#32 := rfl
@[simp] theorem keyZeroize_inLen (s : State) : s.keyZeroize.inLen = s.inLen := rfl
@[simp] theorem keyZeroize_outLen (s : State) : s.keyZeroize.outLen = s.outLen := rfl
@[simp] theorem keyZeroize_blkIdx (s : State) : s.keyZeroize.blkIdx = s.blkIdx := rfl
@[simp] theorem keyZeroize_phase (s : State) : s.keyZeroize.phase = s.phase := rfl
@[simp] theorem keyZeroize_lop (s : State) : s.keyZeroize.lop = s.lop := rfl
@[simp] theorem keyZeroize_lperr (s : State) : s.keyZeroize.lperr = s.lperr := rfl
@[simp] theorem keyZeroize_lpchk (s : State) : s.keyZeroize.lpchk = s.lpchk := rfl
@[simp] theorem keyZeroize_llen (s : State) : s.keyZeroize.llen = s.llen := rfl
@[simp] theorem keyZeroize_nblk (s : State) : s.keyZeroize.nblk = s.nblk := rfl
@[simp] theorem keyZeroize_olen (s : State) : s.keyZeroize.olen = s.olen := rfl
@[simp] theorem keyZeroize_padb (s : State) : s.keyZeroize.padb = s.padb := rfl
@[simp] theorem keyZeroize_inBuf (s : State) : s.keyZeroize.inBuf = s.inBuf := rfl
@[simp] theorem keyZeroize_outBuf (s : State) : s.keyZeroize.outBuf = s.outBuf := rfl
@[simp] theorem keyZeroize_epoch (s : State) : s.keyZeroize.epoch = s.epoch := rfl
@[simp] theorem keyZeroize_pending (s : State) : s.keyZeroize.pending = s.pending := rfl
@[simp] theorem keyZeroize_resp (s : State) : s.keyZeroize.resp = s.resp := rfl

/-! ## `State.enterRun` -/

@[simp] theorem enterRun_capBlocks (s : State) : s.enterRun.capBlocks = s.capBlocks := rfl
@[simp] theorem enterRun_ctrlOp (s : State) : s.enterRun.ctrlOp = s.ctrlOp := rfl
@[simp] theorem enterRun_ctrlPadErr (s : State) : s.enterRun.ctrlPadErr = s.ctrlPadErr := rfl
@[simp] theorem enterRun_ctrlPadChk (s : State) : s.enterRun.ctrlPadChk = s.ctrlPadChk := rfl
@[simp] theorem enterRun_done (s : State) : s.enterRun.done = s.done := rfl
@[simp] theorem enterRun_nostrip (s : State) : s.enterRun.nostrip = s.nostrip := rfl
@[simp] theorem enterRun_err (s : State) : s.enterRun.err = s.err := rfl
@[simp] theorem enterRun_keyw (s : State) : s.enterRun.keyw = s.keyw := rfl
@[simp] theorem enterRun_key (s : State) : s.enterRun.key = s.key := rfl
@[simp] theorem enterRun_inLen (s : State) : s.enterRun.inLen = s.inLen := rfl
@[simp] theorem enterRun_outLen (s : State) : s.enterRun.outLen = s.outLen := rfl
@[simp] theorem enterRun_blkIdx (s : State) : s.enterRun.blkIdx = s.blkIdx := rfl
@[simp] theorem enterRun_phase (s : State) : s.enterRun.phase = .run := rfl
@[simp] theorem enterRun_lop (s : State) : s.enterRun.lop = s.lop := rfl
@[simp] theorem enterRun_lperr (s : State) : s.enterRun.lperr = s.lperr := rfl
@[simp] theorem enterRun_lpchk (s : State) : s.enterRun.lpchk = s.lpchk := rfl
@[simp] theorem enterRun_llen (s : State) : s.enterRun.llen = s.llen := rfl
@[simp] theorem enterRun_nblk (s : State) : s.enterRun.nblk = s.nblk := rfl
@[simp] theorem enterRun_olen (s : State) : s.enterRun.olen = s.olen := rfl
@[simp] theorem enterRun_padb (s : State) : s.enterRun.padb = s.padb := rfl
@[simp] theorem enterRun_inBuf (s : State) : s.enterRun.inBuf = s.inBuf := rfl
@[simp] theorem enterRun_outBuf (s : State) : s.enterRun.outBuf = s.outBuf := rfl
@[simp] theorem enterRun_epoch (s : State) : s.enterRun.epoch = s.epoch := rfl
@[simp] theorem enterRun_pending (s : State) : s.enterRun.pending = s.pending := rfl
@[simp] theorem enterRun_resp (s : State) : s.enterRun.resp = s.resp := rfl

/-! ## `State.setLengths` -/

@[simp] theorem setLengths_capBlocks (s : State) (n m : Nat) : (s.setLengths n m).capBlocks = s.capBlocks := rfl
@[simp] theorem setLengths_ctrlOp (s : State) (n m : Nat) : (s.setLengths n m).ctrlOp = s.ctrlOp := rfl
@[simp] theorem setLengths_ctrlPadErr (s : State) (n m : Nat) : (s.setLengths n m).ctrlPadErr = s.ctrlPadErr := rfl
@[simp] theorem setLengths_ctrlPadChk (s : State) (n m : Nat) : (s.setLengths n m).ctrlPadChk = s.ctrlPadChk := rfl
@[simp] theorem setLengths_done (s : State) (n m : Nat) : (s.setLengths n m).done = s.done := rfl
@[simp] theorem setLengths_nostrip (s : State) (n m : Nat) : (s.setLengths n m).nostrip = s.nostrip := rfl
@[simp] theorem setLengths_err (s : State) (n m : Nat) : (s.setLengths n m).err = s.err := rfl
@[simp] theorem setLengths_keyw (s : State) (n m : Nat) : (s.setLengths n m).keyw = s.keyw := rfl
@[simp] theorem setLengths_key (s : State) (n m : Nat) : (s.setLengths n m).key = s.key := rfl
@[simp] theorem setLengths_inLen (s : State) (n m : Nat) : (s.setLengths n m).inLen = s.inLen := rfl
@[simp] theorem setLengths_outLen (s : State) (n m : Nat) : (s.setLengths n m).outLen = s.outLen := rfl
@[simp] theorem setLengths_blkIdx (s : State) (n m : Nat) : (s.setLengths n m).blkIdx = s.blkIdx := rfl
@[simp] theorem setLengths_phase (s : State) (n m : Nat) : (s.setLengths n m).phase = s.phase := rfl
@[simp] theorem setLengths_lop (s : State) (n m : Nat) : (s.setLengths n m).lop = s.lop := rfl
@[simp] theorem setLengths_lperr (s : State) (n m : Nat) : (s.setLengths n m).lperr = s.lperr := rfl
@[simp] theorem setLengths_lpchk (s : State) (n m : Nat) : (s.setLengths n m).lpchk = s.lpchk := rfl
@[simp] theorem setLengths_llen (s : State) (n m : Nat) : (s.setLengths n m).llen = s.llen := rfl
@[simp] theorem setLengths_nblk (s : State) (n m : Nat) : (s.setLengths n m).nblk = BitVec.ofNat 32 m := rfl
@[simp] theorem setLengths_olen (s : State) (n m : Nat) : (s.setLengths n m).olen = BitVec.ofNat 32 n := rfl
@[simp] theorem setLengths_padb (s : State) (n m : Nat) : (s.setLengths n m).padb = s.padb := rfl
@[simp] theorem setLengths_inBuf (s : State) (n m : Nat) : (s.setLengths n m).inBuf = s.inBuf := rfl
@[simp] theorem setLengths_outBuf (s : State) (n m : Nat) : (s.setLengths n m).outBuf = s.outBuf := rfl
@[simp] theorem setLengths_epoch (s : State) (n m : Nat) : (s.setLengths n m).epoch = s.epoch := rfl
@[simp] theorem setLengths_pending (s : State) (n m : Nat) : (s.setLengths n m).pending = s.pending := rfl
@[simp] theorem setLengths_resp (s : State) (n m : Nat) : (s.setLengths n m).resp = s.resp := rfl

/-! ## `State.resetStep` -/

@[simp] theorem resetStep_capBlocks (s : State) : s.resetStep.capBlocks = s.capBlocks := rfl
@[simp] theorem resetStep_ctrlOp (s : State) : s.resetStep.ctrlOp = 0#3 := rfl
@[simp] theorem resetStep_ctrlPadErr (s : State) : s.resetStep.ctrlPadErr = false := rfl
@[simp] theorem resetStep_ctrlPadChk (s : State) : s.resetStep.ctrlPadChk = false := rfl
@[simp] theorem resetStep_done (s : State) : s.resetStep.done = false := rfl
@[simp] theorem resetStep_nostrip (s : State) : s.resetStep.nostrip = false := rfl
@[simp] theorem resetStep_err (s : State) : s.resetStep.err = .none := rfl
@[simp] theorem resetStep_keyw (s : State) : s.resetStep.keyw = 0#8 := rfl
@[simp] theorem resetStep_key (s : State) : s.resetStep.key = Vector.replicate 8 0#32 := rfl
@[simp] theorem resetStep_inLen (s : State) : s.resetStep.inLen = 0#32 := rfl
@[simp] theorem resetStep_outLen (s : State) : s.resetStep.outLen = 0#32 := rfl
@[simp] theorem resetStep_blkIdx (s : State) : s.resetStep.blkIdx = 0#32 := rfl
@[simp] theorem resetStep_phase (s : State) : s.resetStep.phase = .idle := rfl
@[simp] theorem resetStep_lop (s : State) : s.resetStep.lop = 0#3 := rfl
@[simp] theorem resetStep_lperr (s : State) : s.resetStep.lperr = false := rfl
@[simp] theorem resetStep_lpchk (s : State) : s.resetStep.lpchk = false := rfl
@[simp] theorem resetStep_llen (s : State) : s.resetStep.llen = 0#32 := rfl
@[simp] theorem resetStep_nblk (s : State) : s.resetStep.nblk = 0#32 := rfl
@[simp] theorem resetStep_olen (s : State) : s.resetStep.olen = 0#32 := rfl
@[simp] theorem resetStep_padb (s : State) : s.resetStep.padb = 0#8 := rfl
@[simp] theorem resetStep_inBuf (s : State) : s.resetStep.inBuf = [] := rfl
@[simp] theorem resetStep_outBuf (s : State) : s.resetStep.outBuf = s.outBufAfterReset := rfl
@[simp] theorem resetStep_epoch (s : State) : s.resetStep.epoch = s.epoch + 1 := rfl
@[simp] theorem resetStep_pending (s : State) : s.resetStep.pending = s.pending := rfl
@[simp] theorem resetStep_resp (s : State) : s.resetStep.resp = none := rfl

/-! ## `State.withOutput` -/

/-- OUT_BUF and BLK_IDX after a run of chunks; a name for proofs. -/
def State.withOutput (s : State) (m : Memory) (n : Word) : State := { s with outBuf := m, blkIdx := n }

@[simp] theorem withOutput_capBlocks (s : State) (m : Memory) (n : Word) : (s.withOutput m n).capBlocks = s.capBlocks := rfl
@[simp] theorem withOutput_ctrlOp (s : State) (m : Memory) (n : Word) : (s.withOutput m n).ctrlOp = s.ctrlOp := rfl
@[simp] theorem withOutput_ctrlPadErr (s : State) (m : Memory) (n : Word) : (s.withOutput m n).ctrlPadErr = s.ctrlPadErr := rfl
@[simp] theorem withOutput_ctrlPadChk (s : State) (m : Memory) (n : Word) : (s.withOutput m n).ctrlPadChk = s.ctrlPadChk := rfl
@[simp] theorem withOutput_done (s : State) (m : Memory) (n : Word) : (s.withOutput m n).done = s.done := rfl
@[simp] theorem withOutput_nostrip (s : State) (m : Memory) (n : Word) : (s.withOutput m n).nostrip = s.nostrip := rfl
@[simp] theorem withOutput_err (s : State) (m : Memory) (n : Word) : (s.withOutput m n).err = s.err := rfl
@[simp] theorem withOutput_keyw (s : State) (m : Memory) (n : Word) : (s.withOutput m n).keyw = s.keyw := rfl
@[simp] theorem withOutput_key (s : State) (m : Memory) (n : Word) : (s.withOutput m n).key = s.key := rfl
@[simp] theorem withOutput_inLen (s : State) (m : Memory) (n : Word) : (s.withOutput m n).inLen = s.inLen := rfl
@[simp] theorem withOutput_outLen (s : State) (m : Memory) (n : Word) : (s.withOutput m n).outLen = s.outLen := rfl
@[simp] theorem withOutput_blkIdx (s : State) (m : Memory) (n : Word) : (s.withOutput m n).blkIdx = n := rfl
@[simp] theorem withOutput_phase (s : State) (m : Memory) (n : Word) : (s.withOutput m n).phase = s.phase := rfl
@[simp] theorem withOutput_lop (s : State) (m : Memory) (n : Word) : (s.withOutput m n).lop = s.lop := rfl
@[simp] theorem withOutput_lperr (s : State) (m : Memory) (n : Word) : (s.withOutput m n).lperr = s.lperr := rfl
@[simp] theorem withOutput_lpchk (s : State) (m : Memory) (n : Word) : (s.withOutput m n).lpchk = s.lpchk := rfl
@[simp] theorem withOutput_llen (s : State) (m : Memory) (n : Word) : (s.withOutput m n).llen = s.llen := rfl
@[simp] theorem withOutput_nblk (s : State) (m : Memory) (n : Word) : (s.withOutput m n).nblk = s.nblk := rfl
@[simp] theorem withOutput_olen (s : State) (m : Memory) (n : Word) : (s.withOutput m n).olen = s.olen := rfl
@[simp] theorem withOutput_padb (s : State) (m : Memory) (n : Word) : (s.withOutput m n).padb = s.padb := rfl
@[simp] theorem withOutput_inBuf (s : State) (m : Memory) (n : Word) : (s.withOutput m n).inBuf = s.inBuf := rfl
@[simp] theorem withOutput_outBuf (s : State) (m : Memory) (n : Word) : (s.withOutput m n).outBuf = m := rfl
@[simp] theorem withOutput_epoch (s : State) (m : Memory) (n : Word) : (s.withOutput m n).epoch = s.epoch := rfl
@[simp] theorem withOutput_pending (s : State) (m : Memory) (n : Word) : (s.withOutput m n).pending = s.pending := rfl
@[simp] theorem withOutput_resp (s : State) (m : Memory) (n : Word) : (s.withOutput m n).resp = s.resp := rfl

/-! ## `State.finish` -/

@[simp] theorem finish_capBlocks (s : State) (c : ErrCode) : (s.finish c).capBlocks = s.capBlocks := by
  unfold State.finish State.reportLength; split <;> split <;> simp_all
@[simp] theorem finish_ctrlOp (s : State) (c : ErrCode) : (s.finish c).ctrlOp = s.ctrlOp := by
  unfold State.finish State.reportLength; split <;> split <;> simp_all
@[simp] theorem finish_ctrlPadErr (s : State) (c : ErrCode) : (s.finish c).ctrlPadErr = s.ctrlPadErr := by
  unfold State.finish State.reportLength; split <;> split <;> simp_all
@[simp] theorem finish_ctrlPadChk (s : State) (c : ErrCode) : (s.finish c).ctrlPadChk = s.ctrlPadChk := by
  unfold State.finish State.reportLength; split <;> split <;> simp_all
@[simp] theorem finish_done (s : State) (c : ErrCode) : (s.finish c).done = true := by
  unfold State.finish State.reportLength; split <;> split <;> simp_all
@[simp] theorem finish_nostrip (s : State) (c : ErrCode) : (s.finish c).nostrip = s.nostrip := by
  unfold State.finish State.reportLength; split <;> split <;> simp_all
@[simp] theorem finish_err (s : State) (c : ErrCode) : (s.finish c).err = c := by
  unfold State.finish State.reportLength; split <;> split <;> simp_all
@[simp] theorem finish_keyw (s : State) (c : ErrCode) : (s.finish c).keyw = (if s.ecbLatched then 0#8 else s.keyw) := by
  unfold State.finish State.reportLength; split <;> split <;> simp_all
@[simp] theorem finish_key (s : State) (c : ErrCode) : (s.finish c).key = (if s.ecbLatched then Vector.replicate 8 0#32 else s.key) := by
  unfold State.finish State.reportLength; split <;> split <;> simp_all
@[simp] theorem finish_inLen (s : State) (c : ErrCode) : (s.finish c).inLen = s.inLen := by
  unfold State.finish State.reportLength; split <;> split <;> simp_all
@[simp] theorem finish_outLen (s : State) (c : ErrCode) : (s.finish c).outLen = (if c = .none then s.olen else s.outLen) := by
  unfold State.finish State.reportLength; split <;> split <;> simp_all
@[simp] theorem finish_blkIdx (s : State) (c : ErrCode) : (s.finish c).blkIdx = s.blkIdx := by
  unfold State.finish State.reportLength; split <;> split <;> simp_all
@[simp] theorem finish_phase (s : State) (c : ErrCode) : (s.finish c).phase = .idle := by
  unfold State.finish State.reportLength; split <;> split <;> simp_all
@[simp] theorem finish_lop (s : State) (c : ErrCode) : (s.finish c).lop = s.lop := by
  unfold State.finish State.reportLength; split <;> split <;> simp_all
@[simp] theorem finish_lperr (s : State) (c : ErrCode) : (s.finish c).lperr = s.lperr := by
  unfold State.finish State.reportLength; split <;> split <;> simp_all
@[simp] theorem finish_lpchk (s : State) (c : ErrCode) : (s.finish c).lpchk = s.lpchk := by
  unfold State.finish State.reportLength; split <;> split <;> simp_all
@[simp] theorem finish_llen (s : State) (c : ErrCode) : (s.finish c).llen = s.llen := by
  unfold State.finish State.reportLength; split <;> split <;> simp_all
@[simp] theorem finish_nblk (s : State) (c : ErrCode) : (s.finish c).nblk = s.nblk := by
  unfold State.finish State.reportLength; split <;> split <;> simp_all
@[simp] theorem finish_olen (s : State) (c : ErrCode) : (s.finish c).olen = s.olen := by
  unfold State.finish State.reportLength; split <;> split <;> simp_all
@[simp] theorem finish_padb (s : State) (c : ErrCode) : (s.finish c).padb = s.padb := by
  unfold State.finish State.reportLength; split <;> split <;> simp_all
@[simp] theorem finish_inBuf (s : State) (c : ErrCode) : (s.finish c).inBuf = s.inBuf := by
  unfold State.finish State.reportLength; split <;> split <;> simp_all
@[simp] theorem finish_outBuf (s : State) (c : ErrCode) : (s.finish c).outBuf = s.outBuf := by
  unfold State.finish State.reportLength; split <;> split <;> simp_all
@[simp] theorem finish_epoch (s : State) (c : ErrCode) : (s.finish c).epoch = s.epoch := by
  unfold State.finish State.reportLength; split <;> split <;> simp_all
@[simp] theorem finish_pending (s : State) (c : ErrCode) : (s.finish c).pending = s.pending := by
  unfold State.finish State.reportLength; split <;> split <;> simp_all
@[simp] theorem finish_resp (s : State) (c : ErrCode) : (s.finish c).resp = s.resp := by
  unfold State.finish State.reportLength; split <;> split <;> simp_all

/-! ## `State.putChunk` -/

@[simp] theorem putChunk_capBlocks (s : State) (i : Nat) (b : Block) : (s.putChunk i b).capBlocks = s.capBlocks := by
  unfold State.putChunk; split <;> simp_all
@[simp] theorem putChunk_ctrlOp (s : State) (i : Nat) (b : Block) : (s.putChunk i b).ctrlOp = s.ctrlOp := by
  unfold State.putChunk; split <;> simp_all
@[simp] theorem putChunk_ctrlPadErr (s : State) (i : Nat) (b : Block) : (s.putChunk i b).ctrlPadErr = s.ctrlPadErr := by
  unfold State.putChunk; split <;> simp_all
@[simp] theorem putChunk_ctrlPadChk (s : State) (i : Nat) (b : Block) : (s.putChunk i b).ctrlPadChk = s.ctrlPadChk := by
  unfold State.putChunk; split <;> simp_all
@[simp] theorem putChunk_done (s : State) (i : Nat) (b : Block) : (s.putChunk i b).done = (if i + 1 = s.nblk.toNat then true else s.done) := by
  unfold State.putChunk; split <;> simp_all
@[simp] theorem putChunk_nostrip (s : State) (i : Nat) (b : Block) : (s.putChunk i b).nostrip = s.nostrip := by
  unfold State.putChunk; split <;> simp_all
@[simp] theorem putChunk_err (s : State) (i : Nat) (b : Block) : (s.putChunk i b).err = (if i + 1 = s.nblk.toNat then .none else s.err) := by
  unfold State.putChunk; split <;> simp_all
@[simp] theorem putChunk_keyw (s : State) (i : Nat) (b : Block) : (s.putChunk i b).keyw = (if i + 1 = s.nblk.toNat ∧ s.ecbLatched then 0#8 else s.keyw) := by
  unfold State.putChunk; split <;> simp_all [State.ecbLatched]
@[simp] theorem putChunk_key (s : State) (i : Nat) (b : Block) : (s.putChunk i b).key = (if i + 1 = s.nblk.toNat ∧ s.ecbLatched then Vector.replicate 8 0#32 else s.key) := by
  unfold State.putChunk; split <;> simp_all [State.ecbLatched]
@[simp] theorem putChunk_inLen (s : State) (i : Nat) (b : Block) : (s.putChunk i b).inLen = s.inLen := by
  unfold State.putChunk; split <;> simp_all
@[simp] theorem putChunk_outLen (s : State) (i : Nat) (b : Block) : (s.putChunk i b).outLen = (if i + 1 = s.nblk.toNat then s.olen else s.outLen) := by
  unfold State.putChunk; split <;> simp_all
@[simp] theorem putChunk_blkIdx (s : State) (i : Nat) (b : Block) : (s.putChunk i b).blkIdx = BitVec.ofNat 32 (i + 1) := by
  unfold State.putChunk; split <;> simp_all
@[simp] theorem putChunk_phase (s : State) (i : Nat) (b : Block) : (s.putChunk i b).phase = (if i + 1 = s.nblk.toNat then .idle else s.phase) := by
  unfold State.putChunk; split <;> simp_all
@[simp] theorem putChunk_lop (s : State) (i : Nat) (b : Block) : (s.putChunk i b).lop = s.lop := by
  unfold State.putChunk; split <;> simp_all
@[simp] theorem putChunk_lperr (s : State) (i : Nat) (b : Block) : (s.putChunk i b).lperr = s.lperr := by
  unfold State.putChunk; split <;> simp_all
@[simp] theorem putChunk_lpchk (s : State) (i : Nat) (b : Block) : (s.putChunk i b).lpchk = s.lpchk := by
  unfold State.putChunk; split <;> simp_all
@[simp] theorem putChunk_llen (s : State) (i : Nat) (b : Block) : (s.putChunk i b).llen = s.llen := by
  unfold State.putChunk; split <;> simp_all
@[simp] theorem putChunk_nblk (s : State) (i : Nat) (b : Block) : (s.putChunk i b).nblk = s.nblk := by
  unfold State.putChunk; split <;> simp_all
@[simp] theorem putChunk_olen (s : State) (i : Nat) (b : Block) : (s.putChunk i b).olen = s.olen := by
  unfold State.putChunk; split <;> simp_all
@[simp] theorem putChunk_padb (s : State) (i : Nat) (b : Block) : (s.putChunk i b).padb = s.padb := by
  unfold State.putChunk; split <;> simp_all
@[simp] theorem putChunk_inBuf (s : State) (i : Nat) (b : Block) : (s.putChunk i b).inBuf = s.inBuf := by
  unfold State.putChunk; split <;> simp_all
@[simp] theorem putChunk_outBuf (s : State) (i : Nat) (b : Block) : (s.putChunk i b).outBuf = s.outBuf.writeBytes (16 * i) b.toList := by
  unfold State.putChunk; split <;> simp_all
@[simp] theorem putChunk_epoch (s : State) (i : Nat) (b : Block) : (s.putChunk i b).epoch = s.epoch := by
  unfold State.putChunk; split <;> simp_all
@[simp] theorem putChunk_pending (s : State) (i : Nat) (b : Block) : (s.putChunk i b).pending = s.pending := by
  unfold State.putChunk; split <;> simp_all
@[simp] theorem putChunk_resp (s : State) (i : Nat) (b : Block) : (s.putChunk i b).resp = s.resp := by
  unfold State.putChunk; split <;> simp_all

end Sys2Proof.Machine
end

