-- ==== Sys2Proof/Laws/Views.lean ====
section
/-! SUPPORT. What the views of the state (capacity, busy, buffer bytes, blocks, key bytes) give, and on which
fields they depend. -/

namespace Sys2Proof.Machine

/-! ## Capacity -/

theorem State.cap_ge (s : State) : 16 ≤ s.cap := by unfold State.cap Config.capBytes; omega

theorem State.cap_le (s : State) : s.cap ≤ 16777216 := by
  have := s.capBlocks.isLt
  unfold State.cap Config.capBytes; omega

theorem State.cap_mod (s : State) : s.cap % 16 = 0 := by unfold State.cap Config.capBytes; omega

theorem State.cap_congr {s t : State} (h : t.capBlocks = s.capBlocks) : t.cap = s.cap := by
  simp [State.cap, h]

/-- Rounding a length up to whole blocks stays inside the capacity. -/
theorem State.round_le_cap (s : State) {n : Nat} (h : n ≤ s.cap) : 16 * blocksFor n ≤ s.cap := by
  have := s.cap_mod
  unfold blocksFor; omega

/-! ## Busy -/

theorem State.busy_eq_false {s : State} : s.busy = false ↔ s.phase = .idle := by
  cases h : s.phase <;> simp [State.busy, h]

theorem State.busy_eq_true {s : State} : s.busy = true ↔ s.phase ≠ .idle := by
  cases h : s.phase <;> simp [State.busy, h]

/-! ## Buffer bytes -/

theorem State.inByte_congr {s t : State} (h : t.inBuf = s.inBuf) (he : t.epoch = s.epoch) : t.inByte = s.inByte := by
  funext k; simp [State.inByte, h, he]

theorem State.keyBytes_congr {s t : State} (h : t.key = s.key) : t.keyBytes = s.keyBytes := by
  simp [State.keyBytes, h]

theorem State.inBlock_congr {s t : State} (h : t.inByte = s.inByte) : t.inBlock = s.inBlock := by
  funext i; simp [State.inBlock, h]

@[simp] theorem State.inBytes_length (s : State) (k n : Nat) : (s.inBytes k n).length = n := by
  simp [State.inBytes]

theorem State.inBytes_getElem? (s : State) (k n j : Nat) :
    (s.inBytes k n)[j]? = if j < n then some (s.inByte (k + j)) else none := by
  unfold State.inBytes
  by_cases h : j < n <;> simp [h]

@[simp] theorem State.inBlock_getElem (s : State) (i j : Nat) (h : j < 16) :
    (s.inBlock i)[j] = s.inByte (16 * i + j) := by simp [State.inBlock]

theorem State.maskedOutByte_of_le {s : State} {k : Nat} (h : s.outLen.toNat ≤ k) : s.maskedOutByte k = 0#8 := by
  simp [State.maskedOutByte, Nat.not_lt.2 h]

/-- A listed output byte below OUT_LEN is what a host read sees. -/
theorem State.maskedOutByte_of_read {s : State} {k : Nat} {b : Byte} (hk : k < s.outLen.toNat)
    (h : s.outBuf.read k = some b) : s.maskedOutByte k = b := by
  simp [State.maskedOutByte, State.outByte, hk, h]

/-! ## Writing a chunk -/

/-- A read of OUT_BUF after block `b` was written as chunk `i`. -/
theorem Memory.read_writeChunk (m : Memory) (i a : Nat) (b : Block) :
    (m.writeBytes (16 * i) b.toList).read a =
      if h : 16 * i ≤ a ∧ a < 16 * i + 16 then some (b[a - 16 * i]'(by omega)) else m.read a := by
  rw [Memory.read_writeBytes]
  have hl : b.toList.length = 16 := by simp
  by_cases h : 16 * i ≤ a ∧ a < 16 * i + 16
  · have h2 : a - 16 * i < 16 := by omega
    rw [if_pos (by rw [hl]; exact h), dif_pos h]
    simp [h2]
  · rw [if_neg (by rw [hl]; exact h), dif_neg h]

/-! ## Lengths narrowed to 32 bits (R12) -/

theorem toNat_ofNat32 {n : Nat} (h : n < 4294967296) : (BitVec.ofNat 32 n).toNat = n := by
  simp [BitVec.toNat_ofNat]; omega

end Sys2Proof.Machine
end

