-- ==== Sys2Proof/Laws/Bus.lean ====
section
/-! SUPPORT. What a bus transaction can do, said once, and which register and region an offset selects. -/

namespace Sys2Proof.Machine

/-! ## Offsets -/

theorem regAt_eq_id {n : Nat} : regAt n = some .id ↔ n = 0 := by
  unfold regAt; split <;> simp
theorem regAt_eq_ctrl {n : Nat} : regAt n = some .ctrl ↔ n = 1 := by
  unfold regAt; split <;> simp
theorem regAt_eq_status {n : Nat} : regAt n = some .status ↔ n = 2 := by
  unfold regAt; split <;> simp
theorem regAt_eq_inLen {n : Nat} : regAt n = some .inLen ↔ n = 3 := by
  unfold regAt; split <;> simp
theorem regAt_eq_outLen {n : Nat} : regAt n = some .outLen ↔ n = 4 := by
  unfold regAt; split <;> simp
theorem regAt_eq_blkIdx {n : Nat} : regAt n = some .blkIdx ↔ n = 5 := by
  unfold regAt; split <;> simp
theorem regAt_eq_cap {n : Nat} : regAt n = some .cap ↔ n = 6 := by
  unfold regAt; split <;> simp
theorem regAt_eq_key {n : Nat} {i : Fin 8} : regAt n = some (.key i) ↔ n = 8 + i.val := by
  unfold regAt
  split
  all_goals try (simp; omega)
  rename_i k
  by_cases h : k < 8
  · simp [h, Fin.ext_iff]; omega
  · simp [h]; omega

theorem regAt_eq_none {n : Nat} : regAt n = none ↔ n = 7 ∨ 16 ≤ n := by
  unfold regAt
  split
  all_goals simp

theorem regionAt_eq_register {cap off : Nat} {r : Reg} :
    regionAt cap off = .register r ↔ off < 0x100 ∧ regAt (off / 4) = some r := by
  unfold regionAt
  by_cases h : off < 0x100
  · simp only [h, if_true, true_and]
    cases regAt (off / 4) <;> simp
  · simp only [h, if_false, false_and, iff_false]
    repeat' split
    all_goals simp

theorem regionAt_eq_inBuf {cap off k : Nat} :
    regionAt cap off = .inBuf k ↔ off = 0x1000000 + k ∧ k < cap ∧ k < 0x1000000 := by
  unfold regionAt
  by_cases h : off < 0x100
  · simp only [h, if_true]
    cases regAt (off / 4) <;> simp <;> omega
  · simp only [h, if_false]
    repeat' split
    all_goals simp
    all_goals omega

theorem regionAt_eq_outBuf {cap off k : Nat} :
    regionAt cap off = .outBuf k ↔ off = 0x2000000 + k ∧ k < cap ∧ k < 0x1000000 := by
  unfold regionAt
  by_cases h : off < 0x100
  · simp only [h, if_true]
    cases regAt (off / 4) <;> simp <;> omega
  · simp only [h, if_false]
    repeat' split
    all_goals simp
    all_goals omega

/-- A word offset of the register window is determined by its register number. -/
theorem offset_eq {a b : Offset} (ha : a.toNat % 4 = 0) (hb : b.toNat % 4 = 0) (h : a.toNat / 4 = b.toNat / 4) :
    a = b := BitVec.eq_of_toNat_eq (by omega)

/-! ## What gets OKAY -/

/-- The transaction gets OKAY: not locked, and permitted by the table. -/
theorem State.accepts_iff {s : State} {q : Request} : s.accepts q = true ↔
    (s.busy = true → lockable (s.regionOf q) q.dir = false) ∧ permits (s.regionOf q) q = true := by
  unfold State.accepts
  cases s.busy <;> cases lockable (s.regionOf q) q.dir <;> simp

theorem transact_error {s : State} {q : Request} (h : s.accepts q = false) :
    transact q s = .next (s.busError q.dir) := by simp [transact, h]

theorem transact_okay {s : State} {q : Request} (h : s.accepts q = true) :
    transact q s = perform (s.regionOf q) q s := by simp [transact, h]

/-- What an accepted write finds: the engine idle. -/
theorem State.idle_of_accepts_wr {s : State} {q : Request} (h : s.accepts q = true) (hd : q.dir = .wr) :
    s.phase = .idle := by
  rw [State.accepts_iff] at h
  by_contra hp
  have hl := h.1 (State.busy_eq_true.2 hp)
  have hperm := h.2
  rw [hd] at hl
  cases hg : s.regionOf q with
  | register r =>
    rw [hg] at hl hperm
    cases r <;> simp [lockable, permits, Reg.access, Access.allows, hd] at hl hperm
  | inBuf k => rw [hg] at hl; simp [lockable] at hl
  | outBuf k => rw [hg] at hperm; simp [permits, hd] at hperm
  | reserved => rw [hg] at hperm; simp [permits] at hperm
  | unmapped => rw [hg] at hperm; simp [permits] at hperm

/-! ## What a transaction can do -/

/-- What a transaction did, in the five ways it can go. -/
inductive Transacted (q : Request) (s t : State) : Prop where
  | error (h : t = s.busError q.dir)
  | read (w : Word) (hd : q.dir = .rd) (h : t = s.okayRead w)
  | command (hp : s.phase = .idle) (hq : q = ctrlWrite q.wdata) (h : exec (decodeWord q.wdata) s = .next t)
  | length (hp : s.phase = .idle) (hq : q = ⟨.wr, 4, 0x00C#26, q.wdata⟩) (h : t = (s.writeInLen q.wdata).okayWrite)
  | key (i : Fin 8) (hp : s.phase = .idle) (hq : q = ⟨.wr, 4, BitVec.ofNat 26 (0x020 + 4 * i.val), q.wdata⟩)
      (h : t = (s.writeKey i q.wdata).okayWrite)
  | input (k : Nat) (hp : s.phase = .idle) (hd : q.dir = .wr) (hs : q.size = 1 ∨ (q.size = 4 ∧ k % 4 = 0))
      (ho : q.off.toNat = 0x1000000 + k) (hk : k < s.cap)
      (h : t = (s.writeIn k (writeData q.size q.wdata)).okayWrite)

/-- Everything a transaction that answers a next state did. -/
theorem transact_spec {q : Request} {s t : State} (h : transact q s = .next t) : Transacted q s t := by
  by_cases ha : s.accepts q = true
  · rw [transact_okay ha] at h
    obtain ⟨-, hperm⟩ := State.accepts_iff.1 ha
    obtain ⟨d, z, o, w⟩ := q
    cases d with
    | rd =>
      cases hg : s.regionOf ⟨.rd, z, o, w⟩ with
      | register r =>
        rw [hg] at h
        simp only [perform, readRegister] at h
        split at h
        · cases h; exact .read _ rfl rfl
        · cases h; exact .error rfl
      | inBuf k => rw [hg] at h; cases h; exact .read _ rfl rfl
      | outBuf k => rw [hg] at h; cases h; exact .read _ rfl rfl
      | reserved => rw [hg] at hperm; simp [permits] at hperm
      | unmapped => rw [hg] at hperm; simp [permits] at hperm
    | wr =>
      have hp := State.idle_of_accepts_wr ha rfl
      cases hg : s.regionOf ⟨.wr, z, o, w⟩ with
      | register r =>
        rw [hg] at h hperm
        obtain ⟨-, hr⟩ := regionAt_eq_register.1 hg
        simp only [permits, Bool.and_eq_true, beq_iff_eq] at hperm
        obtain ⟨⟨rfl, ho⟩, -⟩ := hperm
        simp only at ho hr
        cases r with
        | ctrl =>
          have e : o = 0x004#26 := offset_eq ho rfl (regAt_eq_ctrl.1 hr)
          subst e; exact .command hp rfl h
        | inLen =>
          have e : o = 0x00C#26 := offset_eq ho rfl (regAt_eq_inLen.1 hr)
          subst e; cases h; exact .length hp rfl rfl
        | key i =>
          have hi := i.isLt
          have hn : (BitVec.ofNat 26 (0x020 + 4 * i.val)).toNat = 0x020 + 4 * i.val := by
            simp [BitVec.toNat_ofNat]; omega
          have e : o = BitVec.ofNat 26 (0x020 + 4 * i.val) :=
            offset_eq ho (by rw [hn]; omega) (by rw [hn, regAt_eq_key.1 hr]; omega)
          subst e; cases h; exact .key i hp rfl rfl
        | id => cases h; exact .error rfl
        | status => cases h; exact .error rfl
        | outLen => cases h; exact .error rfl
        | blkIdx => cases h; exact .error rfl
        | cap => cases h; exact .error rfl
      | inBuf k =>
        rw [hg] at h hperm
        obtain ⟨ho, hk, -⟩ := regionAt_eq_inBuf.1 hg
        simp only at ho
        simp only [permits, Bool.or_eq_true, Bool.and_eq_true, beq_iff_eq] at hperm
        cases h
        exact .input k hp rfl (hperm.imp_right fun ⟨a, b⟩ => ⟨a, by omega⟩) ho hk rfl
      | outBuf k => rw [hg] at hperm; simp [permits] at hperm
      | reserved => rw [hg] at hperm; simp [permits] at hperm
      | unmapped => rw [hg] at hperm; simp [permits] at hperm
  · rw [transact_error (by simpa using ha)] at h
    cases h; exact .error rfl

/-- Every transaction answers a next state. -/
theorem transact_total (q : Request) (s : State) : ∃ t, transact q s = .next t := by
  unfold transact
  split
  · unfold perform
    split
    all_goals first | exact ⟨_, rfl⟩ | skip
    unfold writeRegister
    split
    all_goals first | exact ⟨_, rfl⟩ | skip
    cases decodeWord q.wdata <;> exact ⟨_, rfl⟩
  · exact ⟨_, rfl⟩

/-! ## What a command word can do to an idle engine -/

/-- Everything a command word written to an idle engine did: a START with its three fields, or the three fields
alone. -/
theorem exec_decodeWord {w : Word} {s : State} (h : s.phase = .idle) :
    exec (decodeWord w) s = .next
      (if bitOf w 8 then (s.start (opField w) (bitOf w 4) (bitOf w 5)).okayWrite
       else (s.storeCtrl (opField w) (bitOf w 4) (bitOf w 5)).okayWrite) := by
  have hb : s.busy = false := State.busy_eq_false.2 h
  unfold decodeWord
  split
  · unfold commandOf
    have e : ∀ n, (opField w).toNat = n → n < 8 → opField w = BitVec.ofNat 3 n := fun n hn hlt =>
      BitVec.eq_of_toNat_eq (by rw [hn, BitVec.toNat_ofNat]; omega)
    split
    · rw [e 0 ‹_› (by omega)]; simp [exec, execEncode, startCommand, hb]
    · rw [e 1 ‹_› (by omega)]; simp [exec, execDecode, startCommand, hb]
    · rw [e 2 ‹_› (by omega)]; simp [exec, execEncrypt, startCommand, hb]
    · rw [e 3 ‹_› (by omega)]; simp [exec, execDecrypt, startCommand, hb]
    · simp [exec, execReservedOp, startCommand, hb]
  · simp [exec, execCfg, configure, hb]

end Sys2Proof.Machine
end

