-- ==== Sys2Proof/Laws/Decode.lean ====
section
/-! SUPPORT. The bits of a word: its bytes, its fields, and what the decoder depends on. -/

namespace Sys2Proof

/-! ## Bytes of a word -/

theorem byteOf_getLsbD (w : Word) (j i : Nat) : (byteOf w j).getLsbD i = (decide (i < 8) && w.getLsbD (8 * j + i)) := by
  simp [byteOf, BitVec.getLsbD_extractLsb']

/-- A bit of the word made of four bytes is a bit of the byte it lies in. -/
theorem wordOfBytes_getLsbD (b0 b1 b2 b3 : Byte) (i : Nat) : (wordOfBytes b0 b1 b2 b3).getLsbD i =
    if i < 8 then b0.getLsbD i else if i < 16 then b1.getLsbD (i - 8)
      else if i < 24 then b2.getLsbD (i - 16) else b3.getLsbD (i - 24) := by
  simp only [wordOfBytes, BitVec.getLsbD_append, show i - 8 - 8 = i - 16 by omega, show i - 16 - 8 = i - 24 by omega,
    show (i - 8 < 8) = (i < 16 ∨ i < 8) by simp; omega, show (i - 16 < 8) = (i < 24 ∨ i < 16) by simp; omega]
  by_cases h1 : i < 8
  · simp [h1]
  · by_cases h2 : i < 16 <;> by_cases h3 : i < 24 <;> simp [h1, h2, h3]

theorem byteOf_wordOfBytes (b0 b1 b2 b3 : Byte) :
    byteOf (wordOfBytes b0 b1 b2 b3) 0 = b0 ∧ byteOf (wordOfBytes b0 b1 b2 b3) 1 = b1 ∧
      byteOf (wordOfBytes b0 b1 b2 b3) 2 = b2 ∧ byteOf (wordOfBytes b0 b1 b2 b3) 3 = b3 := by
  refine ⟨?_, ?_, ?_, ?_⟩ <;> refine BitVec.eq_of_getLsbD_eq fun i hi => ?_ <;>
    rw [byteOf_getLsbD, wordOfBytes_getLsbD] <;> interval_cases i <;> simp

/-- The bytes of a word put together again. -/
theorem wordOfBytes_byteOf (w : Word) : wordOfBytes (byteOf w 0) (byteOf w 1) (byteOf w 2) (byteOf w 3) = w := by
  refine BitVec.eq_of_getLsbD_eq fun i hi => ?_
  simp only [wordOfBytes_getLsbD, byteOf_getLsbD]
  repeat' split
  · simp [*]
  · rw [show 8 * 1 + (i - 8) = i by omega]; simp; omega
  · rw [show 8 * 2 + (i - 16) = i by omega]; simp; omega
  · rw [show 8 * 3 + (i - 24) = i by omega]; simp; omega

/-- Decoding the bytes of a word is decoding the word. -/
theorem decodeBytes_bytesOfWord (w : Word) : decodeBytes (bytesOfWord w) = .ok (decodeWord w) := by
  simp [decodeBytes, bytesOfWord, wordOfBytes_byteOf]

/-! ## The fields of a word -/

theorem bitAt_getLsbD (b : Bool) (i j : Nat) : (bitAt b i).getLsbD j = (b && decide (j < 32) && decide (j = i)) := by
  cases b
  · simp [bitAt]
  · by_cases h : j = i
    · subst h; simp [bitAt]
    · by_cases h' : j < i
      · simp [bitAt, h, h']
      · simp [bitAt, h, h', show j - i ≠ 0 by omega]

/-- The fields of a word packed again: the word with its reserved bits cleared. -/
theorem packWord_fields (w : Word) :
    packWord (bitOf w 8) (opField w) (bitOf w 4) (bitOf w 5) = w &&& 0x00000137#32 := by
  refine BitVec.eq_of_getLsbD_eq fun j hj => ?_
  simp only [packWord, BitVec.getLsbD_or, bitAt_getLsbD, BitVec.getLsbD_and, bitOf, opField]
  interval_cases j <;> simp

/-- An OP value is what its number says. -/
theorem op_eq {op : BitVec 3} {n : Nat} (h : op.toNat = n) : op = BitVec.ofNat 3 n := by
  subst h; simp

/-- The decoder's instruction carries the three fields, and only START = 1 selects a command. -/
theorem encode_decodeWord (w : Word) :
    encode (decodeWord w) = packWord (bitOf w 8) (opField w) (bitOf w 4) (bitOf w 5) := by
  unfold decodeWord
  by_cases h8 : bitOf w 8 = true
  · rw [if_pos h8, h8]
    unfold commandOf
    split
    · rename_i h; rw [op_eq h]; rfl
    · rename_i h; rw [op_eq h]; rfl
    · rename_i h; rw [op_eq h]; rfl
    · rename_i h; rw [op_eq h]; rfl
    · rfl
  · rw [if_neg h8, Bool.not_eq_true _ |>.mp h8]; rfl

end Sys2Proof
end

