-- ==== Sys2Proof/Laws/Engine.lean ====
section
/-! SUPPORT. What the engine's turns can do: the CHECK step, the RUN step, and the whole of a command with no other
input coming. -/

namespace Sys2Proof.Machine

/-! ## Runs -/

theorem runs_zero (s t : State) : Runs 0 s t ↔ t = s := by
  show Host.Outcome.next s = .next t ↔ t = s
  exact ⟨fun h => by cases h; rfl, fun h => by rw [h]⟩

theorem runs_succ (n : Nat) (s t : State) : Runs (n + 1) s t ↔ ∃ u, step s = .next u ∧ Runs n u t := by
  refine (Eq.congr_left (Host.Core.run.eq_2 core s n)).trans ?_
  unfold Runs
  cases h : step s with
  | next u => rw [show core.step s = .next u from h]; simp
  | fault r => rw [show core.step s = .fault r from h]; simp
  | refused r => rw [show core.step s = .refused r from h]; simp

theorem runs_one (s t : State) : Runs 1 s t ↔ step s = .next t := by
  rw [runs_succ]
  constructor
  · rintro ⟨u, h, hu⟩; rw [(runs_zero u t).1 hu, h]
  · exact fun h => ⟨t, h, (runs_zero t t).2 rfl⟩

theorem runs_add {n m : Nat} {s u t : State} (h : Runs n s u) (h' : Runs m u t) : Runs (n + m) s t := by
  induction n generalizing s with
  | zero => rw [(runs_zero s u).1 h] at h'; simpa using h'
  | succ n ih =>
    obtain ⟨v, hv, hn⟩ := (runs_succ n s u).1 h
    rw [Nat.add_right_comm]
    exact (runs_succ _ _ _).2 ⟨v, hv, ih hn⟩

/-- A run is determined by its start and length. -/
theorem runs_unique {n : Nat} {s t u : State} (h : Runs n s t) (h' : Runs n s u) : t = u := by
  unfold Runs at h h'
  rw [h] at h'
  injection h'

/-! ## The step by the next input -/

theorem step_nil {s : State} (h : s.pending = []) : step s = engineStep s := by simp [step, h]

theorem step_engine {s : State} {rest : List Event} (h : s.pending = .engine :: rest) :
    step s = engineStep { s with pending := rest } := by simp [step, h]

theorem step_bus {s : State} {q : Request} {rest : List Event} (h : s.pending = .bus q :: rest) :
    step s = transact q { s with pending := rest } := by simp [step, h]

theorem step_reset {s : State} {q : Option Request} {rest : List Event} (h : s.pending = .reset q :: rest) :
    step s = .next { s with pending := rest }.resetStep := by simp [step, h]

theorem engineStep_idle {s : State} (h : s.phase = .idle) : engineStep s = .next s := by simp [engineStep, h]

theorem engineStep_check {s : State} (h : s.phase = .check) : engineStep s = .next s.check.conclude := by
  simp [engineStep, h, checkStep]

/-- An idle machine with nothing to come stays as it is. -/
theorem runs_idle {s : State} (hp : s.phase = .idle) (h : s.pending = []) (n : Nat) : Runs n s s := by
  induction n with
  | zero => exact (runs_zero s s).2 rfl
  | succ n ih => exact (runs_succ n s s).2 ⟨s, by rw [step_nil h, engineStep_idle hp], ih⟩

/-- Where a machine settles is determined by where it is idle with nothing to come. -/
theorem settles_unique {s t u : State} {n : Nat} (h : Settles s t) (hn : Runs n s u) (hu : u.phase = .idle)
    (hq : u.pending = []) : t = u := by
  obtain ⟨m, hm, ht, htp⟩ := h
  have h1 := runs_add hm (runs_idle ht htp n)
  have h2 := runs_add hn (runs_idle hu hq m)
  rw [Nat.add_comm m n] at h1
  exact runs_unique h1 h2

/-! ## Chunks -/

/-- The chunk of a legal command, as a total function. -/
def State.chunkAt (s : State) (i : Nat) : Block := (s.chunk i).getD (Vector.replicate 16 0#8)

theorem State.chunk_eq_some {s : State} (h : s.lop.toNat < 4) (i : Nat) : s.chunk i = some (s.chunkAt i) := by
  have h' : s.lop.toNat = 0 ∨ s.lop.toNat = 1 ∨ s.lop.toNat = 2 ∨ s.lop.toNat = 3 := by omega
  rcases h' with h | h | h | h <;> simp [State.chunkAt, State.chunk, h]

/-- What a chunk depends on: the latched command, the lengths, the pad byte, IN_BUF and the key (R84). -/
theorem State.chunk_congr {s t : State} (h1 : t.lop = s.lop) (h2 : t.llen = s.llen) (h3 : t.olen = s.olen)
    (h4 : t.padb = s.padb) (h5 : t.inByte = s.inByte) (h6 : t.key = s.key) (i : Nat) : t.chunk i = s.chunk i := by
  unfold State.chunk encodeChunk decodeChunk encryptChunk decryptChunk State.inputLength
  rw [h1, h2, h3, h4, h5, State.keyBytes_congr h6, State.inBlock_congr h5]

/-- Output byte `k` of ENCODE (R95). -/
theorem chunkAt_encode {s : State} (h : s.lop = 0#3) (k : Nat) :
    (s.chunkAt (k / 16))[k % 16]'(by omega) = if k < s.inputLength then s.inByte k else s.padb := by
  have e : 16 * (k / 16) + k % 16 = k := by omega
  simp [State.chunkAt, State.chunk, h, encodeChunk, e]

/-- Output byte `k` of DECODE (R99). -/
theorem chunkAt_decode {s : State} (h : s.lop = 1#3) (k : Nat) :
    (s.chunkAt (k / 16))[k % 16]'(by omega) = if k < s.olen.toNat then s.inByte k else 0#8 := by
  have e : 16 * (k / 16) + k % 16 = k := by omega
  simp [State.chunkAt, State.chunk, h, decodeChunk, e]

/-- Output chunk `i` of ENCRYPT (R110). -/
theorem chunkAt_encrypt {s : State} (h : s.lop = 2#3) (i : Nat) :
    s.chunkAt i = Config.enc s.keyBytes (s.inBlock i) := by
  simp [State.chunkAt, State.chunk, h, encryptChunk]

/-- Output chunk `i` of DECRYPT (R110). -/
theorem chunkAt_decrypt {s : State} (h : s.lop = 3#3) (i : Nat) :
    s.chunkAt i = Config.dec s.keyBytes (s.inBlock i) := by
  simp [State.chunkAt, State.chunk, h, decryptChunk]

/-! ## The RUN step -/

theorem runStep_eq {s : State} (hl : s.lop.toNat < 4) (hi : s.blkIdx.toNat < s.nblk.toNat)
    (hc : 16 * s.nblk.toNat ≤ s.cap) :
    runStep s = .next (s.putChunk s.blkIdx.toNat (s.chunkAt s.blkIdx.toNat)) := by
  have h1 : s.chunkInRange s.blkIdx.toNat = true := by
    simp [State.chunkInRange, hi]; omega
  simp [runStep, h1, State.chunk_eq_some hl]

/-- Everything a RUN step that answers a next state did. -/
theorem runStep_spec {s t : State} (h : runStep s = .next t) :
    ∃ c, s.chunk s.blkIdx.toNat = some c ∧ s.blkIdx.toNat < s.nblk.toNat ∧ 16 * s.blkIdx.toNat + 16 ≤ s.cap ∧
      t = s.putChunk s.blkIdx.toNat c := by
  unfold runStep at h
  simp only at h
  split at h
  · rename_i h1
    simp only [State.chunkInRange, Bool.and_eq_true, decide_eq_true_eq] at h1
    split at h
    · rename_i c hc
      exact ⟨c, hc, h1.1, h1.2, by cases h; rfl⟩
    · cases h
  · cases h

/-- Everything a turn of the engine that answers a next state did. -/
theorem engineStep_spec {s t : State} (h : engineStep s = .next t) :
    (s.phase = .idle ∧ t = s) ∨ (s.phase = .check ∧ t = s.check.conclude) ∨
      (s.phase = .run ∧ runStep s = .next t) := by
  cases hp : s.phase with
  | idle => rw [engineStep_idle hp] at h; cases h; exact .inl ⟨rfl, rfl⟩
  | check => rw [engineStep_check hp] at h; cases h; exact .inr (.inl ⟨rfl, rfl⟩)
  | run => exact .inr (.inr ⟨rfl, by simpa [engineStep, hp] using h⟩)

/-- A state in RUN whose remaining chunks can all be written. -/
structure RunReady (s : State) : Prop where
  phase : s.phase = .run
  pending : s.pending = []
  lop : s.lop.toNat < 4
  progress : s.blkIdx.toNat < s.nblk.toNat
  fits : 16 * s.nblk.toNat ≤ s.cap

/-- The RUN phase from its chunk on: exactly the remaining chunks are written, then the command finishes. -/
theorem run_phase {s : State} (h : RunReady s) :
    ∃ m : Memory, Runs (s.nblk.toNat - s.blkIdx.toNat) s
        ((s.withOutput m s.nblk).finish .none) ∧
      (∀ n, n < s.nblk.toNat - s.blkIdx.toNat → ∃ u, Runs n s u ∧ u.busy = true) ∧
      (∀ k, m.read k = if 16 * s.blkIdx.toNat ≤ k ∧ k < 16 * s.nblk.toNat
        then some ((s.chunkAt (k / 16))[k % 16]'(by omega)) else s.outBuf.read k) := by
  obtain ⟨d, hd⟩ : ∃ d, s.nblk.toNat - s.blkIdx.toNat = d + 1 := ⟨_, (Nat.succ_pred_eq_of_pos (by have := h.progress; omega)).symm⟩
  induction d generalizing s with
  | zero =>
    have hb : s.blkIdx.toNat + 1 = s.nblk.toNat := by omega
    refine ⟨s.outBuf.writeBytes (16 * s.blkIdx.toNat) (s.chunkAt s.blkIdx.toNat).toList, ?_, ?_, ?_⟩
    · rw [hd, runs_one, step_nil h.pending, engineStep, h.phase]
      simp only
      rw [runStep_eq h.lop h.progress h.fits, State.putChunk, if_pos hb, hb, BitVec.ofNat_toNat, BitVec.setWidth_eq]
      rfl
    · intro n hn
      rw [hd] at hn
      obtain rfl : n = 0 := by omega
      exact ⟨s, (runs_zero s s).2 rfl, State.busy_eq_true.2 (by simp [h.phase])⟩
    · intro k
      rw [Memory.read_writeChunk]
      by_cases hk : 16 * s.blkIdx.toNat ≤ k ∧ k < 16 * s.nblk.toNat
      · have e1 : k / 16 = s.blkIdx.toNat := by omega
        rw [dif_pos (by omega), if_pos hk]
        simp only [e1]
        congr 1; congr 1; omega
      · rw [dif_neg (by omega), if_neg hk]
  | succ d ih =>
    have hb : s.blkIdx.toNat + 1 ≠ s.nblk.toNat := by omega
    have hlt := s.nblk.isLt
    let u := s.putChunk s.blkIdx.toNat (s.chunkAt s.blkIdx.toNat)
    have hu : u = { s with
        outBuf := s.outBuf.writeBytes (16 * s.blkIdx.toNat) (s.chunkAt s.blkIdx.toNat).toList
        blkIdx := BitVec.ofNat 32 (s.blkIdx.toNat + 1) } := by
      show s.putChunk _ _ = _
      rw [State.putChunk, if_neg hb]
    have hub : u.blkIdx.toNat = s.blkIdx.toNat + 1 := by
      rw [hu]; exact toNat_ofNat32 (by omega)
    have hun : u.nblk = s.nblk := by rw [hu]
    have hstep : step s = .next u := by
      rw [step_nil h.pending, engineStep, h.phase]
      exact runStep_eq h.lop h.progress h.fits
    have hur : RunReady u := by
      refine ⟨?_, ?_, ?_, ?_, ?_⟩
      · rw [hu]; exact h.phase
      · rw [hu]; exact h.pending
      · rw [hu]; exact h.lop
      · rw [hub, hun]; omega
      · rw [hun, State.cap_congr (s := s) (by rw [hu])]; exact h.fits
    obtain ⟨m, hm, hbusy, hread⟩ := ih hur (by rw [hub, hun]; omega)
    have hlen : u.nblk.toNat - u.blkIdx.toNat = d + 1 := by rw [hub, hun]; omega
    have hch : ∀ i, u.chunkAt i = s.chunkAt i := fun i => by
      unfold State.chunkAt
      rw [State.chunk_congr (s := s) (by rw [hu]) (by rw [hu]) (by rw [hu]) (by rw [hu])
        (State.inByte_congr (by rw [hu]) (by rw [hu])) (by rw [hu])]
    refine ⟨m, ?_, ?_, ?_⟩
    · rw [hd, runs_succ]
      refine ⟨u, hstep, ?_⟩
      rw [hlen] at hm
      have e : u.withOutput m u.nblk = s.withOutput m s.nblk := by rw [hu]; rfl
      rw [e] at hm
      exact hm
    · intro n hn
      cases n with
      | zero => exact ⟨s, (runs_zero s s).2 rfl, State.busy_eq_true.2 (by simp [h.phase])⟩
      | succ n =>
        obtain ⟨v, hv, hvb⟩ := hbusy n (by omega)
        exact ⟨v, (runs_succ n s v).2 ⟨u, hstep, hv⟩, hvb⟩
    · intro k
      rw [hread k]
      simp only [hub, hun, hch]
      have hrw : u.outBuf.read k = if h : 16 * s.blkIdx.toNat ≤ k ∧ k < 16 * s.blkIdx.toNat + 16 then
          some ((s.chunkAt s.blkIdx.toNat)[k - 16 * s.blkIdx.toNat]'(by omega)) else s.outBuf.read k := by
        rw [hu]; exact Memory.read_writeChunk _ _ _ _
      rw [hrw]
      by_cases h1 : 16 * (s.blkIdx.toNat + 1) ≤ k ∧ k < 16 * s.nblk.toNat
      · rw [if_pos h1, if_pos (by omega)]
      · rw [if_neg h1]
        by_cases h2 : 16 * s.blkIdx.toNat ≤ k ∧ k < 16 * s.blkIdx.toNat + 16
        · have e1 : k / 16 = s.blkIdx.toNat := by omega
          rw [dif_pos h2, if_pos (by omega)]
          simp only [e1]
          congr 1; congr 1; omega
        · rw [dif_neg h2, if_neg (by omega)]

/-! ## What the CHECK step is, and what it can change -/

theorem check_encode {s : State} (h : s.lop = 0#3) : s.check = encodeCheck s := by simp [State.check, h]
theorem check_decode {s : State} (h : s.lop = 1#3) : s.check = decodeCheck s := by simp [State.check, h]
theorem check_encrypt {s : State} (h : s.lop = 2#3) : s.check = ecbCheck s := by simp [State.check, h]
theorem check_decrypt {s : State} (h : s.lop = 3#3) : s.check = ecbCheck s := by simp [State.check, h]
theorem check_reserved {s : State} (h : 4 ≤ s.lop.toNat) : s.check = .fail .badOp s := by
  unfold State.check reservedCheck
  split <;> first | omega | rfl

/-- A check that fails changes NOSTRIP at most; one that passes changes the lengths, the pad byte and NOSTRIP at
most. -/
theorem check_frame (s : State) :
    (∃ c n, s.check = .fail c { s with nostrip := n }) ∨
      (∃ olen nblk padb n, s.check = .pass { s with olen := olen, nblk := nblk, padb := padb, nostrip := n }) := by
  unfold State.check encodeCheck decodeCheck decodeInvalidTail ecbCheck reservedCheck
  simp only
  repeat' split
  all_goals first | exact .inl ⟨_, _, rfl⟩ | exact .inr ⟨_, _, _, _, rfl⟩

/-- What no turn of the engine changes (R56). -/
structure EngineKept (s t : State) : Prop where
  inputs : InputsKept s t
  ctrlOp : t.ctrlOp = s.ctrlOp
  ctrlPadErr : t.ctrlPadErr = s.ctrlPadErr
  ctrlPadChk : t.ctrlPadChk = s.ctrlPadChk
  lop : t.lop = s.lop
  lperr : t.lperr = s.lperr
  lpchk : t.lpchk = s.lpchk
  llen : t.llen = s.llen
  resp : t.resp = s.resp

theorem finish_kept (s : State) (c : ErrCode) : EngineKept s (s.finish c) := by
  constructor <;> (try constructor) <;> simp

/-- A turn of the engine keeps all of these. -/
theorem engineStep_kept {s t : State} (h : engineStep s = .next t) : EngineKept s t := by
  rcases engineStep_spec h with ⟨-, rfl⟩ | ⟨-, rfl⟩ | ⟨-, h⟩
  · exact ⟨⟨rfl, rfl, rfl, rfl, rfl⟩, rfl, rfl, rfl, rfl, rfl, rfl, rfl, rfl⟩
  · rcases check_frame s with ⟨c, n, h⟩ | ⟨a, b, c, n, h⟩ <;> rw [h] <;> simp only [Verdict.conclude]
    · constructor <;> (try constructor) <;> simp
    · split <;> constructor <;> (try constructor) <;> simp
  · obtain ⟨c, -, -, -, rfl⟩ := runStep_spec h
    constructor <;> (try constructor) <;> simp

/-! ## The engine reads neither the inputs to come nor the last response (R55, R60) -/

/-- The state with other inputs to come and another last response. -/
def State.withInputs (s : State) (p : List Event) (r : Option Response) : State := { s with pending := p, resp := r }

theorem finish_withInputs (s : State) (c : ErrCode) (p : List Event) (r : Option Response) :
    (s.withInputs p r).finish c = (s.finish c).withInputs p r := by
  show (if s.ecbLatched = true then _ else _) = State.withInputs (if s.ecbLatched = true then _ else _) p r
  split <;> cases c <;> rfl

/-- A verdict for the state with other inputs. -/
def Verdict.withInputs (v : Verdict) (p : List Event) (r : Option Response) : Verdict :=
  match v with
  | .fail c t => .fail c (t.withInputs p r)
  | .pass t => .pass (t.withInputs p r)

theorem encodeCheck_withInputs (s : State) (p : List Event) (r : Option Response) :
    encodeCheck (s.withInputs p r) = (encodeCheck s).withInputs p r := by
  show (if s.cap ≤ s.inputLength then _ else _) = Verdict.withInputs (if s.cap ≤ s.inputLength then _ else _) p r
  split <;> rfl

theorem decodeInvalidTail_withInputs (s : State) (p : List Event) (r : Option Response) :
    decodeInvalidTail (s.withInputs p r) = (decodeInvalidTail s).withInputs p r := by
  show (if s.lperr = true then _ else _) = Verdict.withInputs (if s.lperr = true then _ else _) p r
  split <;> rfl

theorem decodeCheck_withInputs (s : State) (p : List Event) (r : Option Response) :
    decodeCheck (s.withInputs p r) = (decodeCheck s).withInputs p r := by
  show (if s.cap < s.inputLength then _ else if s.inputLength = 0 then _
      else if tailValid s.inByte s.inputLength (s.inByte (s.inputLength - 1)) s.lpchk = true then _ else _) =
    Verdict.withInputs (if s.cap < s.inputLength then _ else if s.inputLength = 0 then _
      else if tailValid s.inByte s.inputLength (s.inByte (s.inputLength - 1)) s.lpchk = true then _ else _) p r
  split
  · rfl
  · split
    · rfl
    · split
      · rfl
      · exact decodeInvalidTail_withInputs s p r

theorem ecbCheck_withInputs (s : State) (p : List Event) (r : Option Response) :
    ecbCheck (s.withInputs p r) = (ecbCheck s).withInputs p r := by
  show (if s.cap < s.inputLength then _ else if s.inputLength % 16 ≠ 0 then _
      else if (!s.keyLoaded) = true then _ else _) =
    Verdict.withInputs (if s.cap < s.inputLength then _ else if s.inputLength % 16 ≠ 0 then _
      else if (!s.keyLoaded) = true then _ else _) p r
  split
  · rfl
  · split
    · rfl
    · split <;> rfl

theorem check_withInputs (s : State) (p : List Event) (r : Option Response) :
    (s.withInputs p r).check = s.check.withInputs p r := by
  show (match s.lop.toNat with | 0 => _ | 1 => _ | 2 => _ | 3 => _ | _ => _) =
    Verdict.withInputs (match s.lop.toNat with | 0 => _ | 1 => _ | 2 => _ | 3 => _ | _ => _) p r
  split
  · exact encodeCheck_withInputs s p r
  · exact decodeCheck_withInputs s p r
  · exact ecbCheck_withInputs s p r
  · exact ecbCheck_withInputs s p r
  · rfl

theorem conclude_withInputs (v : Verdict) (p : List Event) (r : Option Response) :
    (v.withInputs p r).conclude = v.conclude.withInputs p r := by
  cases v with
  | fail c t => exact finish_withInputs t c p r
  | pass t =>
    show (if t.nblk = 0#32 then _ else _) = State.withInputs (if t.nblk = 0#32 then _ else _) p r
    split
    · exact finish_withInputs t _ p r
    · rfl

/-- A turn of the engine goes the same way whatever inputs are to come and whatever was answered last. -/
theorem engineStep_withInputs {s t : State} (h : engineStep s = .next t) (p : List Event) (r : Option Response) :
    engineStep (s.withInputs p r) = .next (t.withInputs p r) := by
  rcases engineStep_spec h with ⟨hp, rfl⟩ | ⟨hp, rfl⟩ | ⟨hp, h⟩
  · exact engineStep_idle hp
  · rw [engineStep_check (show (s.withInputs p r).phase = .check from hp), check_withInputs, conclude_withInputs]
  · obtain ⟨c, hc, hi, hf, rfl⟩ := runStep_spec h
    have hr : (s.withInputs p r).chunkInRange (s.withInputs p r).blkIdx.toNat = true := by
      show (decide (s.blkIdx.toNat < s.nblk.toNat) && decide (16 * s.blkIdx.toNat + 16 ≤ s.cap)) = true
      simp [hi, hf]
    have hc' : (s.withInputs p r).chunk (s.withInputs p r).blkIdx.toNat = some c := hc
    rw [engineStep, show (s.withInputs p r).phase = .run from hp]
    simp only [runStep, hr, if_true, hc']
    congr 1
    show (if s.blkIdx.toNat + 1 = s.nblk.toNat then _ else _) =
      State.withInputs (if s.blkIdx.toNat + 1 = s.nblk.toNat then _ else _) p r
    split
    · exact finish_withInputs { s with
        outBuf := s.outBuf.writeBytes (16 * s.blkIdx.toNat) c.toList
        blkIdx := BitVec.ofNat 32 (s.blkIdx.toNat + 1) } _ p r
    · rfl

/-! ## A command from its CHECK step on -/

/-- A failed check: the command ends in one turn. -/
theorem check_fails {s v : State} {code : ErrCode} (hp : s.phase = .check) (hq : s.pending = [])
    (h : s.check = .fail code v) : Runs 1 s (v.finish code) := by
  rw [runs_one, step_nil hq, engineStep_check hp, h]; rfl

/-- A passed check with no chunk to produce: the command ends in one turn. -/
theorem check_passes_empty {s v : State} (hp : s.phase = .check) (hq : s.pending = []) (h : s.check = .pass v)
    (hn : v.nblk = 0#32) : Runs 1 s (v.finish .none) := by
  rw [runs_one, step_nil hq, engineStep_check hp, h, Verdict.conclude, if_pos hn]

/-- A passed check with chunks to produce: `1 + h.NBLK` turns, every chunk written (R88). -/
theorem check_passes {s v : State} (hp : s.phase = .check) (hq : s.pending = []) (h : s.check = .pass v)
    (hvp : v.pending = []) (hl : v.lop.toNat < 4) (hb : v.blkIdx = 0#32) (hn : 0 < v.nblk.toNat)
    (hc : 16 * v.nblk.toNat ≤ v.cap) :
    ∃ m : Memory, Runs (1 + v.nblk.toNat) s ((v.enterRun.withOutput m v.nblk).finish .none) ∧
      (∀ n, n < 1 + v.nblk.toNat → ∃ u, Runs n s u ∧ u.busy = true) ∧
      (∀ k, m.read k = if k < 16 * v.nblk.toNat then some ((v.chunkAt (k / 16))[k % 16]'(by omega))
        else v.outBuf.read k) := by
  have hn0 : v.nblk ≠ 0#32 := fun e => by simp [e] at hn
  have hstep : step s = .next v.enterRun := by
    rw [step_nil hq, engineStep_check hp, h, Verdict.conclude, if_neg hn0]
  have hb0 : v.enterRun.blkIdx.toNat = 0 := by simp [hb]
  have hr : RunReady v.enterRun := ⟨rfl, hvp, hl, by rw [hb0]; exact hn, hc⟩
  obtain ⟨m, hm, hbusy, hread⟩ := run_phase hr
  rw [hb0, Nat.sub_zero] at hm hbusy
  refine ⟨m, ?_, ?_, ?_⟩
  · rw [Nat.add_comm, runs_succ]
    exact ⟨_, hstep, hm⟩
  · intro n hn'
    cases n with
    | zero => exact ⟨s, (runs_zero s s).2 rfl, State.busy_eq_true.2 (by simp [hp])⟩
    | succ n =>
      obtain ⟨u, hu, hub⟩ := hbusy n (by rw [enterRun_nblk]; omega)
      exact ⟨u, (runs_succ n s u).2 ⟨_, hstep, hu⟩, hub⟩
  · intro k
    have hch : ∀ i, v.enterRun.chunkAt i = v.chunkAt i := fun i => by
      unfold State.chunkAt
      rw [State.chunk_congr (s := v) (t := v.enterRun) rfl rfl rfl rfl rfl rfl]
    rw [hread k, hb0]
    simp [hch]

end Sys2Proof.Machine
end

