-- ==== Sys2Proof/Laws/Step.lean ====
section
/-! SUPPORT. What a step does with its next input, and everything a step can do. -/

namespace Sys2Proof.Machine

/-! ## The step on a given next input -/

theorem step_with_bus (s : State) (q : Request) (rest : List Event) :
    step { s with pending := .bus q :: rest } = transact q { s with pending := rest } := rfl

theorem step_with_engine (s : State) (rest : List Event) :
    step { s with pending := .engine :: rest } = engineStep { s with pending := rest } := rfl

theorem step_with_reset (s : State) (q : Option Request) (rest : List Event) :
    step { s with pending := .reset q :: rest } = .next { s with pending := rest }.resetStep := rfl

/-- What a step did, in the three ways it can go. -/
inductive Stepped (s t : State) : Prop where
  | engine (hq : s.pending = [] ∨ s.pending = .engine :: s.pending.tail)
      (h : engineStep { s with pending := s.pending.tail } = .next t)
  | bus (q : Request) (rest : List Event) (hq : s.pending = .bus q :: rest)
      (h : Transacted q { s with pending := rest } t)
  | reset (q : Option Request) (rest : List Event) (hq : s.pending = .reset q :: rest)
      (h : t = { s with pending := rest }.resetStep)

/-- Everything a step that answers a next state did. -/
theorem step_spec {s t : State} (h : step s = .next t) : Stepped s t := by
  cases hq : s.pending with
  | nil =>
    rw [step_nil hq] at h
    exact .engine (.inl hq) (by rw [show ({ s with pending := s.pending.tail } : State) = s by rw [hq, List.tail_nil, ← hq]]; exact h)
  | cons e rest =>
    cases e with
    | engine => rw [step_engine hq] at h; exact .engine (.inr (by rw [hq, List.tail_cons])) (by rw [hq, List.tail_cons]; exact h)
    | bus q => rw [step_bus hq] at h; exact .bus q rest hq (transact_spec h)
    | reset q => rw [step_reset hq] at h; cases h; exact .reset q rest hq rfl

/-! ## Transactions on the registers -/

theorem State.regionOf_register {s : State} {q : Request} {r : Reg} (h : q.off.toNat < 0x100)
    (hr : regAt (q.off.toNat / 4) = some r) : s.regionOf q = .register r := regionAt_eq_register.2 ⟨h, hr⟩

theorem State.regionOf_inBuf {s : State} {q : Request} {k : Nat} (h : q.off.toNat = 0x1000000 + k) (hk : k < s.cap) :
    s.regionOf q = .inBuf k := regionAt_eq_inBuf.2 ⟨h, hk, by have := s.cap_le; omega⟩

theorem State.regionOf_outBuf {s : State} {q : Request} {k : Nat} (h : q.off.toNat = 0x2000000 + k) (hk : k < s.cap) :
    s.regionOf q = .outBuf k := regionAt_eq_outBuf.2 ⟨h, hk, by have := s.cap_le; omega⟩

/-- While busy, a command word gets ERROR. -/
theorem exec_busy {s : State} (h : s.busy = true) (i : Instr) : exec i s = .next (s.busError .wr) := by
  cases i <;>
    simp [exec, execCfg, execEncode, execDecode, execEncrypt, execDecrypt, execReservedOp, configure, startCommand, h]

/-- The write of a command word to CTRL is the word's instruction, idle or busy (R71). -/
theorem transact_ctrlWrite (w : Word) (s : State) : transact (ctrlWrite w) s = exec (decodeWord w) s := by
  have hr : s.regionOf (ctrlWrite w) = .register .ctrl := State.regionOf_register (by simp [ctrlWrite]) (by simp [ctrlWrite, regAt])
  have ha : s.accepts (ctrlWrite w) = !s.busy := by
    unfold State.accepts
    rw [hr]
    simp [lockable, permits, ctrlWrite, Reg.access, Access.allows]
  cases hb : s.busy
  · rw [transact_okay (by rw [ha, hb]; rfl), hr]; rfl
  · rw [transact_error (by rw [ha, hb]; rfl), exec_busy hb]; rfl

/-- A word read of a readable register answers with its value, idle or busy (R48). -/
theorem transact_regRead {s : State} {q : Request} {r : Reg} {w : Word} (hd : q.dir = .rd) (hs : q.size = 4)
    (ho : q.off.toNat < 0x100) (ha : q.off.toNat % 4 = 0) (hr : regAt (q.off.toNat / 4) = some r)
    (hv : s.regValue r = some w) : transact q s = .next (s.okayRead w) := by
  have hg : s.regionOf q = .register r := State.regionOf_register ho hr
  have hacc : s.accepts q = true := by
    rw [State.accepts_iff, hg]
    cases r <;> simp_all [lockable, permits, Reg.access, Access.allows, State.regValue]
  rw [transact_okay hacc, hg]
  unfold perform
  simp [hd, readRegister, hv]

end Sys2Proof.Machine
end

