-- ==== Sys2Proof/Laws/HostAsm.lean ====
section
/-! SUPPORT. What the transactions of the host's assembler do to an idle engine, and that `copy` (R80) leaves what
`CopiedOut` says. -/

namespace Sys2Proof.Machine

/-- A buffer offset fits the 26 bits of a request. -/
theorem toNat_ofNat26 {n : Nat} (h : n < 67108864) : (BitVec.ofNat 26 n).toNat = n := by
  simp [BitVec.toNat_ofNat]; omega

/-! ## Single statements on an idle engine -/

/-- `setlen n` (R80). -/
theorem transact_setlen {s : State} (h : s.phase = .idle) (w : Word) :
    transact (setlen w).request s = .next (s.writeInLen w).okayWrite := by
  have ho : (setlen w).request.off.toNat = 12 := rfl
  have hg : s.regionOf (setlen w).request = .register .inLen :=
    State.regionOf_register (by omega) (regAt_eq_inLen.2 (by omega))
  have ha : s.accepts (setlen w).request = true := by
    rw [State.accepts_iff, hg, State.busy_eq_false.2 h]
    exact ⟨nofun, by simp [permits, setlen, Stmt.request, offInLen, Reg.access, Access.allows]⟩
  rw [transact_okay ha, hg]; rfl

/-- `rd32 OUT+k` at an aligned `k`. -/
theorem transact_rdOut {s : State} (h : s.phase = .idle) {k : Nat} (hk : k < s.cap) (ha : k % 4 = 0)
    (e : Option Word) (err : Bool) :
    transact (Stmt.rd32 (offOut k) e err).request s = .next (s.okayRead (readData s.maskedOutByte 4 k)) := by
  have hc := s.cap_le
  have ho : (offOut k).toNat = 0x2000000 + k := toNat_ofNat26 (by omega)
  have hg : s.regionOf (Stmt.rd32 (offOut k) e err).request = .outBuf k := State.regionOf_outBuf ho hk
  have hacc : s.accepts (Stmt.rd32 (offOut k) e err).request = true := by
    rw [State.accepts_iff, hg, State.busy_eq_false.2 h]
    simp [permits, Stmt.request, ho, ha, Nat.add_mod]
  rw [transact_okay hacc, hg]; rfl

/-- `wr32 IN+k` at an aligned `k`. -/
theorem transact_wrIn {s : State} (h : s.phase = .idle) {k : Nat} (hk : k < s.cap) (ha : k % 4 = 0) (w : Word)
    (err : Bool) :
    transact (Stmt.wr32 (offIn k) w err).request s = .next (s.writeIn k (bytesOfWord w)).okayWrite := by
  have hc := s.cap_le
  have ho : (offIn k).toNat = 0x1000000 + k := toNat_ofNat26 (by omega)
  have hg : s.regionOf (Stmt.wr32 (offIn k) w err).request = .inBuf k := State.regionOf_inBuf ho hk
  have hacc : s.accepts (Stmt.wr32 (offIn k) w err).request = true := by
    rw [State.accepts_iff, hg, State.busy_eq_false.2 h]
    simp [permits, Stmt.request, ho, ha, Nat.add_mod]
  rw [transact_okay hacc, hg]; rfl

/-- An IN_BUF byte after a sequence of bytes was written from `k` on. -/
theorem State.inByte_writeIn (s : State) (k : Nat) (bs : List Byte) (a : Nat) : (s.writeIn k bs).inByte a =
    if h : k ≤ a ∧ a < k + bs.length then bs[a - k]'(by omega) else s.inByte a := by
  simp only [State.inByte, State.writeIn, Memory.read_writeBytes]
  by_cases h : k ≤ a ∧ a < k + bs.length
  · have h2 : a - k < bs.length := by omega
    rw [if_pos h, dif_pos h]; simp [h2]
  · rw [if_neg h, dif_neg h]

/-- The bytes of the word a host reads at `OUT+4m` are the masked output bytes there (R52, R54). -/
theorem State.outWord_bytes (s : State) (m j : Nat) (h : j < (bytesOfWord (s.outWord m)).length) :
    (bytesOfWord (s.outWord m))[j] = s.maskedOutByte (4 * m + j) := by
  have hb := byteOf_wordOfBytes (s.maskedOutByte (4 * m)) (s.maskedOutByte (4 * m + 1)) (s.maskedOutByte (4 * m + 2))
    (s.maskedOutByte (4 * m + 3))
  have hj : j < 4 := h
  interval_cases j
  · exact hb.1
  · exact hb.2.1
  · exact hb.2.2.1
  · exact hb.2.2.2

/-! ## `copy` -/

/-- The two statements of `copy` for the word at `4m`, the read expecting what R52 gives. -/
def State.copyWord (s : State) (m : Nat) : List Stmt :=
  [.rd32 (offOut (4 * m)) (some (s.outWord m)) false, .wr32 (offIn (4 * m)) (s.outWord m) false]

/-- Part of a `copy` from `s` has run: IN_BUF holds the first `n` output bytes, nothing else of the engine changed,
and `rest` is still to come. -/
structure CopiedSoFar (s u : State) (n : Nat) (rest : List Event) : Prop where
  eq : u = { s with inBuf := u.inBuf, pending := rest, resp := u.resp }
  bytes : ∀ a, a < n → u.inByte a = s.maskedOutByte a

/-- The two statements that copy the word at `4m`: the read sees it, and the write puts its bytes in IN_BUF. -/
theorem copy_word {s u : State} {m : Nat} {rest : List Event} (hp : s.phase = .idle) (hm : 4 * m < s.cap)
    (h : CopiedSoFar s u (4 * m) (hostEvents (s.copyWord m) ++ rest)) :
    ∃ v t, step u = .next v ∧ v.resp = some ⟨.okay, some (s.outWord m)⟩ ∧ step v = .next t ∧
      CopiedSoFar s t (4 * (m + 1)) rest := by
  let ws := hostEvents [.wr32 (offIn (4 * m)) (s.outWord m) false] ++ rest
  let v := State.okayRead { u with pending := ws } (s.outWord m)
  let t := State.okayWrite (State.writeIn { v with pending := rest } (4 * m) (bytesOfWord (s.outWord m)))
  have hup : u.phase = .idle := by rw [h.eq]; exact hp
  have huc : u.cap = s.cap := State.cap_congr (by rw [h.eq])
  have hur : ({ u with pending := ws } : State).maskedOutByte = s.maskedOutByte := by rw [h.eq]; rfl
  have hq : u.pending = .bus (Stmt.rd32 (offOut (4 * m)) (some (s.outWord m)) false).request :: ws := by rw [h.eq]; rfl
  have h1 : step u = .next v := by
    rw [step_bus hq, transact_rdOut (s := { u with pending := ws }) hup (by exact huc ▸ hm) (by omega), hur]; rfl
  have h2 : step v = .next t := by
    rw [step_bus (s := v) (rest := rest) rfl]
    exact transact_wrIn (s := { v with pending := rest }) hup (by exact huc ▸ hm) (by omega) _ _
  refine ⟨v, t, h1, rfl, h2, ?_, fun a ha => ?_⟩
  · conv_lhs => simp only [t, v]; rw [h.eq]
    rfl
  · show (State.writeIn { v with pending := rest } (4 * m) (bytesOfWord (s.outWord m))).inByte a = _
    have hl : (bytesOfWord (s.outWord m)).length = 4 := rfl
    rw [State.inByte_writeIn]
    by_cases hn : 4 * m ≤ a
    · rw [dif_pos ⟨hn, by omega⟩, State.outWord_bytes, show 4 * m + (a - 4 * m) = a by omega]
    · rw [dif_neg (by omega)]; exact h.bytes a (by omega)

/-- The words from `m` on, `c` of them. -/
theorem copy_words {s : State} (hp : s.phase = .idle) {rest : List Event} (c : Nat) {u : State} {m : Nat}
    (hc : 4 * (m + c) ≤ s.cap)
    (h : CopiedSoFar s u (4 * m) (hostEvents ((List.range' m c).flatMap s.copyWord) ++ rest)) :
    ∃ t, Runs (2 * c) u t ∧ CopiedSoFar s t (4 * (m + c)) rest := by
  induction c generalizing u m with
  | zero => exact ⟨u, (runs_zero _ _).2 rfl, h⟩
  | succ c ih =>
    rw [List.range'_succ, List.flatMap_cons, hostEvents, List.map_append, List.append_assoc] at h
    obtain ⟨v, t, h1, -, h2, h3⟩ := copy_word hp (by omega) h
    obtain ⟨t', h4, h5⟩ := ih (m := m + 1) (by omega) h3
    refine ⟨t', (runs_succ (2 * c + 1) _ _).2 ⟨v, h1, (runs_succ _ _ _).2 ⟨t, h2, h4⟩⟩, ?_⟩
    rwa [show m + 1 + c = m + (c + 1) by omega] at h5

/-- `copy` of all the output bytes of an idle engine leaves what `CopiedOut` says, and changes nothing else but
IN_BUF, IN_LEN and the response (R80, R143). -/
theorem copyOut_copiedOut {s : State} (hp : s.phase = .idle) (hc : s.outLen.toNat ≤ s.cap) :
    ∃ t, Runs (copyOut s.outLen.toNat s.outWord).length
        { s with pending := hostEvents (copyOut s.outLen.toNat s.outWord) } t ∧ CopiedOut s t ∧
      t = { s with inBuf := t.inBuf, inLen := s.outLen, pending := [], resp := some ⟨.okay, none⟩ } := by
  have hmod := s.cap_mod
  let c := (s.outLen.toNat + 3) / 4
  let last : Stmt := setlen (BitVec.ofNat 32 s.outLen.toNat)
  have hev : hostEvents (copyOut s.outLen.toNat s.outWord) = 
      hostEvents ((List.range' 0 c).flatMap s.copyWord) ++ [.bus last.request] := by
    rw [copyOut, List.range_eq_range']; exact List.map_append
  have hlen : (copyOut s.outLen.toNat s.outWord).length = 2 * c + 1 := by simp [copyOut, c, Nat.mul_comm]
  rw [hev, hlen]
  obtain ⟨u, h1, h2⟩ := copy_words hp (rest := [.bus last.request]) c (m := 0)
    (u := { s with pending := hostEvents ((List.range' 0 c).flatMap s.copyWord) ++ [.bus last.request] }) (by omega)
    ⟨rfl, fun a ha => absurd ha (by omega)⟩
  have hup : u.phase = .idle := by rw [h2.eq]; exact hp
  have hw : BitVec.ofNat 32 s.outLen.toNat = s.outLen := by simp
  have h3 : step u = .next (State.writeInLen { u with pending := [] } s.outLen).okayWrite := by
    rw [step_bus (rest := []) (by rw [h2.eq]), transact_setlen (s := { u with pending := [] }) hup, hw]
  have ht : (State.writeInLen { u with pending := [] } s.outLen).okayWrite =
      { s with inBuf := u.inBuf, inLen := s.outLen, pending := [], resp := some ⟨.okay, none⟩ } := by
    conv_lhs => rw [h2.eq]
    rfl
  refine ⟨_, runs_add h1 ((runs_one _ _).2 h3), ?_, ht⟩
  rw [ht]
  refine ⟨hp, rfl, rfl, rfl, fun k hk => ?_⟩
  have := h2.bytes k (by omega)
  rw [h2.eq] at this
  exact this

end Sys2Proof.Machine
end

