-- ==== Sys2Proof/Laws/PerInstr.lean ====
section
/-! SUPPORT. What holds of every instruction as syntax, one lemma per constructor: its word sets no reserved bit,
and carries START exactly when the instruction is a command (R67, R71, R72). -/

namespace Sys2Proof.Laws.CanonicalWord

/-- The instruction's word has every reserved bit 0, and bit 8 set unless it is a CFG. -/
def Statement (i : Instr) : Prop :=
  encode i &&& 0x00000137#32 = encode i ∧ bitOf (encode i) 8 = decide (i.mnemonic ≠ "CFG")

theorem cfg (op : BitVec 3) (perr pchk : Bool) : Statement (.cfg op perr pchk) := by
  unfold Statement
  revert op perr pchk; decide

theorem encode (perr pchk : Bool) : Statement (.encode perr pchk) := by
  unfold Statement
  revert perr pchk; decide

theorem decode (perr pchk : Bool) : Statement (.decode perr pchk) := by
  unfold Statement
  revert perr pchk; decide

theorem encrypt (perr pchk : Bool) : Statement (.encrypt perr pchk) := by
  unfold Statement
  revert perr pchk; decide

theorem decrypt (perr pchk : Bool) : Statement (.decrypt perr pchk) := by
  unfold Statement
  revert perr pchk; decide

theorem reservedOp (op : BitVec 3) (perr pchk : Bool) : Statement (.reservedOp op perr pchk) := by
  unfold Statement
  revert op perr pchk; decide

end Sys2Proof.Laws.CanonicalWord
end

