-- ==== Sys2Proof/Tests/Slice0.lean ====
section
/-! SUPPORT. Tests: words written out from the encoding tables, one-step vectors of 95_test_vectors.md, and for each
obligation with hypotheses a state that meets them. The vectors take CAP = 4096. -/

namespace Sys2Proof.Tests

open Sys2Proof.Machine

/-! ## Helpers -/

/-- After reset, with CAP = 4096. -/
def fresh : State := { State.reset with capBlocks := 255 }

/-- Buffer bytes from offset 0 on. -/
def bytesAt (bs : List Byte) : Memory := (List.range bs.length).map fun k => (k, bs.getD k 0#8)

/-- Idle, with the input bytes and their count in IN_LEN. -/
def holding (bs : List Byte) : State := { fresh with inBuf := bytesAt bs, inLen := BitVec.ofNat 32 bs.length }

/-- A loaded key: key words 1 to 8. -/
def keyed (s : State) : State := { s with key := #v[1#32, 2#32, 3#32, 4#32, 5#32, 6#32, 7#32, 8#32], keyw := 0xFF#8 }

/-- The command of `op` has started. -/
def started (op : BitVec 3) (perr pchk : Bool) (s : State) : State := s.start op perr pchk

/-- The state a step answers, itself where it answers none. -/
def stepped (s : State) : State := match step s with | .next t => t | .fault _ => s | .refused _ => s

/-- The next input is a host transaction. -/
def asked (q : Request) (s : State) : State := { s with pending := [.bus q] }

/-! ## WellFormed: the one check -/

theorem test_reservedOp_of_legal_op_refused : (Instr.reservedOp 3#3 false false).wellFormed = false := by decide
theorem test_reservedOp_of_four_accepted : (Instr.reservedOp 4#3 true false).wellFormed = true := by decide

/-! ## Decode: words written out bit by bit from R67 and R73 -/

theorem test_decode_cfg_zero : decodeWord 0b00000000000000000000000000000000#32 = .cfg 0#3 false false := by decide
theorem test_decode_cfg_all_but_start :
    decodeWord 0b11111111111111111111111011111111#32 = .cfg 7#3 true true := by decide
theorem test_decode_encode : decodeWord 0b00000000000000000000000100000000#32 = .encode false false := by decide
theorem test_decode_encode_pads : decodeWord 0b00000000000000000000000100110000#32 = .encode true true := by decide
theorem test_decode_decode : decodeWord 0b00000000000000000000000100000001#32 = .decode false false := by decide
theorem test_decode_decode_err : decodeWord 0b00000000000000000000000100010001#32 = .decode true false := by decide
theorem test_decode_decode_chk : decodeWord 0b00000000000000000000000100100001#32 = .decode false true := by decide
theorem test_decode_encrypt : decodeWord 0b00000000000000000000000100000010#32 = .encrypt false false := by decide
theorem test_decode_encrypt_reserved_bits :
    decodeWord 0b11111111111111111111111111001010#32 = .encrypt false false := by decide
theorem test_decode_decrypt : decodeWord 0b00000000000000000000000100000011#32 = .decrypt false false := by decide
theorem test_decode_reservedOp : decodeWord 0b00000000000000000000000100000100#32 = .reservedOp 4#3 false false := by
  decide
theorem test_decode_reservedOp_seven :
    decodeWord 0b00000000000000000000000100110111#32 = .reservedOp 7#3 true true := by decide
theorem test_decode_bytes_lowest_first : decodeBytes [0x11#8, 0x01#8, 0#8, 0#8] = .ok (.decode true false) := by decide
theorem test_decode_three_bytes : decodeBytes [0x00#8, 0x01#8, 0#8] = .error .tooShort := by decide
theorem test_decode_five_bytes : decodeBytes [0x00#8, 0x01#8, 0#8, 0#8, 0#8] = .error .tooLong := by decide
theorem test_table_word : decodeTableWord 32 0x103 = some (.decrypt false false) := by decide

/-- R79: the encodings of the mnemonics. -/
theorem test_encode_words : encode (.encode false false) = 0x100#32 ∧ encode (.decode true true) = 0x131#32 ∧
    encode (.encrypt false false) = 0x102#32 ∧ encode (.decrypt false false) = 0x103#32 ∧
    encode (.cfg 7#3 true true) = 0x37#32 ∧ encode (.reservedOp 7#3 false false) = 0x107#32 := by decide

/-! ## One step each -/

/-- R86's example: CTRL reads 0x37 and STATUS is unchanged. -/
theorem test_cfg : (stepped (asked (ctrlWrite 0xFFFFFEFF#32) fresh)).ctrlWord = 0x37#32 ∧
    (stepped (asked (ctrlWrite 0xFFFFFEFF#32) fresh)).statusWord = 0x0#32 := by decide

/-- The first step after reset runs the table's word. -/
theorem test_first_step_after_reset :
    step (State.reset.withFetchWord 32 0x101) = exec (.decode false false) State.reset := by rfl

/-- R93's worked example, the CHECK step: `p = 13`, OLEN = 16, NBLK = 1. -/
theorem test_encode_check : (stepped (started 0#3 false false (holding [0x41#8, 0x42#8, 0x43#8]))).padb = 13#8 ∧
    (stepped (started 0#3 false false (holding [0x41#8, 0x42#8, 0x43#8]))).olen = 16#32 ∧
    (stepped (started 0#3 false false (holding [0x41#8, 0x42#8, 0x43#8]))).nblk = 1#32 := by decide

/-- The state before R93's worked example's RUN step. -/
def exampleRunning : State := { started 0#3 false false (holding [0x41#8, 0x42#8, 0x43#8]) with
  phase := .run, nblk := 1#32, olen := 16#32, padb := 13#8 }

/-- R93's worked example, the RUN step: 41 42 43, then 0D. -/
theorem test_encode_run : (stepped exampleRunning).outBuf.read 2 = some 0x43#8 ∧
    (stepped exampleRunning).outBuf.read 3 = some 0x0D#8 ∧ (stepped exampleRunning).outLen = 16#32 ∧
    (stepped exampleRunning).done = true := by decide

/-- V-DEC-6 with `err`: STATUS 0x36. -/
theorem test_decode_padding :
    (stepped (started 1#3 true false (holding [0x41#8, 0x41#8, 0x05#8]))).statusWord = 0x36#32 := by decide

/-- V-DEC-8: 41 42 43 02 02 strips to 3 bytes with both checks. -/
theorem test_decode_strips :
    (stepped (started 1#3 true true (holding [0x41#8, 0x42#8, 0x43#8, 0x02#8, 0x02#8]))).olen = 3#32 := by decide

/-- V-ECB-3: ALIGNMENT, STATUS 0x22, the key cleared. -/
theorem test_encrypt_alignment :
    (stepped (started 2#3 false false (keyed { fresh with inLen := 17#32 }))).statusWord = 0x22#32 := by decide

/-- V-ECB-5: KEY_LENGTH, STATUS 0x12. -/
theorem test_encrypt_key : (stepped (started 2#3 false false { fresh with inLen := 16#32 })).statusWord = 0x12#32 := by
  decide

/-- V-ECB-8: LENGTH outranks the others, STATUS 0x42. -/
theorem test_decrypt_length : (stepped (started 3#3 false false { fresh with inLen := 4097#32 })).statusWord = 0x42#32 := by
  decide

/-- V-ECB-7: ALIGNMENT outranks KEY_LENGTH, STATUS 0x22. -/
theorem test_decrypt_alignment : (stepped (started 3#3 false false { fresh with inLen := 17#32 })).statusWord = 0x22#32 := by
  decide

/-- R87's example: STATUS 0x52. -/
theorem test_reserved : (stepped (started 7#3 false false fresh)).statusWord = 0x52#32 := by decide

/-- V-BUS-4, V-BUS-8, V-BUS-18: byte access of a register, read of a key word, write of OUT_BUF. -/
theorem test_bus_errors : (stepped (asked ⟨.rd, 1, 0x000#26, 0#32⟩ fresh)).resp = some ⟨.error, some 0#32⟩ ∧
    (stepped (asked ⟨.rd, 4, 0x020#26, 0#32⟩ fresh)).resp = some ⟨.error, some 0#32⟩ ∧
    (stepped (asked ⟨.wr, 4, 0x2000000#26, 0#32⟩ fresh)).resp = some ⟨.error, none⟩ := by decide

/-- V-BUS-14, V-BUS-15: a word written, a byte of it read. -/
theorem test_bus_word_then_byte :
    (stepped (asked ⟨.rd, 1, 0x1000001#26, 0#32⟩ (stepped (asked ⟨.wr, 4, 0x1000000#26, 0x44332211#32⟩ fresh)))).resp =
      some ⟨.okay, some 0x22#32⟩ := by decide

/-- After V-DEC-7 with `dec`: the read of OUT+12 hides the stripped bytes. -/
theorem test_out_mask : (stepped (asked ⟨.rd, 4, 0x200000C#26, 0#32⟩
    { fresh with outBuf := bytesAt (List.replicate 16 0x41#8), outLen := 14#32 })).resp =
      some ⟨.okay, some 0x4141#32⟩ := by decide

/-! ## States that meet the hypotheses of the obligations -/

/-- What `n` steps lead to. -/
def after (n : Nat) (s : State) : State :=
  match Host.Core.run Sys2Proof.core n s with | .next t => t | .fault _ => s | .refused _ => s

/-- The state after the command word `w` was written to `s` and `n` steps were taken. -/
def commanded (n : Nat) (w : Word) (s : State) : State := after n { s with pending := [.bus (ctrlWrite w)] }

/-- Sixteen input bytes of 0x10: a whole pad block. -/
def padBlock : State := holding (List.replicate 16 0x10#8)

/-- A running ENCODE of an empty input. -/
def running : State :=
  { started 0#3 false false fresh with phase := .run, nblk := 1#32, olen := 16#32, padb := 16#8 }

theorem witness_StepRunsTheCommandWordWritten :
    (fresh.withFetchWord 32 0x100).pending = .bus (ctrlWrite 0x100#32) :: [] ∧
      decodeBytes (bytesOfWord 0x100#32) = .ok (.encode false false) ∧
      decodeTableWord 32 0x137 = some (.reservedOp 7#3 true true) := by decide

theorem witness_DecodeAndEncodeAgree : (Instr.reservedOp 4#3 false false).wellFormed = true ∧
    (Instr.reservedOp 7#3 false false).wellFormed = true ∧ (Instr.cfg 7#3 true true).wellFormed = true := by decide

theorem witness_ReservedWordBitsSelectNothing :
    0x00000100#32 &&& 0x00000137#32 = 0xFFFFFFC8#32 &&& 0x00000137#32 := by decide

theorem witness_CfgStoresItsThreeFields : fresh.phase = .idle ∧ (0xFFFFFEFF#32).getLsbD 8 = false := by decide

/-- One witness for each of the five commands, RESERVED_OP at both ends of its range. -/
theorem witness_CommandsMakeTheStartTransition : (fresh.phase = .idle ∧ (0x100#32).getLsbD 8 = true) ∧
    ∀ i op, (i, op) ∈ [(Instr.encode true true, 0#3), (.decode true true, 1#3), (.encrypt true true, 2#3),
      (.decrypt true true, 3#3), (.reservedOp 4#3 true true, 4#3), (.reservedOp 7#3 true true, 7#3)] →
    (i = .encode true true ∧ op = 0#3) ∨ (i = .decode true true ∧ op = 1#3) ∨ (i = .encrypt true true ∧ op = 2#3) ∨
      (i = .decrypt true true ∧ op = 3#3) ∨ (i = .reservedOp op true true ∧ 4 ≤ op.toNat) := by
  refine ⟨by decide, fun i op h => ?_⟩
  simp only [List.mem_cons, Prod.mk.injEq, List.not_mem_nil, or_false] at h
  rcases h with ⟨rfl, rfl⟩ | ⟨rfl, rfl⟩ | ⟨rfl, rfl⟩ | ⟨rfl, rfl⟩ | ⟨rfl, rfl⟩ | ⟨rfl, rfl⟩ <;> decide

theorem witness_BusyEngineTurnsCommandWordsAway :
    (started 0#3 false false fresh).phase ≠ .idle ∧ running.phase ≠ .idle := by decide

theorem witness_FirstOfTwoStartsWins : fresh.phase = .idle ∧
    (Instr.reservedOp 4#3 false false).wellFormed = true ∧
      (∀ op pe pc, Instr.reservedOp 4#3 false false ≠ .cfg op pe pc) := by
  exact ⟨by decide, by decide, fun _ _ _ h => by cases h⟩

/-- Both ends of both cases: L = 0, L = CAP - 1; L = CAP, L = 2^32 - 1; and words of the row. -/
theorem witness_EncodePadsTheInputOrReportsLength : fresh.phase = .idle ∧ fresh.pending = [] ∧
    fresh.inLen.toNat < fresh.cap ∧ ({ fresh with inLen := 4095#32 } : State).inLen.toNat < fresh.cap ∧
    fresh.cap ≤ ({ fresh with inLen := 4096#32 } : State).inLen.toNat ∧
    fresh.cap ≤ ({ fresh with inLen := 0xFFFFFFFF#32 } : State).inLen.toNat ∧
    0x100#32 &&& 0x107#32 = 0x100#32 ∧ 0xFFFFFFF8#32 &&& 0x107#32 = 0x100#32 := by decide

/-- `p = L = 1`, and `p = L = 16` with every tail byte checked. -/
theorem witness_DecodeStripsAValidTail :
    ∀ s ∈ [holding [1#8], padBlock], s.phase = .idle ∧ s.pending = [] ∧ 0 < s.inLen.toNat ∧
      s.inLen.toNat ≤ s.cap ∧ 1 ≤ (s.inByte (s.inLen.toNat - 1)).toNat ∧ (s.inByte (s.inLen.toNat - 1)).toNat ≤ 16 ∧
      (s.inByte (s.inLen.toNat - 1)).toNat ≤ s.inLen.toNat ∧
      ∀ k < s.inLen.toNat, s.inLen.toNat - (s.inByte (s.inLen.toNat - 1)).toNat ≤ k →
        s.inByte k = s.inByte (s.inLen.toNat - 1) := by decide

/-- Each way a tail is invalid: `p = 0`, `p = 17`, `p > L`. The fourth, a byte before the last that differs, is
below. -/
theorem witness_DecodeOfAnInvalidTail :
    ∀ s ∈ [holding [0#8], holding (List.replicate 17 17#8), holding [2#8]], s.phase = .idle ∧ s.pending = [] ∧
      0 < s.inLen.toNat ∧ s.inLen.toNat ≤ s.cap ∧
      ¬ (1 ≤ (s.inByte (s.inLen.toNat - 1)).toNat ∧ (s.inByte (s.inLen.toNat - 1)).toNat ≤ 16 ∧
        (s.inByte (s.inLen.toNat - 1)).toNat ≤ s.inLen.toNat) := by decide

theorem witness_DecodeOfAMismatchedTail : (holding [1#8, 2#8]).phase = .idle ∧ (holding [1#8, 2#8]).pending = [] ∧
    0 < (holding [1#8, 2#8]).inLen.toNat ∧ (holding [1#8, 2#8]).inLen.toNat ≤ (holding [1#8, 2#8]).cap ∧
    ((holding [1#8, 2#8]).inByte 1).toNat = 2 ∧ (holding [1#8, 2#8]).inByte 0 ≠ (holding [1#8, 2#8]).inByte 1 := by
  decide

/-- The last hypothesis of both statements on invalid tails, met by the mismatched tail with PAD_CHK = 1. -/
theorem witness_DecodePassesAnInvalidTailThrough :
    ¬ (1 ≤ ((holding [1#8, 2#8]).inByte 1).toNat ∧ ((holding [1#8, 2#8]).inByte 1).toNat ≤ 16 ∧
      ((holding [1#8, 2#8]).inByte 1).toNat ≤ 2 ∧
      (true = true → ∀ k, 2 - ((holding [1#8, 2#8]).inByte 1).toNat ≤ k → k < 2 →
        (holding [1#8, 2#8]).inByte k = (holding [1#8, 2#8]).inByte 1)) :=
  fun h => absurd (h.2.2.2 rfl 0 (by decide) (by decide)) (by decide)

/-- All the hypotheses, met by a pad byte of 0 with PAD_CHK = 0. -/
theorem witness_DecodeReportsAnInvalidTail : (holding [0#8]).phase = .idle ∧ (holding [0#8]).pending = [] ∧
    0 < (holding [0#8]).inLen.toNat ∧ (holding [0#8]).inLen.toNat ≤ (holding [0#8]).cap ∧
    ¬ (1 ≤ ((holding [0#8]).inByte 0).toNat ∧ ((holding [0#8]).inByte 0).toNat ≤ 16 ∧
      ((holding [0#8]).inByte 0).toNat ≤ 1 ∧
      (false = true → ∀ k, 1 - ((holding [0#8]).inByte 0).toNat ≤ k → k < 1 →
        (holding [0#8]).inByte k = (holding [0#8]).inByte 0)) :=
  ⟨by decide, by decide, by decide, by decide, fun h => absurd h.1 (by decide)⟩

theorem witness_DecodeOfEmptyAndOfTooLongInput : fresh.phase = .idle ∧ fresh.pending = [] ∧ fresh.inLen.toNat = 0 ∧
    fresh.cap < ({ fresh with inLen := 4097#32 } : State).inLen.toNat := by decide

/-- The hypotheses of ENCRYPT's and DECRYPT's successful case. -/
abbrev ecbReady (s : State) : Prop :=
  s.phase = .idle ∧ s.pending = [] ∧ s.inLen.toNat ≤ s.cap ∧ s.inLen.toNat % 16 = 0 ∧ s.keyw = 0xFF#8

/-- The hypotheses of their other case. -/
abbrev ecbUnready (s : State) : Prop :=
  s.phase = .idle ∧ s.pending = [] ∧ ¬ (s.inLen.toNat ≤ s.cap ∧ s.inLen.toNat % 16 = 0 ∧ s.keyw = 0xFF#8)

/-- The smallest and the largest input that succeed, and the first of each kind that does not. -/
theorem witness_EncryptTransformsEachChunkOrReports : ecbReady (keyed fresh) ∧
    ecbReady (keyed { fresh with inLen := 4096#32 }) ∧ ecbUnready (keyed { fresh with inLen := 4097#32 }) ∧
    ecbUnready (keyed { fresh with inLen := 1#32 }) ∧ ecbUnready fresh := by
  refine ⟨?_, ?_, ?_, ?_, ?_⟩ <;> decide

/-- The same for DECRYPT. -/
theorem witness_DecryptTransformsEachChunkOrReports : ecbReady (keyed { fresh with inLen := 16#32 }) ∧
    ecbUnready (keyed { fresh with inLen := 0xFFFFFFFF#32 }) ∧ ecbUnready { fresh with inLen := 16#32 } := by
  refine ⟨?_, ?_, ?_⟩ <;> decide

theorem witness_ReservedOpReportsBadOp : fresh.phase = .idle ∧ fresh.pending = [] ∧ 4 ≤ (4#3).toNat ∧ 4 ≤ (7#3).toNat ∧
    0x104#32 &&& 0x104#32 = 0x104#32 ∧ 0xFFFFFFFF#32 &&& 0x104#32 = 0x104#32 := by decide

theorem witness_EveryCommandReportsTheSourceFunction : (started 1#3 true true padBlock).phase = .check ∧
    CheckInv (started 1#3 true true padBlock) ∧ (started 1#3 true true padBlock).pending = [] :=
  ⟨rfl, ⟨⟨rfl, rfl, rfl⟩, rfl, rfl, rfl, rfl, rfl⟩, rfl⟩

/-- A refused START, the CHECK step, a STATUS read. -/
def interleaved : List Event := [.bus (ctrlWrite 0x100#32), .engine, .bus ⟨.rd, 4, 0x008#26, 0#32⟩]

theorem witness_InterleavedTransactionsDoNotDisturbACommand : NoReset interleaved ∧
    (∀ n, n ≤ engineTurns interleaved →
      ∃ v, Runs n { started 0#3 false false fresh with pending := [] } v ∧ v.busy = true) ∧
    Runs (engineTurns interleaved + 1) { started 0#3 false false fresh with pending := [] }
      (after 2 (started 0#3 false false fresh)) := by
  refine ⟨fun e he q h => ?_, fun n hn => ?_, rfl⟩
  · subst h; simp [interleaved] at he
  · have : n ≤ 1 := hn
    interval_cases n
    · exact ⟨started 0#3 false false fresh, rfl, rfl⟩
    · exact ⟨after 1 (started 0#3 false false fresh), rfl, rfl⟩

theorem witness_EncodeGrowsByOneToSixteenToAMultiple : fresh.phase = .idle ∧ fresh.inLen.toNat < fresh.cap ∧
    CommandLeadsTo fresh (encode (.encode false true)) (commanded 3 (encode (.encode false true)) fresh) :=
  ⟨rfl, by decide, 3, rfl, rfl, rfl⟩

/-- A pad block stripped, and an invalid tail passed through. -/
theorem witness_DecodeGivesAPrefixOfItsInput :
    CommandLeadsTo padBlock (encode (.decode true true)) (commanded 2 (encode (.decode true true)) padBlock) ∧
      (commanded 2 (encode (.decode true true)) padBlock).err = .none ∧
    CommandLeadsTo (holding [2#8]) (encode (.decode false false)) (commanded 3 (encode (.decode false false)) (holding [2#8])) ∧
      (commanded 3 (encode (.decode false false)) (holding [2#8])).err = .none ∧
      (commanded 3 (encode (.decode false false)) (holding [2#8])).nostrip = true :=
  ⟨⟨2, rfl, rfl, rfl⟩, rfl, ⟨3, rfl, rfl, rfl⟩, rfl, rfl⟩

theorem witness_EcbKeepsTheLength :
    CommandLeadsTo (keyed padBlock) (encode (.encrypt false false)) (commanded 3 (encode (.encrypt false false)) (keyed padBlock)) ∧
      (commanded 3 (encode (.encrypt false false)) (keyed padBlock)).err = .none ∧
    CommandLeadsTo (keyed padBlock) (encode (.decrypt false false)) (commanded 3 (encode (.decrypt false false)) (keyed padBlock)) ∧
      (commanded 3 (encode (.decrypt false false)) (keyed padBlock)).err = .none :=
  ⟨⟨3, rfl, rfl, rfl⟩, rfl, ⟨3, rfl, rfl, rfl⟩, rfl⟩

/-- Two equal chunks. -/
def twoEqual : State := keyed (holding (List.replicate 32 0x41#8))

/-- The state after they are encrypted. -/
def twoEncrypted : State := commanded 4 (encode (.encrypt false false)) twoEqual

theorem witness_EqualChunksEncryptEqually : twoEqual.phase = .idle ∧
    CommandLeadsTo twoEqual (encode (.encrypt false false)) twoEncrypted ∧ twoEncrypted.err = .none ∧
    16 * 0 < twoEncrypted.outLen.toNat ∧ 16 * 1 < twoEncrypted.outLen.toNat ∧
    (∀ j, j < 16 → twoEqual.inByte (16 * 0 + j) = twoEqual.inByte (16 * 1 + j)) :=
  ⟨rfl, ⟨4, rfl, rfl, rfl⟩, rfl, by decide, by decide, by decide⟩

/-- After ENCODE of the empty input. -/
def encoded : State := commanded 3 (encode (.encode false true)) fresh

/-- The pad block copied back to IN_BUF. -/
def copied (s : State) : State := { s with inBuf := bytesAt (List.replicate 16 0x10#8), inLen := 16#32 }

theorem witness_DecodeUndoesEncode : fresh.phase = .idle ∧ fresh.inLen.toNat < fresh.cap ∧
    CommandLeadsTo fresh (encode (.encode false true)) encoded ∧ CopiedOut encoded (copied encoded) ∧
    CommandLeadsTo (copied encoded) (encode (.decode true true))
      (commanded 2 (encode (.decode true true)) (copied encoded)) :=
  ⟨rfl, by decide, ⟨3, rfl, rfl, rfl⟩, ⟨rfl, rfl, rfl, rfl, by decide⟩, ⟨2, rfl, rfl, rfl⟩⟩

/-! The four states of a full round trip of the empty input. -/

def trip1 : State := keyed (copied encoded)
def trip1End : State := commanded 3 (encode (.encrypt false false)) trip1
def trip2 : State :=
  keyed { trip1End with inBuf := (List.range 16).map fun k => (k, trip1End.maskedOutByte k), inLen := 16#32 }
def trip2End : State := commanded 3 (encode (.decrypt false false)) trip2
def trip3 : State := copied trip2End

theorem trip2_copied : CopiedOut trip1End trip2 := by
  refine ⟨rfl, rfl, rfl, rfl, fun k hk => ?_⟩
  have hk' : k < 16 := hk
  interval_cases k <;> rfl

theorem trip1End_read (k : Nat) (h : k < 16) :
    trip1End.maskedOutByte k = (Config.enc trip1.keyBytes (trip1.inBlock 0))[k] := by
  refine State.maskedOutByte_of_read (by exact h) ?_
  have := Memory.read_writeChunk encoded.outBuf 0 k (Config.enc trip1.keyBytes (trip1.inBlock 0))
  rw [dif_pos (by omega)] at this
  exact this

theorem trip2End_read (k : Nat) (h : k < 16) : trip2End.maskedOutByte k = 0x10#8 := by
  have hb : trip2.inBlock 0 = Config.enc trip1.keyBytes (trip1.inBlock 0) := by
    refine Vector.ext fun j hj => ?_
    have := trip2_copied.2.2.2.2 j hj
    rw [trip1End_read j hj] at this
    simpa [State.inBlock] using this
  refine State.maskedOutByte_of_read (by exact h) ?_
  have := Memory.read_writeChunk trip1End.outBuf 0 k (Config.dec trip2.keyBytes (trip2.inBlock 0))
  have hd : Config.dec trip2.keyBytes (trip2.inBlock 0) = trip1.inBlock 0 := by
    rw [hb, show trip2.keyBytes = trip1.keyBytes from rfl, Config.dec, Config.enc, Equiv.symm_apply_apply]
  rw [dif_pos (by omega)] at this
  refine Eq.trans this ?_
  simp only [hd]
  interval_cases k <;> rfl

theorem witness_FullRoundTripGivesTheInputBack : fresh.phase = .idle ∧ fresh.inLen.toNat < fresh.cap ∧
    CommandLeadsTo fresh (encode (.encode false true)) encoded ∧ CopiedOut encoded trip1 ∧ trip1.keyw = 0xFF#8 ∧
    CommandLeadsTo trip1 (encode (.encrypt false false)) trip1End ∧ CopiedOut trip1End trip2 ∧
    trip2.keyw = 0xFF#8 ∧ trip2.key = trip1.key ∧ CommandLeadsTo trip2 (encode (.decrypt false false)) trip2End ∧
    CopiedOut trip2End trip3 ∧
    CommandLeadsTo trip3 (encode (.decode true true)) (commanded 2 (encode (.decode true true)) trip3) := by
  refine ⟨rfl, by decide, ⟨3, rfl, rfl, rfl⟩, ⟨rfl, rfl, rfl, rfl, by decide⟩, rfl, ⟨3, rfl, rfl, rfl⟩, trip2_copied,
    rfl, rfl, ⟨3, rfl, rfl, rfl⟩, ⟨rfl, rfl, rfl, rfl, fun k hk => ?_⟩, ⟨2, rfl, rfl, rfl⟩⟩
  have hk' : k < 16 := hk
  rw [trip2End_read k hk']
  interval_cases k <;> rfl

theorem unloaded_zero : ∀ i : Fin 8, fresh.keyw.getLsbD i.val = false → fresh.key[i.val] = 0#32 := by decide

/-- The invariant holds between the START of an ENCODE and its CHECK step, whatever inputs are to come. -/
theorem inv_started (evs : List Event) : Inv { started 0#3 false false fresh with pending := evs } :=
  ⟨List.Pairwise.nil, fun _ h => absurd h List.not_mem_nil, List.Pairwise.nil, fun _ h => absurd h List.not_mem_nil,
    unloaded_zero, fun h => (by cases h), fun _ => ⟨⟨rfl, rfl, rfl⟩, rfl, rfl, rfl, rfl, rfl⟩, fun h => (by cases h)⟩

theorem witness_EveryCommandFinishes : ∃ s : State, Inv s ∧ s.busy = true ∧ s.pending = [] :=
  ⟨_, inv_started [], rfl, rfl⟩

/-- Each code of the priority, and no error. -/
theorem witness_CheckReportsTheFirstErrorThatApplies :
    ∀ s ∈ [started 4#3 true true { fresh with inLen := 4097#32 }, started 0#3 true true { fresh with inLen := 4096#32 },
      started 1#3 true true { fresh with inLen := 4097#32 }, started 2#3 true true { fresh with inLen := 1#32 },
      started 3#3 true true { fresh with inLen := 16#32 }, started 1#3 true true (holding [0#8]), started 1#3 true true fresh],
      s.phase = .check ∧ s.err = .none ∧ s.pending = [] := by decide

/-- Before the last chunk and at it; and a state whose scalars, key and IN_BUF another shares. -/
theorem witness_RunStepWritesOneChunk :
    (∀ s ∈ [running, { running with nblk := 2#32 }], s.phase = .run ∧ s.pending = [] ∧ s.lop.toNat < 4 ∧
      s.blkIdx.toNat < s.nblk.toNat ∧ 16 * s.nblk.toNat ≤ s.cap) ∧
    (fun u : State => u.lop = running.lop ∧ u.llen = running.llen ∧ u.olen = running.olen ∧ u.padb = running.padb ∧
      u.keyBytes = running.keyBytes ∧ (∀ k, u.inByte k = running.inByte k)) { running with phase := .idle } :=
  ⟨by decide, rfl, rfl, rfl, rfl, rfl, fun _ => rfl⟩

theorem witness_ChunkLanes : 0 < 16 ∧ 15 < 16 ∧ 0 < 8 ∧ 7 < 8 ∧ 3 < 4 ∧ (started 0#3 false false fresh).lop = 0#3 ∧
    (started 1#3 false false fresh).lop = 1#3 ∧ (started 2#3 false false fresh).lop = 2#3 ∧
    (started 3#3 false false fresh).lop = 3#3 := by decide

/-- A turn that keeps the key, and one that clears it. -/
theorem witness_EngineTurnsWriteOnlyTheirOwn :
    engineStep running = .next (stepped running) ∧
    engineStep (started 2#3 false false fresh) = .next (stepped (started 2#3 false false fresh)) := ⟨rfl, rfl⟩

theorem witness_ResultsStayUntilTheNextStart : fresh.phase = .idle ∧
    ∀ e ∈ [Event.engine, .bus (ctrlWrite 0x37#32), .bus ⟨.wr, 1, 0x1000000#26, 1#32⟩], (∀ q, e ≠ .reset q) ∧
      (∀ w, w.getLsbD 8 = true → e ≠ .bus (ctrlWrite w)) ∧ ∃ t, step { fresh with pending := [e] } = .next t := by
  refine ⟨rfl, fun e he => ?_⟩
  simp only [List.mem_cons, List.not_mem_nil, or_false] at he
  rcases he with rfl | rfl | rfl
  · exact ⟨fun q h => (by cases h), fun w _ h => (by cases h), _, rfl⟩
  · exact ⟨fun q h => (by cases h), fun w hw h => (by simp [ctrlWrite] at h; subst h; simp at hw), _, rfl⟩
  · exact ⟨fun q h => (by cases h), fun w _ h => (by simp [ctrlWrite] at h), _, rfl⟩

/-- A read and a write that get ERROR. -/
theorem witness_BusErrorsChangeNothing :
    (stepped (asked ⟨.rd, 4, 0x020#26, 0#32⟩ fresh)).resp = some ⟨.error, some 0#32⟩ ∧
    step (asked ⟨.rd, 4, 0x020#26, 0#32⟩ fresh) = .next (stepped (asked ⟨.rd, 4, 0x020#26, 0#32⟩ fresh)) ∧
    (stepped (asked ⟨.wr, 4, 0x018#26, 0#32⟩ fresh)).resp = some ⟨.error, none⟩ ∧
    step (asked ⟨.wr, 4, 0x018#26, 0#32⟩ fresh) = .next (stepped (asked ⟨.wr, 4, 0x018#26, 0#32⟩ fresh)) :=
  ⟨by decide, rfl, by decide, rfl⟩

theorem witness_ReadsHaveNoSideEffect : (⟨.rd, 4, 0x008#26, 0#32⟩ : Request).dir = .rd := rfl

/-- A busy state; STATUS is read, a read past CAP and a write are not. -/
theorem witness_BusyTransactionsChangeOnlyTheResponse : running.busy = true ∧
    (stepped (asked ⟨.rd, 4, 0x018#26, 0#32⟩ running)).resp = some ⟨.okay, some 4096#32⟩ ∧ regAt 6 = some .cap ∧
    (stepped (asked ⟨.rd, 4, 0x01C#26, 0#32⟩ running)).resp = some ⟨.error, some 0#32⟩ := by
  refine ⟨rfl, ?_, rfl, ?_⟩ <;> decide

/-- One word for each of the seven registers. -/
theorem witness_RegisterReadsReturnTheirValues :
    (0x37#32).toNat = 32 * true.toNat + 16 * true.toNat + (7#3).toNat ∧
    (0xFF0057#32).toNat = 65536 * (0xFF#8).toNat + 16 * ErrCode.badOp.code.toNat + 4 * true.toNat + 2 * true.toNat + 1 ∧
    (fresh.inLen = 0#32 ∧ fresh.outLen = 0#32 ∧ fresh.blkIdx = 0#32 ∧ (4096#32).toNat = fresh.cap) := by decide

theorem witness_InLenWriteStoresTheWord : fresh.phase = .idle := rfl

/-- The first key word and the last. -/
theorem witness_KeyWriteStoresTheWordAndMarksIt : fresh.phase = .idle ∧
    (stepped (asked ⟨.wr, 4, BitVec.ofNat 26 (0x020 + 4 * 0), 5#32⟩ fresh)).keyw = 0x01#8 ∧
    (stepped (asked ⟨.wr, 4, BitVec.ofNat 26 (0x020 + 4 * 7), 5#32⟩ fresh)).keyw = 0x80#8 := by decide

theorem witness_TransactionsDoNotRevealTheKey : (fun q : Request =>
    step { fresh with pending := [.bus q] } = .next (stepped (asked q fresh)) ∧
    step { fresh with key := (keyed fresh).key, pending := [.bus q] } =
      .next (stepped (asked q { fresh with key := (keyed fresh).key }))) ⟨.rd, 4, 0x03C#26, 0#32⟩ := ⟨rfl, rfl⟩

theorem witness_InBufByteAccesses : fresh.phase = .idle ∧ 0 < fresh.cap ∧ 4095 < fresh.cap := by decide

theorem witness_InBufWordAccesses : fresh.phase = .idle ∧ 0 < fresh.cap ∧ 4092 < fresh.cap ∧ 4092 % 4 = 0 := by decide

/-- The ends of the buffer, and OUT_LEN inside a word. -/
theorem witness_OutBufReadsAreMaskedByOutLen : fresh.phase = .idle ∧ 0 < fresh.cap ∧ 4095 < fresh.cap ∧
    4092 < fresh.cap ∧ 4092 % 4 = 0 ∧ ({ fresh with outLen := 14#32 } : State).outLen.toNat % 4 ≠ 0 := by decide

/-- Writes at both ends of OUT_BUF; a RUN step and a reset that change it. -/
theorem witness_OnlyRunStepsWriteOutBuf :
    (0x2000000 ≤ (0x2000000#26).toNat ∧ (0x2000FFF#26).toNat < 0x2000000 + fresh.cap) ∧
    step running = .next (stepped running) ∧ (stepped running).outBuf ≠ running.outBuf ∧
    step { padBlock with outBuf := bytesAt [1#8], pending := [.reset none] } = .next { padBlock with
      outBuf := bytesAt [1#8] }.resetStep ∧ ({ padBlock with outBuf := bytesAt [1#8] } : State).resetStep.outBuf ≠ bytesAt [1#8] :=
  ⟨by decide, rfl, by decide, rfl, by decide⟩

theorem witness_WindowOffsetsStartAtBase : Config.base + 2 ^ 26 ≤ Config.base + 2 ^ 26 := Nat.le_refl _

theorem witness_LoadKeyLoadsTheThirtyTwoBytes : fresh.phase = .idle ∧ (List.replicate 32 7#8).length = 32 := by decide

/-- No byte, and CAP bytes. -/
theorem witness_FillPutsTheBytesInInBuf : fresh.phase = .idle ∧ ([] : List Byte).length ≤ fresh.cap ∧
    (List.replicate 4096 7#8).length ≤ fresh.cap :=
  ⟨rfl, Nat.zero_le _, by rw [List.length_replicate]; exact Nat.le_refl _⟩

/-- A reset after the first chunk of two. -/
theorem witness_ResetDuringACommandMasksItsOutput : (fun s : State => s.busy = true ∧ 0 < 16 * s.blkIdx.toNat ∧
    ∃ t, step { s with pending := [.reset none] } = .next t) (stepped { running with nblk := 2#32, olen := 32#32 }) :=
  ⟨rfl, by decide, _, rfl⟩

/-- An engine turn, and a write just past the byte. -/
theorem witness_InBufBytesKeepTheirValue : step running = .next (stepped running) ∧
    (∀ q rest, running.pending ≠ .reset q :: rest) ∧ (∀ q rest, running.pending ≠ .bus q :: rest) ∧
    (∃ t, step (asked ⟨.wr, 4, 0x1000004#26, 0#32⟩ padBlock) = .next t) ∧ 0x1000000 + 3 < (0x1000004#26).toNat :=
  ⟨rfl, fun _ _ h => (by cases h), fun _ _ h => (by cases h), ⟨_, rfl⟩, by decide⟩

theorem witness_CapIsHardwiredAndLegal : step running = .next (stepped running) := rfl

/-- A command that ends; DONE cleared by START, and by reset; a busy state that meets the invariant. -/
theorem witness_DoneFollowsTheCommands :
    (step running = .next (stepped running) ∧ running.busy = true ∧ (stepped running).busy = false) ∧
    (∀ e ∈ [Event.bus (ctrlWrite 0x100#32), .reset none], (fun s : State => step s = .next (stepped s) ∧ s.done = true ∧
      (stepped s).done = false) { fresh with done := true, pending := [e] }) ∧
    ∃ s : State, Inv s ∧ s.busy = true := by
  refine ⟨⟨rfl, rfl, rfl⟩, fun e he => ?_, _, inv_started [], rfl⟩
  simp only [List.mem_cons, List.not_mem_nil, or_false] at he
  rcases he with rfl | rfl <;> exact ⟨rfl, rfl, rfl⟩

/-- A step of each of the five kinds. -/
theorem witness_FlagsAndCountersHaveTheirWriters :
    ∀ s ∈ [asked (ctrlWrite 0x100#32) fresh, asked ⟨.wr, 4, 0x020#26, 1#32⟩ fresh, started 1#3 true true padBlock,
      running, asked ⟨.rd, 4, 0x008#26, 0#32⟩ running],
      (∃ t, step s = .next t) ∧ ∀ q rest, s.pending ≠ .reset q :: rest := by
  intro s hs
  simp only [List.mem_cons, List.not_mem_nil, or_false] at hs
  rcases hs with rfl | rfl | rfl | rfl | rfl <;> exact ⟨⟨_, rfl⟩, fun _ _ h => by cases h⟩

/-- ENCRYPT's ALIGNMENT, and reset. -/
theorem witness_LoadedKeyIsLostOnlyWhole :
    ∀ s ∈ [started 2#3 false false (keyed { fresh with inLen := 17#32 }), { keyed fresh with pending := [.reset none] }],
      (∃ t, step s = .next t ∧ t.keyw ≠ 0xFF#8) ∧ s.keyw = 0xFF#8 := by
  intro s hs
  simp only [List.mem_cons, List.not_mem_nil, or_false] at hs
  rcases hs with rfl | rfl <;> exact ⟨⟨_, rfl, by decide⟩, rfl⟩

theorem witness_EveryStepKeepsInv :
    ∃ s t : State, Inv s ∧ step s = .next t ∧ s ≠ t :=
  ⟨_, _, inv_started [.bus (ctrlWrite 0x100#32)], rfl, fun h => by cases congrArg State.resp h⟩

theorem witness_InvStatesNeverStop : ∃ s : State, Inv s ∧ s.pending = [.reset none, .engine] :=
  ⟨_, inv_started [.reset none, .engine], rfl⟩

end Sys2Proof.Tests
end

section
/-! SUPPORT. Proofs for the state family (10_state.md): CTRL and its reserved bits, what register reads return, CAP,
and what sets and clears DONE. -/

namespace Sys2Proof

/-! ## The decoder reads the unreserved bits only (R24, R69) -/

/-- A bit under the mask is shared by words that agree under it. -/
theorem bitOf_congr_of_masked {w v m : Word} (h : w &&& m = v &&& m) {i : Nat} (hi : m.getLsbD i = true) :
    bitOf w i = bitOf v i := by
  have hbit := congrArg (·.getLsbD i) h
  simpa [BitVec.getLsbD_and, hi, bitOf] using hbit

theorem opField_congr_of_masked {w v : Word} (h : w &&& 0x00000137#32 = v &&& 0x00000137#32) :
    opField w = opField v := by
  refine BitVec.eq_of_getLsbD_eq fun i hi => ?_
  have hm : (0x00000137#32).getLsbD i = true := by interval_cases i <;> rfl
  have hbit : w.getLsbD i = v.getLsbD i := bitOf_congr_of_masked h hm
  simp [opField, hbit]

theorem decodeWord_congr_of_masked {w v : Word} (h : w &&& 0x00000137#32 = v &&& 0x00000137#32) :
    decodeWord w = decodeWord v := by
  have h8 : bitOf w 8 = bitOf v 8 := bitOf_congr_of_masked h rfl
  have h4 : bitOf w 4 = bitOf v 4 := bitOf_congr_of_masked h rfl
  have h5 : bitOf w 5 = bitOf v 5 := bitOf_congr_of_masked h rfl
  rw [decodeWord, decodeWord, h8, h4, h5, opField_congr_of_masked h]

end Sys2Proof

namespace Sys2Proof.Machine

/-! ## The words CTRL and STATUS read as (R19, R25) -/

/-- CTRL reads as the word of the CFG that stores its three fields. -/
theorem State.ctrlWord_eq_encode (s : State) : s.ctrlWord = encode (.cfg s.ctrlOp s.ctrlPadErr s.ctrlPadChk) := by
  simp [State.ctrlWord, encode, packWord, bitAt]

/-- The reserved bits and START of a CFG's word are 0. -/
theorem encode_cfg_reserved (op : BitVec 3) (perr pchk : Bool) :
    encode (.cfg op perr pchk) &&& 0xFFFFFFC8#32 = 0#32 := by
  revert op perr pchk; decide

theorem encode_cfg_toNat (op : BitVec 3) (perr pchk : Bool) :
    (encode (.cfg op perr pchk)).toNat = 32 * pchk.toNat + 16 * perr.toNat + op.toNat := by
  revert op perr pchk; decide

/-- STATUS below KEYW: ERR, NOSTRIP, DONE and BUSY. -/
def statusLow (err : ErrCode) (nostrip done busy : Bool) : Word :=
  err.code.zeroExtend 32 <<< 4 ||| (bitAt nostrip 2 ||| (bitAt done 1 ||| bitAt busy 0))

theorem State.statusWord_eq (s : State) :
    s.statusWord = s.keyw.zeroExtend 32 <<< 16 ||| statusLow s.err s.nostrip s.done s.busy := by
  simp only [State.statusWord, statusLow, BitVec.or_assoc]

theorem statusLow_toNat (err : ErrCode) (nostrip done busy : Bool) :
    (statusLow err nostrip done busy).toNat =
      16 * err.code.toNat + 4 * nostrip.toNat + 2 * done.toNat + busy.toNat := by
  cases err <;> revert nostrip done busy <;> decide

/-- KEYW shifted up and the lower fields overlap nowhere, so STATUS is their sum. -/
theorem State.statusWord_toNat (s : State) :
    s.statusWord.toNat = 65536 * s.keyw.toNat + 16 * s.err.code.toNat + 4 * s.nostrip.toNat +
      2 * s.done.toNat + s.busy.toNat := by
  have hlow := statusLow_toNat s.err s.nostrip s.done s.busy
  have hlt : (statusLow s.err s.nostrip s.done s.busy).toNat < 2 ^ 16 := by
    have := s.err.code.isLt
    have := s.nostrip.toNat_le
    have := s.done.toNat_le
    have := s.busy.toNat_le
    omega
  have hkeyw : (s.keyw.zeroExtend 32 <<< 16).toNat = s.keyw.toNat <<< 16 := by
    have := s.keyw.isLt
    rw [BitVec.toNat_shiftLeft, BitVec.toNat_setWidth, Nat.shiftLeft_eq, Nat.shiftLeft_eq]
    omega
  rw [State.statusWord_eq, BitVec.toNat_or, hkeyw, ← Nat.shiftLeft_add_eq_or_of_lt hlt, hlow, Nat.shiftLeft_eq]
  omega

theorem State.busy_toNat (s : State) : s.busy.toNat = if s.phase = .idle then 0 else 1 := by
  cases h : s.phase <;> simp [State.busy, h]

/-! ## Register reads, and the write of CAP -/

/-- A word read of a readable register as the next input (R48). -/
theorem step_regRead {s : State} {rest : List Event} {off : Offset} {v w : Word} {r : Reg} (ho : off.toNat < 0x100)
    (ha : off.toNat % 4 = 0) (hr : regAt (off.toNat / 4) = some r) (hv : s.regValue r = some w) :
    step { s with pending := .bus ⟨.rd, 4, off, v⟩ :: rest } =
      .next { s with pending := rest, resp := some ⟨.okay, some w⟩ } := by
  have hv' : State.regValue { s with pending := rest } r = some w := by
    cases r <;> exact hv
  rw [step_with_bus, transact_regRead rfl rfl ho ha hr hv']
  rfl

/-- A transaction the table does not permit gets ERROR, idle or busy (R44). -/
theorem transact_not_permitted {s : State} {q : Request} (h : permits (s.regionOf q) q = false) :
    transact q s = .next (s.busError q.dir) :=
  transact_error (by simp [State.accepts, h])

/-- A write to a read-only register gets ERROR (R17, R44). -/
theorem transact_readOnly_write {s : State} {q : Request} {r : Reg} (hd : q.dir = .wr) (ho : q.off.toNat < 0x100)
    (hr : regAt (q.off.toNat / 4) = some r) (hacc : r.access = .readOnly) : transact q s = .next (s.busError .wr) := by
  have hg : s.regionOf q = .register r := State.regionOf_register ho hr
  rw [← hd]
  exact transact_not_permitted (by simp [hg, permits, hacc, hd, Access.allows])

/-! ## No step changes CAP (R36) -/

theorem Transacted.capBlocks_eq {q : Request} {s t : State} (h : Transacted q s t) : t.capBlocks = s.capBlocks := by
  cases h with
  | error h => rw [h]; rfl
  | read w _ h => rw [h]; rfl
  | command hp _ h =>
    rw [exec_decodeWord hp] at h
    cases h
    split <;> rfl
  | length _ _ h => rw [h]; rfl
  | key i _ _ h => rw [h]; rfl
  | input k _ _ _ _ _ h => rw [h]; rfl

theorem step_capBlocks {s t : State} (h : step s = .next t) : t.capBlocks = s.capBlocks := by
  cases step_spec h with
  | engine _ h => exact (engineStep_kept h).inputs.capBlocks
  | bus q rest _ h => exact h.capBlocks_eq
  | reset q rest _ h => rw [h]; rfl

/-! ## What a step does to DONE (R27) -/

/-- A step ended a command, or DONE and whether the engine is idle stayed. -/
def EndedOrSteady (s t : State) : Prop :=
  (t.phase = .idle ∧ t.done = true) ∨ (t.done = s.done ∧ (t.phase = .idle ↔ s.phase = .idle))

theorem conclude_endedOrSteady {s : State} (hp : s.phase = .check) : EndedOrSteady s s.check.conclude := by
  rcases check_frame s with ⟨c, n, h⟩ | ⟨olen, nblk, padb, n, h⟩ <;> rw [h, Verdict.conclude]
  · exact .inl ⟨finish_phase _ _, finish_done _ _⟩
  · split
    · exact .inl ⟨finish_phase _ _, finish_done _ _⟩
    · exact .inr ⟨rfl, by simp [hp]⟩

theorem putChunk_endedOrSteady (s : State) (i : Nat) (b : Block) : EndedOrSteady s (s.putChunk i b) := by
  by_cases hlast : i + 1 = s.nblk.toNat
  · exact .inl (by simp [hlast])
  · exact .inr (by simp [hlast])

theorem engineStep_endedOrSteady {s t : State} (h : engineStep s = .next t) : EndedOrSteady s t := by
  rcases engineStep_spec h with ⟨-, rfl⟩ | ⟨hp, rfl⟩ | ⟨-, hrun⟩
  · exact .inr ⟨rfl, Iff.rfl⟩
  · exact conclude_endedOrSteady hp
  · obtain ⟨c, -, -, -, rfl⟩ := runStep_spec hrun
    exact putChunk_endedOrSteady s _ c

/-- A transaction starts a command, or leaves DONE and the phase as they are. -/
theorem Transacted.start_or_steady {q : Request} {s t : State} (h : Transacted q s t) :
    (s.phase = .idle ∧ t.phase = .check ∧ ∃ w, w.getLsbD 8 = true ∧ q = ctrlWrite w) ∨
      (t.done = s.done ∧ t.phase = s.phase) := by
  cases h with
  | error h => rw [h]; exact .inr ⟨rfl, rfl⟩
  | read w _ h => rw [h]; exact .inr ⟨rfl, rfl⟩
  | command hp hq h =>
    rw [exec_decodeWord hp] at h
    cases h
    split
    · rename_i hstart
      exact .inl ⟨hp, rfl, _, hstart, hq⟩
    · exact .inr ⟨rfl, rfl⟩
  | length _ _ h => rw [h]; exact .inr ⟨rfl, rfl⟩
  | key i _ _ h => rw [h]; exact .inr ⟨rfl, rfl⟩
  | input k _ _ _ _ _ h => rw [h]; exact .inr ⟨rfl, rfl⟩

/-- What a step did to DONE, in the three ways it can go. -/
inductive DoneStep (s t : State) : Prop where
  | reset (q : Option Request) (rest : List Event) (hq : s.pending = .reset q :: rest)
  | start (w : Word) (rest : List Event) (hw : w.getLsbD 8 = true) (hq : s.pending = .bus (ctrlWrite w) :: rest)
      (hs : s.phase = .idle) (ht : t.phase = .check)
  | other (h : EndedOrSteady s t)

theorem step_doneStep {s t : State} (h : step s = .next t) : DoneStep s t := by
  cases step_spec h with
  | engine _ h =>
    have hturn := engineStep_endedOrSteady h
    exact .other hturn
  | bus q rest hq h =>
    rcases h.start_or_steady with ⟨hs, ht, w, hw, rfl⟩ | ⟨hdone, hphase⟩
    · exact .start w rest hw hq hs ht
    · exact .other (.inr ⟨hdone, by rw [hphase]⟩)
  | reset q rest hq h => exact .reset q rest hq

/-- A busy engine that meets the invariant has DONE = 0. -/
theorem Inv.done_of_busy {s : State} (hinv : Inv s) (hb : s.busy = true) : s.done = false := by
  cases hp : s.phase with
  | idle => exact absurd hp (State.busy_eq_true.1 hb)
  | check => exact (hinv.check hp).unreported.done
  | run => exact (hinv.run hp).unreported.done

/-! ## The obligations -/

/-- Settles O5: the decoder reads the bits of 0x137 alone, and CTRL reads as a CFG's word. -/
theorem reservedWordBitsSelectNothing : Obligations.ReservedWordBitsSelectNothing := by
  refine ⟨fun s w v rest h => ?_, fun s v rest => ⟨s.ctrlWord, ?_, ?_⟩⟩
  · rw [step_with_bus, step_with_bus, transact_ctrlWrite, transact_ctrlWrite, decodeWord_congr_of_masked h]
  · exact step_regRead (r := .ctrl) (by decide) (by decide) rfl rfl
  · rw [State.ctrlWord_eq_encode, encode_cfg_reserved]

/-- Settles O39: a read answers with the register's word, whose number is the sum of its fields. -/
theorem registerReadsReturnTheirValues : Obligations.RegisterReadsReturnTheirValues := by
  intro s rest off v w h
  rcases h with ⟨rfl, hw⟩ | ⟨rfl, hw⟩ | ⟨rfl, hw⟩ | ⟨rfl, hw⟩ | ⟨rfl, hw⟩ | ⟨rfl, hw⟩ | ⟨rfl, hw⟩
  · exact step_regRead (r := .id) (by decide) (by decide) rfl (hw ▸ rfl)
  · have hctrl : s.ctrlWord = w := BitVec.eq_of_toNat_eq (by rw [State.ctrlWord_eq_encode, encode_cfg_toNat, hw])
    exact step_regRead (r := .ctrl) (by decide) (by decide) rfl (congrArg some hctrl)
  · have hstatus : s.statusWord = w :=
      BitVec.eq_of_toNat_eq (by rw [State.statusWord_toNat, State.busy_toNat, hw])
    exact step_regRead (r := .status) (by decide) (by decide) rfl (congrArg some hstatus)
  · exact step_regRead (r := .inLen) (by decide) (by decide) rfl (hw ▸ rfl)
  · exact step_regRead (r := .outLen) (by decide) (by decide) rfl (hw ▸ rfl)
  · exact step_regRead (r := .blkIdx) (by decide) (by decide) rfl (hw ▸ rfl)
  · have hcap : BitVec.ofNat 32 s.cap = w := by rw [← hw, BitVec.ofNat_toNat, BitVec.setWidth_eq]
    exact step_regRead (r := .cap) (by decide) (by decide) rfl (congrArg some hcap)

/-- Settles O54: the read and the write of a read-only register, and the steps by what each can do. -/
theorem capIsHardwiredAndLegal : Obligations.CapIsHardwiredAndLegal := by
  refine ⟨fun s w rest => ⟨?_, ?_⟩, fun s t h => State.cap_congr (step_capBlocks h),
    fun s => ⟨s.cap_ge, s.cap_le, s.cap_mod⟩⟩
  · exact step_regRead (r := .cap) (by decide) (by decide) rfl rfl
  · rw [step_with_bus, transact_readOnly_write (r := .cap) rfl (by simp) (by simp [regAt]) rfl]
    rfl

/-- Settles O55, by the three ways a step treats DONE. -/
theorem doneFollowsTheCommands : Obligations.DoneFollowsTheCommands := by
  refine ⟨fun s t h hs ht => ?_, fun s t h hs ht => ?_, fun s => Inv.done_of_busy, rfl⟩
  · have hbusy := State.busy_eq_true.1 hs
    cases step_doneStep h with
    | reset q rest hq => exact .inr ⟨q, rest, hq⟩
    | start w rest hw hq hidle _ => exact absurd hidle hbusy
    | other h =>
      rcases h with ⟨-, hdone⟩ | ⟨-, hphase⟩
      · exact .inl hdone
      · exact absurd (hphase.1 (State.busy_eq_false.1 ht)) hbusy
  · cases step_doneStep h with
    | reset q rest hq => exact .inl ⟨q, rest, hq⟩
    | start w rest hw hq hidle hcheck => exact .inr ⟨hidle, hcheck, w, rest, hw, hq⟩
    | other h =>
      rcases h with ⟨-, hdone⟩ | ⟨hdone, -⟩
      · rw [hdone] at ht; cases ht
      · rw [hdone, hs] at ht; cases ht

end Sys2Proof.Machine
end

section
/-! SUPPORT. Proofs for the memory family (20_memory.md): which transactions get OKAY, what one that gets ERROR leaves,
the busy lockout, word accesses of IN_BUF, the OUT_LEN mask, and what writes OUT_BUF. -/

namespace Sys2Proof.Machine

/-! ## The address map (R17, R41) -/

theorem regionAt_eq_reserved {cap off : Nat} :
    regionAt cap off = .reserved ↔ off < 0x100 ∧ regAt (off / 4) = none := by
  unfold regionAt
  by_cases h : off < 0x100
  · simp only [h, if_true, true_and]
    cases regAt (off / 4) <;> simp
  · simp only [h, if_false, false_and, iff_false]
    repeat' split
    all_goals simp

/-- An unmapped offset lies outside the register window and outside both buffers. -/
theorem regionAt_unmapped_outside {cap off : Nat} (h : regionAt cap off = .unmapped) :
    0x100 ≤ off ∧ ¬ (0x1000000 ≤ off ∧ off < 0x2000000 ∧ off < 0x1000000 + cap) ∧
      ¬ (0x2000000 ≤ off ∧ off < 0x3000000 ∧ off < 0x2000000 + cap) := by
  refine ⟨?_, fun hin => ?_, fun hout => ?_⟩
  · by_contra hreg
    cases hr : regAt (off / 4) with
    | none => rw [regionAt_eq_reserved.2 ⟨by omega, hr⟩] at h; cases h
    | some r => rw [regionAt_eq_register.2 ⟨by omega, hr⟩] at h; cases h
  · rw [regionAt_eq_inBuf.2 ⟨(by omega : off = 0x1000000 + (off - 0x1000000)), by omega, by omega⟩] at h
    cases h
  · rw [regionAt_eq_outBuf.2 ⟨(by omega : off = 0x2000000 + (off - 0x2000000)), by omega, by omega⟩] at h
    cases h

/-- The access column by register number: seven readable registers, and ten writable ones. -/
theorem Reg.allows_iff {n : Nat} {r : Reg} {d : Dir} (h : regAt n = some r) : r.access.allows d = true ↔
    (d = .rd ∧ n < 7) ∨ (d = .wr ∧ (n = 1 ∨ n = 3 ∨ (8 ≤ n ∧ n < 16))) := by
  cases r with
  | id => rw [regAt_eq_id.1 h]; cases d <;> simp [Reg.access, Access.allows]
  | ctrl => rw [regAt_eq_ctrl.1 h]; cases d <;> simp [Reg.access, Access.allows]
  | status => rw [regAt_eq_status.1 h]; cases d <;> simp [Reg.access, Access.allows]
  | inLen => rw [regAt_eq_inLen.1 h]; cases d <;> simp [Reg.access, Access.allows]
  | outLen => rw [regAt_eq_outLen.1 h]; cases d <;> simp [Reg.access, Access.allows]
  | blkIdx => rw [regAt_eq_blkIdx.1 h]; cases d <;> simp [Reg.access, Access.allows]
  | cap => rw [regAt_eq_cap.1 h]; cases d <;> simp [Reg.access, Access.allows]
  | key i =>
    have hi := i.isLt
    rw [regAt_eq_key.1 h]
    cases d <;> simp [Reg.access, Access.allows] <;> omega

/-- A register that allows reads has a value to read (R48). -/
theorem State.regValue_of_allows_rd {r : Reg} (h : r.access.allows .rd = true) (s : State) :
    ∃ w, s.regValue r = some w := by
  cases r with
  | key i => simp [Reg.access, Access.allows] at h
  | _ => exact ⟨_, rfl⟩

/-! ## The table of OKAY (R44) and the lockout (R47) -/

/-- The transaction is in a row of R44's table, by the numbers of the address map. -/
def OkayRow (cap : Nat) (q : Request) : Prop :=
  let off := q.off.toNat
  (q.size = 4 ∧ off % 4 = 0 ∧ q.dir = .rd ∧ off < 0x01C) ∨
    (q.size = 4 ∧ off % 4 = 0 ∧ q.dir = .wr ∧ (off = 0x004 ∨ off = 0x00C ∨ (0x020 ≤ off ∧ off < 0x040))) ∨
    ((q.size = 1 ∨ (q.size = 4 ∧ off % 4 = 0)) ∧ 0x1000000 ≤ off ∧ off < 0x1000000 + cap) ∨
    (q.dir = .rd ∧ (q.size = 1 ∨ (q.size = 4 ∧ off % 4 = 0)) ∧ 0x2000000 ≤ off ∧ off < 0x2000000 + cap)

/-- What the table permits by region is what it permits by offset. -/
theorem permits_iff_okayRow (s : State) (q : Request) : permits (s.regionOf q) q = true ↔ OkayRow s.cap q := by
  have hcap := s.cap_le
  unfold OkayRow
  cases hg : s.regionOf q with
  | register r =>
    obtain ⟨ho, hr⟩ := regionAt_eq_register.1 hg
    simp only [permits, Bool.and_eq_true, beq_iff_eq, Reg.allows_iff hr]
    cases q.dir <;> simp <;> omega
  | inBuf k =>
    obtain ⟨ho, hk, -⟩ := regionAt_eq_inBuf.1 hg
    simp only [permits, Bool.or_eq_true, Bool.and_eq_true, beq_iff_eq]
    omega
  | outBuf k =>
    obtain ⟨ho, hk, -⟩ := regionAt_eq_outBuf.1 hg
    simp only [permits, Bool.or_eq_true, Bool.and_eq_true, beq_iff_eq]
    cases q.dir <;> simp <;> omega
  | reserved =>
    obtain ⟨ho, hr⟩ := regionAt_eq_reserved.1 hg
    have hn := regAt_eq_none.1 hr
    simp only [permits, Bool.false_eq_true, false_iff]
    omega
  | unmapped =>
    obtain ⟨ho, hin, hout⟩ := regionAt_unmapped_outside hg
    simp only [permits, Bool.false_eq_true, false_iff]
    omega

/-- Of the accesses a register allows, the lockout spares the reads. -/
theorem lockable_register_iff {r : Reg} {d : Dir} (h : r.access.allows d = true) :
    lockable (.register r) d = false ↔ d = .rd := by
  cases d with
  | rd => cases r <;> simp [lockable]
  | wr => cases r <;> simp_all [lockable, Reg.access, Access.allows]

/-- Of what the table permits, the lockout spares the register reads. -/
theorem lockable_eq_false_iff {s : State} {q : Request} (h : permits (s.regionOf q) q = true) :
    lockable (s.regionOf q) q.dir = false ↔ q.dir = .rd ∧ q.off.toNat < 0x100 := by
  cases hg : s.regionOf q with
  | register r =>
    obtain ⟨ho, -⟩ := regionAt_eq_register.1 hg
    rw [hg] at h
    simp only [permits, Bool.and_eq_true] at h
    obtain ⟨-, hallow⟩ := h
    rw [lockable_register_iff hallow]
    exact (and_iff_left ho).symm
  | inBuf k =>
    obtain ⟨ho, -, -⟩ := regionAt_eq_inBuf.1 hg
    simp only [lockable, Bool.true_eq_false, false_iff]
    omega
  | outBuf k =>
    obtain ⟨ho, -, -⟩ := regionAt_eq_outBuf.1 hg
    rw [hg] at h
    simp only [permits, Bool.and_eq_true, beq_iff_eq] at h
    obtain ⟨hd, -⟩ := h
    simp only [lockable, hd, beq_self_eq_true, Bool.true_eq_false, false_iff]
    omega
  | reserved => rw [hg] at h; cases h
  | unmapped => rw [hg] at h; cases h

/-- The transaction gets OKAY, by offset: the lockout first, then the table. -/
theorem State.accepts_iff_okayRow {s : State} {q : Request} : s.accepts q = true ↔
    (s.busy = true → q.dir = .rd ∧ q.off.toNat < 0x100) ∧ OkayRow s.cap q := by
  rw [State.accepts_iff, ← permits_iff_okayRow]
  exact and_congr_left fun h => imp_congr_right fun _ => lockable_eq_false_iff h

/-! ## The response tells whether the transaction was accepted -/

@[simp] theorem errorResponse_resp (d : Dir) : (errorResponse d).resp = .error := by cases d <;> rfl

/-- An accepted read answers OKAY and changes only the response. -/
theorem transact_accepted_read {s : State} {q : Request} (h : s.accepts q = true) (hd : q.dir = .rd) :
    ∃ w, transact q s = .next (s.okayRead w) := by
  rw [transact_okay h]
  obtain ⟨-, hperm⟩ := State.accepts_iff.1 h
  cases hg : s.regionOf q with
  | register r =>
    rw [hg] at hperm
    simp only [permits, Bool.and_eq_true, hd] at hperm
    obtain ⟨-, hallow⟩ := hperm
    obtain ⟨w, hw⟩ := State.regValue_of_allows_rd hallow s
    exact ⟨w, by simp [perform, hd, readRegister, hw]⟩
  | inBuf k => exact ⟨readData s.inByte q.size k, by simp [perform, hd]⟩
  | outBuf k => exact ⟨readData s.maskedOutByte q.size k, by simp [perform, hd]⟩
  | reserved => rw [hg] at hperm; cases hperm
  | unmapped => rw [hg] at hperm; cases hperm

/-- An accepted write answers OKAY without data. -/
theorem transact_accepted_write {s : State} {q : Request} (h : s.accepts q = true) (hd : q.dir = .wr) :
    ∃ t, transact q s = .next t ∧ t.resp = some ⟨.okay, none⟩ := by
  have hidle := State.idle_of_accepts_wr h hd
  rw [transact_okay h]
  obtain ⟨-, hperm⟩ := State.accepts_iff.1 h
  cases hg : s.regionOf q with
  | register r =>
    rw [hg] at hperm
    simp only [permits, Bool.and_eq_true, hd] at hperm
    obtain ⟨-, hallow⟩ := hperm
    simp only [perform, hd]
    cases r with
    | ctrl => exact ⟨_, exec_decodeWord hidle, by split <;> rfl⟩
    | inLen => exact ⟨_, rfl, rfl⟩
    | key i => exact ⟨_, rfl, rfl⟩
    | _ => cases hallow
  | inBuf k => exact ⟨(s.writeIn k (writeData q.size q.wdata)).okayWrite, by simp [perform, hd], rfl⟩
  | outBuf k => rw [hg] at hperm; simp [permits, hd] at hperm
  | reserved => rw [hg] at hperm; cases hperm
  | unmapped => rw [hg] at hperm; cases hperm

/-- Every transaction gets a response, and it is OKAY exactly when the transaction is accepted. -/
theorem transact_response (q : Request) (s : State) :
    ∃ t r, transact q s = .next t ∧ t.resp = some r ∧ (r.resp = .okay ↔ s.accepts q = true) := by
  cases ha : s.accepts q with
  | false => exact ⟨_, errorResponse q.dir, transact_error ha, rfl, by simp⟩
  | true =>
    cases hd : q.dir with
    | rd =>
      obtain ⟨w, hw⟩ := transact_accepted_read ha hd
      exact ⟨_, _, hw, rfl, by simp⟩
    | wr =>
      obtain ⟨t, ht, hresp⟩ := transact_accepted_write ha hd
      exact ⟨t, _, ht, hresp, by simp⟩

/-- A transaction that answers ERROR was turned away. -/
theorem transact_of_error {q : Request} {s t : State} {d : Option Word} (h : transact q s = .next t)
    (hr : t.resp = some ⟨.error, d⟩) : t = s.busError q.dir := by
  obtain ⟨t', r, h', hr', hokay⟩ := transact_response q s
  obtain rfl : t' = t := by rw [h] at h'; cases h'; rfl
  obtain rfl : r = ⟨.error, d⟩ := by rw [hr] at hr'; cases hr'; rfl
  have hna : s.accepts q = false := by simpa using mt hokay.2 nofun
  rw [transact_error hna] at h
  cases h
  rfl

/-! ## The busy engine (R47) -/

/-- Below 0x01C every word is a readable register. -/
theorem State.readable_register (s : State) {off : Nat} (h : off < 0x01C) :
    ∃ g w, regAt (off / 4) = some g ∧ s.regValue g = some w := by
  cases hr : regAt (off / 4) with
  | none => have := regAt_eq_none.1 hr; omega
  | some g =>
    have hallow : g.access.allows .rd = true := (Reg.allows_iff hr).2 (.inl ⟨rfl, by omega⟩)
    obtain ⟨w, hw⟩ := State.regValue_of_allows_rd hallow s
    exact ⟨g, w, rfl, hw⟩

/-- While busy, the aligned word reads below 0x01C are what is accepted. -/
theorem State.accepts_busy_iff {s : State} {q : Request} (hb : s.busy = true) : s.accepts q = true ↔
    q.dir = .rd ∧ q.size = 4 ∧ q.off.toNat % 4 = 0 ∧ q.off.toNat ≤ 0x018 := by
  rw [State.accepts_iff_okayRow]
  unfold OkayRow
  cases q.dir with
  | rd => simp [hb]; omega
  | wr => simp [hb]

/-- What a busy engine answers: the value of a readable register, or ERROR. -/
theorem transact_busy {s : State} (hb : s.busy = true) (q : Request) :
    ∃ r, transact q s = .next { s with resp := some r } ∧
      (r.resp = .okay ↔ q.dir = .rd ∧ q.size = 4 ∧ q.off.toNat % 4 = 0 ∧ q.off.toNat ≤ 0x018) ∧
      (r.resp = .okay → ∀ g, regAt (q.off.toNat / 4) = some g → r.rdata = s.regValue g) := by
  rw [← State.accepts_busy_iff hb]
  cases ha : s.accepts q with
  | false => exact ⟨_, transact_error ha, by simp, by simp⟩
  | true =>
    obtain ⟨hd, hs, hal, ho⟩ := (State.accepts_busy_iff hb).1 ha
    obtain ⟨g, w, hg, hw⟩ := s.readable_register (off := q.off.toNat) (by omega)
    refine ⟨_, transact_regRead hd hs (by omega) hal hg hw, by simp, fun _ g' hg' => ?_⟩
    obtain rfl : g = g' := by rw [hg] at hg'; cases hg'; rfl
    exact hw.symm

/-! ## Buffer accesses of an idle engine (R50 to R52) -/

section
variable {s : State} {q : Request} {k : Nat}

/-- A byte or aligned word read of IN_BUF. -/
theorem transact_inBuf_read (hp : s.phase = .idle) (hd : q.dir = .rd) (ho : q.off.toNat = 0x1000000 + k)
    (hk : k < s.cap) (hs : q.size = 1 ∨ (q.size = 4 ∧ k % 4 = 0)) :
    transact q s = .next (s.okayRead (readData s.inByte q.size k)) := by
  have ha : s.accepts q = true := State.accepts_iff_okayRow.2
    ⟨by simp [State.busy_eq_false.2 hp], .inr (.inr (.inl ⟨by omega, by omega, by omega⟩))⟩
  rw [transact_okay ha, State.regionOf_inBuf ho hk]
  simp [perform, hd]

/-- A byte or aligned word read of OUT_BUF. -/
theorem transact_outBuf_read (hp : s.phase = .idle) (hd : q.dir = .rd) (ho : q.off.toNat = 0x2000000 + k)
    (hk : k < s.cap) (hs : q.size = 1 ∨ (q.size = 4 ∧ k % 4 = 0)) :
    transact q s = .next (s.okayRead (readData s.maskedOutByte q.size k)) := by
  have ha : s.accepts q = true := State.accepts_iff_okayRow.2
    ⟨by simp [State.busy_eq_false.2 hp], .inr (.inr (.inr ⟨hd, by omega, by omega, by omega⟩))⟩
  rw [transact_okay ha, State.regionOf_outBuf ho hk]
  simp [perform, hd]

end

/-- Lane `j` of the word read at `k` is byte `k + j` (R54). -/
theorem byteOf_readData_word (f : Nat → Byte) (k : Nat) {j : Nat} (hj : j < 4) :
    byteOf (readData f 4 k) j = f (k + j) := by
  obtain ⟨h0, h1, h2, h3⟩ := byteOf_wordOfBytes (f k) (f (k + 1)) (f (k + 2)) (f (k + 3))
  interval_cases j
  · exact h0
  · exact h1
  · exact h2
  · exact h3

/-- Entry `j` of a word's bytes is its lane `j` (R54). -/
theorem bytesOfWord_getElem (w : Word) (j : Nat) (hj : j < (bytesOfWord w).length) :
    (bytesOfWord w)[j] = byteOf w j := by
  have hj' : j < 4 := hj
  interval_cases j <;> rfl

/-- A word written at `k` puts its lane `j` in IN_BUF byte `k + j` (R51). -/
theorem State.inByte_writeIn_word (s : State) (k : Nat) (w : Word) {j : Nat} (hj : j < 4) :
    (s.writeIn k (bytesOfWord w)).inByte (k + j) = byteOf w j := by
  have hlen : (bytesOfWord w).length = 4 := rfl
  rw [State.inByte_writeIn, dif_pos ⟨by omega, by omega⟩, bytesOfWord_getElem, Nat.add_sub_cancel_left]

/-- A word written at `k` leaves the bytes outside `k .. k+3` as they are. -/
theorem State.inByte_writeIn_word_frame (s : State) (k : Nat) (w : Word) {a : Nat} (ha : a < k ∨ k + 4 ≤ a) :
    (s.writeIn k (bytesOfWord w)).inByte a = s.inByte a := by
  have hlen : (bytesOfWord w).length = 4 := rfl
  rw [State.inByte_writeIn, dif_neg (by omega)]

/-! ## What writes OUT_BUF (R53, R56) -/

/-- No transaction changes OUT_BUF. -/
theorem Transacted.outBuf_eq {q : Request} {s t : State} (h : Transacted q s t) : t.outBuf = s.outBuf := by
  cases h with
  | error h => rw [h, busError_outBuf]
  | read w _ h => rw [h, okayRead_outBuf]
  | command hp _ h =>
    rw [exec_decodeWord hp] at h
    cases h
    split
    · rw [okayWrite_outBuf, start_outBuf]
    · rw [okayWrite_outBuf, storeCtrl_outBuf]
  | length _ _ h => rw [h, okayWrite_outBuf, writeInLen_outBuf]
  | key i _ _ h => rw [h, okayWrite_outBuf, writeKey_outBuf]
  | input k _ _ _ _ _ h => rw [h, okayWrite_outBuf, writeIn_outBuf]

/-- The CHECK step leaves OUT_BUF as it is. -/
theorem conclude_check_outBuf (s : State) : s.check.conclude.outBuf = s.outBuf := by
  rcases check_frame s with ⟨c, n, h⟩ | ⟨olen, nblk, padb, n, h⟩ <;> rw [h, Verdict.conclude]
  · rw [finish_outBuf]
  · split
    · rw [finish_outBuf]
    · rw [enterRun_outBuf]

/-- A turn of the engine that changes OUT_BUF is a RUN step. -/
theorem engineStep_run_of_outBuf_ne {s t : State} (h : engineStep s = .next t) (hne : t.outBuf ≠ s.outBuf) :
    s.phase = .run := by
  rcases engineStep_spec h with ⟨-, rfl⟩ | ⟨-, rfl⟩ | ⟨hp, -⟩
  · exact absurd rfl hne
  · exact absurd (conclude_check_outBuf s) hne
  · exact hp

/-! ## The obligations -/

/-- Settles O35: the response is OKAY exactly when the transaction is accepted, which the table by offset decides. -/
theorem transactionsGetOkayExactlyByTheTable : Obligations.TransactionsGetOkayExactlyByTheTable := by
  intro s q rest
  obtain ⟨t, r, ht, hr, hokay⟩ := transact_response q { s with pending := rest }
  exact ⟨t, r, ht, hr, hokay.trans State.accepts_iff_okayRow⟩

/-- Settles O36: what answers ERROR was turned away, and `raise BusError` changes the response alone. -/
theorem busErrorsChangeNothing : Obligations.BusErrorsChangeNothing := by
  intro s t q rest d h hr
  obtain rfl := transact_of_error h hr
  obtain rfl : (errorResponse q.dir).rdata = d := congrArg Response.rdata (Option.some.inj hr)
  cases q.dir <;> exact ⟨rfl, rfl⟩

/-- Settles O38: a busy engine accepts the reads of readable registers alone. -/
theorem busyTransactionsChangeOnlyTheResponse : Obligations.BusyTransactionsChangeOnlyTheResponse := by
  intro s q rest hb
  obtain ⟨r, hstep, hokay, hdata⟩ := transact_busy (s := { s with pending := rest }) hb q
  refine ⟨r, hstep, hokay, fun h g hg => (hdata h g hg).trans ?_⟩
  cases g <;> rfl

/-- Settles O44, by the four bytes of a word, lowest first, in both directions. -/
theorem inBufWordAccesses : Obligations.InBufWordAccesses := by
  intro s k w rest hp hk hal
  have hcap := s.cap_le
  have ho : (BitVec.ofNat 26 (0x1000000 + k)).toNat = 0x1000000 + k := toNat_ofNat26 (by omega)
  constructor
  · exact ⟨_, transact_wrIn (s := { s with pending := rest }) hp hk hal w false, rfl,
      fun j hj => State.inByte_writeIn_word _ k w hj, fun a ha => State.inByte_writeIn_word_frame _ k w ha⟩
  · exact ⟨_, transact_inBuf_read (s := { s with pending := rest }) hp rfl ho hk (.inr ⟨rfl, hal⟩),
      fun j hj => byteOf_readData_word s.inByte k hj⟩

/-- Settles O45: the read data are made of the masked bytes, zero-extended or by lanes. -/
theorem outBufReadsAreMaskedByOutLen : Obligations.OutBufReadsAreMaskedByOutLen := by
  intro s k w rest hp hk
  have hcap := s.cap_le
  have ho : (BitVec.ofNat 26 (0x2000000 + k)).toNat = 0x2000000 + k := toNat_ofNat26 (by omega)
  refine ⟨?_, fun hal => ?_⟩
  · exact transact_outBuf_read (s := { s with pending := rest }) hp rfl ho hk (.inl rfl)
  · exact ⟨_, transact_outBuf_read (s := { s with pending := rest }) hp rfl ho hk (.inr ⟨rfl, hal⟩),
      fun j hj => byteOf_readData_word s.maskedOutByte k hj⟩

/-- Settles O46: the table has no row for a write there, and of all steps only RUN and reset reach OUT_BUF. -/
theorem onlyRunStepsWriteOutBuf : Obligations.OnlyRunStepsWriteOutBuf := by
  refine ⟨fun s q rest hd hlo hhi => ?_, fun s t h hne => ?_⟩
  · have hg : State.regionOf { s with pending := rest } q = .outBuf (q.off.toNat - 0x2000000) :=
      State.regionOf_outBuf (by omega) (show _ < s.cap by omega)
    rw [step_with_bus, transact_not_permitted (by simp [hg, permits, hd]), hd]
    rfl
  · cases step_spec h with
    | engine hq h =>
      exact .inl ⟨engineStep_run_of_outBuf_ne (s := { s with pending := s.pending.tail }) h hne, hq.imp_right fun hq => ⟨_, hq⟩⟩
    | bus q rest _ h => exact absurd h.outBuf_eq hne
    | reset q rest hq h => exact .inr ⟨q, rest, hq⟩

end Sys2Proof.Machine
end

section
/-! SUPPORT. Proofs for the encoding family (30_encoding.md): the row of the opcode map a word matches, and what CFG
stores. -/

namespace Sys2Proof

/-! ## What the decoder gives (R69, R73) -/

theorem commandOf_wellFormed (op : BitVec 3) (perr pchk : Bool) : (commandOf op perr pchk).wellFormed = true := by
  unfold commandOf
  split
  · rfl
  · rfl
  · rfl
  · rfl
  · rename_i h0 h1 h2 h3
    simp only [Instr.wellFormed, decide_eq_true_eq]
    change op.toNat ≠ _ at h0 h1 h2 h3
    omega

theorem decodeWord_wellFormed (w : Word) : (decodeWord w).wellFormed = true := by
  unfold decodeWord
  split
  · exact commandOf_wellFormed _ _ _
  · rfl

/-- The decoded instruction's own word is the word with its reserved bits cleared. -/
theorem encode_decodeWord_eq_masked (w : Word) : encode (decodeWord w) = w &&& 0x00000137#32 := by
  rw [encode_decodeWord, packWord_fields]

/-! ## The rows of the opcode map (R73) -/

/-- No row's mask selects a reserved bit. -/
theorem opcodeMap_mask {r : OpcodeRow} (hr : r ∈ opcodeMap) : 0x00000137#32 &&& r.mask = r.mask := by
  revert r; decide

/-- A word matches the rows that its instruction's own word matches. -/
theorem OpcodeRow.hits_eq_hits_encode {r : OpcodeRow} (hr : r ∈ opcodeMap) (w : Word) :
    r.hits w = r.hits (encode (decodeWord w)) := by
  rw [OpcodeRow.hits, OpcodeRow.hits, encode_decodeWord_eq_masked, BitVec.and_assoc, opcodeMap_mask hr]

/-- An instruction's own word matches the row of its mnemonic and no other. -/
theorem OpcodeRow.hits_encode_iff {r : OpcodeRow} (hr : r ∈ opcodeMap) {i : Instr} (hi : i.wellFormed = true) :
    r.hits (encode i) = true ↔ i.mnemonic = r.mnemonic := by
  revert r hi
  cases i with
  | cfg op perr pchk => revert op perr pchk; decide
  | encode perr pchk => revert perr pchk; decide
  | decode perr pchk => revert perr pchk; decide
  | encrypt perr pchk => revert perr pchk; decide
  | decrypt perr pchk => revert perr pchk; decide
  | reservedOp op perr pchk => revert op perr pchk; decide

/-- A word matches the row of the instruction it decodes to and no other. -/
theorem OpcodeRow.hits_iff {r : OpcodeRow} (hr : r ∈ opcodeMap) (w : Word) :
    r.hits w = true ↔ (decodeWord w).mnemonic = r.mnemonic := by
  rw [OpcodeRow.hits_eq_hits_encode hr, OpcodeRow.hits_encode_iff hr (decodeWord_wellFormed w)]

/-- The row of the table that `m`, `p` and `k` write out, as a condition on the word. -/
theorem mnemonic_decodeWord_iff {m : String} {p k : Word} (hr : ⟨m, p, k⟩ ∈ opcodeMap) (w : Word) :
    (decodeWord w).mnemonic = m ↔ w &&& k = p :=
  (OpcodeRow.hits_iff hr w).symm.trans beq_iff_eq

/-- Each instruction's mnemonic names one row of the opcode map. -/
theorem opcodeMap_filter_mnemonic (i : Instr) :
    (opcodeMap.filter fun r => decide (i.mnemonic = r.mnemonic)).map OpcodeRow.mnemonic = [i.mnemonic] := by
  cases i <;> rfl

/-- The rows a word matches are those with the mnemonic of its instruction. -/
theorem opcodeMap_filter_hits (w : Word) :
    (opcodeMap.filter fun r => r.hits w) = opcodeMap.filter fun r => decide ((decodeWord w).mnemonic = r.mnemonic) :=
  List.filter_congr fun _ hr => Bool.eq_iff_iff.2 ((OpcodeRow.hits_iff hr w).trans decide_eq_true_iff.symm)

end Sys2Proof

namespace Sys2Proof.Machine

/-! ## CFG on an idle engine (R72) -/

theorem exec_cfg_idle {s : State} (hp : s.phase = .idle) (op : BitVec 3) (perr pchk : Bool) :
    exec (.cfg op perr pchk) s = .next (s.storeCtrl op perr pchk).okayWrite := by
  simp [exec, execCfg, configure, State.busy_eq_false.2 hp]

/-! ## The obligations -/

/-- Settles O4: a row reads only bits the decoder reads, so each is checked on the words of the instructions. -/
theorem opcodeRowsPartitionTheWords : Obligations.OpcodeRowsPartitionTheWords := by
  intro w
  have row {m : String} {p k : Word} (hr : ⟨m, p, k⟩ ∈ opcodeMap) := mnemonic_decodeWord_iff hr w
  refine ⟨row (by decide), row (by decide), row (by decide), row (by decide), row (by decide), row (by decide), ?_⟩
  rw [opcodeMap_filter_hits, opcodeMap_filter_mnemonic]

/-- Settles O6: the CTRL write of a word with START = 0 is the CFG of its three fields. -/
theorem cfgStoresItsThreeFields : Obligations.CfgStoresItsThreeFields := by
  refine ⟨fun s op perr pchk hp => exec_cfg_idle hp op perr pchk, fun s w rest hp hw => ?_⟩
  have hcfg : decodeWord w = .cfg (opField w) (bitOf w 4) (bitOf w 5) := 
    if_neg (Bool.eq_false_iff.1 hw)
  calc step { s with pending := .bus (ctrlWrite w) :: rest }
      = transact (ctrlWrite w) { s with pending := rest } := step_with_bus s _ rest
    _ = exec (.cfg (opField w) (bitOf w 4) (bitOf w 5)) { s with pending := rest } := by
      rw [transact_ctrlWrite, hcfg]
    _ = _ := exec_cfg_idle (s := { s with pending := rest }) hp _ _ _

end Sys2Proof.Machine
end

section
/-! SUPPORT. Proofs for the command cycle family (40_command_cycle.md): the START transition, the CHECK step of a
reserved OP, the RUN step, and what finish writes. -/

namespace Sys2Proof

/-! ## The words of RESERVED_OP (R73, R87) -/

theorem commandOf_reserved {op : BitVec 3} (h : 4 ≤ op.toNat) (perr pchk : Bool) :
    commandOf op perr pchk = .reservedOp op perr pchk := by
  unfold commandOf
  split
  case h_5 => rfl
  all_goals omega

/-- An OP with its top bit set is reserved. -/
theorem opField_reserved {w : Word} (h : bitOf w 2 = true) : 4 ≤ (opField w).toNat := by
  have htop : (opField w).getLsbD 2 = true := by
    simpa [opField, bitOf] using h
  exact Nat.ge_two_pow_of_testBit htop

theorem decodeWord_reserved {w : Word} (h8 : bitOf w 8 = true) (h2 : bitOf w 2 = true) :
    decodeWord w = .reservedOp (opField w) (bitOf w 4) (bitOf w 5) := by
  rw [decodeWord, if_pos h8, commandOf_reserved (opField_reserved h2)]

end Sys2Proof

namespace Sys2Proof.Machine

/-! ## START on an idle engine (R82) -/

theorem startCommand_idle {s : State} (hp : s.phase = .idle) (op : BitVec 3) (perr pchk : Bool) :
    startCommand op perr pchk s = (s.start op perr pchk).okayWrite := by
  simp [startCommand, State.busy_eq_false.2 hp]

/-- A command with START = 1 is the START of its OP; a RESERVED_OP carries its OP. -/
theorem exec_command {i : Instr} {op : BitVec 3} {perr pchk : Bool}
    (h : (i = .encode perr pchk ∧ op = 0#3) ∨ (i = .decode perr pchk ∧ op = 1#3) ∨
      (i = .encrypt perr pchk ∧ op = 2#3) ∨ (i = .decrypt perr pchk ∧ op = 3#3) ∨
      (i = .reservedOp op perr pchk ∧ 4 ≤ op.toNat)) (s : State) :
    exec i s = .next (startCommand op perr pchk s) := by
  rcases h with ⟨rfl, rfl⟩ | ⟨rfl, rfl⟩ | ⟨rfl, rfl⟩ | ⟨rfl, rfl⟩ | ⟨rfl, -⟩
  · rfl
  · rfl
  · rfl
  · rfl
  · rfl

/-! ## The CHECK step of a reserved OP (R83, R87) -/

theorem State.check_reserved {s : State} (h : 4 ≤ s.lop.toNat) : s.check = .fail .badOp s := by
  unfold State.check
  split
  case h_5 => rfl
  all_goals omega

theorem State.ecbLatched_iff {s : State} : s.ecbLatched = true ↔ s.lop = 2#3 ∨ s.lop = 3#3 := by
  simp [State.ecbLatched]

/-- A reserved OP has no key to clear. -/
theorem State.ecbLatched_reserved {s : State} (h : 4 ≤ s.lop.toNat) : s.ecbLatched = false := by
  refine Bool.eq_false_iff.2 fun he => ?_
  rcases State.ecbLatched_iff.1 he with h' | h'
  · rw [h'] at h; contradiction
  · rw [h'] at h; contradiction

/-! ## What finish writes (R85, R111) -/

theorem State.finish_eq (s : State) (code : ErrCode) : s.finish code = { s with
    outLen := if code = .none then s.olen else s.outLen
    err := code, done := true, phase := .idle
    key := if s.ecbLatched then Vector.replicate 8 0#32 else s.key
    keyw := if s.ecbLatched then 0x00#8 else s.keyw } := by
  unfold State.finish State.reportLength
  by_cases hc : code = .none
  · cases s.ecbLatched <;> simp [hc, State.keyZeroize]
  · cases s.ecbLatched <;> simp [hc, State.keyZeroize]

/-! ## The RUN step (R84) -/

theorem engineStep_run {s : State} (h : s.phase = .run) : engineStep s = runStep s := by
  simp [engineStep, h]

/-- Chunk `i` writes its own lanes of OUT_BUF. -/
theorem State.putChunk_read_lane (s : State) (i : Nat) (b : Block) {j : Nat} (h : j < 16) :
    (s.putChunk i b).outBuf.read (16 * i + j) = some b[j] := by
  rw [putChunk_outBuf, Memory.read_writeChunk, dif_pos (by omega)]
  simp

/-- Chunk `i` leaves OUT_BUF outside its lanes as it is. -/
theorem State.putChunk_read_frame (s : State) (i : Nat) (b : Block) {k : Nat} (h : k < 16 * i ∨ 16 * i + 16 ≤ k) :
    (s.putChunk i b).outBuf.read k = s.outBuf.read k := by
  rw [putChunk_outBuf, Memory.read_writeChunk, dif_neg (by omega)]

/-- A chunk changes OUT_BUF and BLK_IDX, and the last one finishes the command too. -/
theorem State.putChunk_eq (s : State) (i : Nat) (b : Block) : s.putChunk i b =
    if i + 1 = s.nblk.toNat then State.finish { s with
      outBuf := (s.putChunk i b).outBuf, blkIdx := (s.putChunk i b).blkIdx } .none
    else { s with outBuf := (s.putChunk i b).outBuf, blkIdx := (s.putChunk i b).blkIdx } := by
  rw [putChunk_outBuf, putChunk_blkIdx]
  rfl

/-- A chunk sees the key through `KeyBytes()` only. -/
theorem State.chunk_congr_keyBytes {s t : State} (hlop : t.lop = s.lop) (hllen : t.llen = s.llen)
    (holen : t.olen = s.olen) (hpadb : t.padb = s.padb) (hkey : t.keyBytes = s.keyBytes)
    (hin : t.inByte = s.inByte) (i : Nat) : t.chunk i = s.chunk i := by
  unfold State.chunk encodeChunk decodeChunk encryptChunk decryptChunk State.inputLength
  rw [hlop, hllen, holen, hpadb, hin, hkey, State.inBlock_congr hin]

/-! ## The obligations -/

/-- Settles O17: the CHECK step fails before it reads anything, and `finish` clears no key for a reserved OP. -/
theorem reservedOpReportsBadOp : Obligations.ReservedOpReportsBadOp := by
  refine ⟨fun w hw => ?_, fun s op perr pchk hp hq hop => ?_⟩
  · have hfix : w &&& 0x00000104#32 = 0x00000104#32 &&& 0x00000104#32 := hw
    have h8 : bitOf w 8 = true := bitOf_congr_of_masked hfix rfl
    have h2 : bitOf w 2 = true := bitOf_congr_of_masked hfix rfl
    exact ⟨decodeWord_reserved h8 h2, opField_reserved h2⟩
  · have hexec : exec (.reservedOp op perr pchk) s = .next (s.start op perr pchk).okayWrite :=
      congrArg Host.Outcome.next (startCommand_idle hp op perr pchk)
    have hlop : 4 ≤ (s.start op perr pchk).okayWrite.lop.toNat := hop
    have hecb := State.ecbLatched_reserved hlop
    refine ⟨_, _, hexec, check_fails rfl hq (State.check_reserved hlop), ?_, ?_, ?_, ?_, ?_⟩
    · constructor <;> simp
    · simp
    · constructor <;> simp
    · constructor <;> simp
    · constructor <;> simp [hecb]

/-- Settles O31: in range the step is `putChunk` of the chunk that the latched OP gives. -/
theorem runStepWritesOneChunk : Obligations.RunStepWritesOneChunk := by
  refine ⟨fun s hp hq hl hi hc => ?_, fun s u i hlop hllen holen hpadb hkey hin => ?_⟩
  · have hstep : step s = .next (s.putChunk s.blkIdx.toNat (s.chunkAt s.blkIdx.toNat)) := by
      rw [step_nil hq, engineStep_run hp, runStep_eq hl hi hc]
    have hidx : (s.putChunk s.blkIdx.toNat (s.chunkAt s.blkIdx.toNat)).blkIdx = s.blkIdx + 1#32 := by
      rw [putChunk_blkIdx, BitVec.ofNat_add, BitVec.ofNat_toNat, BitVec.setWidth_eq]
    exact ⟨_, _, hstep, State.chunk_eq_some hl _, hidx, fun j hj => State.putChunk_read_lane s _ _ hj,
      fun k hk => State.putChunk_read_frame s _ _ hk, State.putChunk_eq s _ _⟩
  · exact State.chunk_congr_keyBytes hlop hllen holen hpadb hkey (funext hin) i

/-- Settles O7: a command is the START of its OP, and a word with START = 1 is the START of its fields. -/
theorem commandsMakeTheStartTransition : Obligations.CommandsMakeTheStartTransition := by
  refine ⟨fun s i op perr pchk hp hi => ?_, fun s w rest hp hw => ?_⟩
  · rw [exec_command hi, startCommand_idle hp]
    rfl
  · calc step { s with pending := .bus (ctrlWrite w) :: rest }
        = transact (ctrlWrite w) { s with pending := rest } := step_with_bus s _ rest
      _ = exec (decodeWord w) { s with pending := rest } := transact_ctrlWrite w _
      _ = _ := exec_decodeWord (s := { s with pending := rest }) hp
      _ = .next (State.start { s with pending := rest } (opField w) (bitOf w 4) (bitOf w 5)).okayWrite :=
        congrArg Host.Outcome.next (if_pos hw)

/-- Settles O30: the two ECB operations are those whose key `finish` clears. -/
theorem finishRecordsTheCodeAndClearsTheKey : Obligations.FinishRecordsTheCodeAndClearsTheKey := by
  intro s code
  simp only [State.finish_eq, State.ecbLatched_iff]

end Sys2Proof.Machine
end

section
/-! SUPPORT. Proofs for the padding codec family (41_padding_codec.md): the pad length, the tail check, the chunk lanes,
what ENCODE and DECODE lead to, and the laws between them. -/

namespace Sys2Proof

/-! ## The words of the commands (R69, R73) -/

theorem opField_congr {w v m : Word} (hm : ∀ i < 3, m.getLsbD i = true) (h : w &&& m = v &&& m) :
    opField w = opField v := by
  refine BitVec.eq_of_getLsbD_eq fun i hi => ?_
  have hbit : w.getLsbD i = v.getLsbD i := bitOf_congr_of_masked h (hm i hi)
  simp [opField, hbit]

/-- A word of ENCODE's row (R93). -/
theorem decodeWord_encodeRow {w : Word} (h : w &&& 0x00000107#32 = 0x00000100#32) :
    decodeWord w = .encode (bitOf w 4) (bitOf w 5) := by
  have hrow : w &&& 0x00000107#32 = 0x00000100#32 &&& 0x00000107#32 := h
  have hop : opField w = 0#3 := opField_congr (by decide) hrow
  have h8 : bitOf w 8 = true := bitOf_congr_of_masked hrow rfl
  rw [decodeWord, if_pos h8, hop]
  rfl

/-- The word of an ENCODE decodes to it. -/
theorem decodeWord_encode_encode (perr pchk : Bool) : decodeWord (encode (.encode perr pchk)) = .encode perr pchk := by
  revert perr pchk; decide

/-- The word of a DECODE decodes to it. -/
theorem decodeWord_encode_decode (perr pchk : Bool) : decodeWord (encode (.decode perr pchk)) = .decode perr pchk := by
  revert perr pchk; decide

end Sys2Proof

namespace Sys2Proof.Machine

/-! ## Lengths (R92, R100) -/

theorem padlen_pos (len : Nat) : 1 ≤ padlen len := by unfold padlen; omega

theorem padlen_le (len : Nat) : padlen len ≤ 16 := by unfold padlen; omega

theorem padlen_eq_sixteen_iff {len : Nat} : padlen len = 16 ↔ len % 16 = 0 := by unfold padlen; omega

theorem add_padlen_mod (len : Nat) : (len + padlen len) % 16 = 0 := by unfold padlen; omega

/-- The pad byte is the pad count: nothing is lost in 8 bits. -/
theorem padlen_toNat (len : Nat) : (BitVec.ofNat 8 (padlen len)).toNat = padlen len := by
  have := padlen_le len
  rw [BitVec.toNat_ofNat]; omega

/-- An input below CAP leaves room for its padding (R94). -/
theorem State.add_padlen_le_cap (s : State) {len : Nat} (h : len < s.cap) : len + padlen len ≤ s.cap := by
  have := s.cap_mod
  unfold padlen; omega

theorem le_mul_blocksFor (n : Nat) : n ≤ 16 * blocksFor n := by unfold blocksFor; omega

/-- Whole blocks need no rounding. -/
theorem blocksFor_of_mod {n : Nat} (h : n % 16 = 0) : blocksFor n = n / 16 := by unfold blocksFor; omega

/-! ## The tail check (R96) -/

theorem tailValid_iff {f : Nat → Byte} {len : Nat} {p : Byte} {chk : Bool} : tailValid f len p chk = true ↔
    1 ≤ p.toNat ∧ p.toNat ≤ 16 ∧ p.toNat ≤ len ∧
      (chk = false ∨ ∀ k, len - p.toNat ≤ k → k < len → f k = p) := by
  simp only [tailValid, Bool.and_eq_true, Bool.or_eq_true, Bool.not_eq_true', decide_eq_true_eq, List.all_eq_true,
    List.mem_range, beq_iff_eq, and_assoc]
  refine and_congr_right fun _ => and_congr_right fun _ => and_congr_right fun hlen => or_congr_right ?_
  constructor
  · intro h k hk hlt
    have := h (k - (len - p.toNat)) (by omega)
    rwa [Nat.add_sub_cancel' hk] at this
  · exact fun h j hj => h _ (by omega) (by omega)

/-! ## Lanes (R31, R95, R99) -/

/-- Byte `k` of the chunks a state produces. -/
def State.laneAt (s : State) (k : Nat) : Byte := (s.chunkAt (k / 16))[k % 16]'(by omega)

theorem laneAt_encode {s : State} (h : s.lop = 0#3) (k : Nat) :
    s.laneAt k = if k < s.inputLength then s.inByte k else s.padb := chunkAt_encode h k

theorem laneAt_decode {s : State} (h : s.lop = 1#3) (k : Nat) :
    s.laneAt k = if k < s.olen.toNat then s.inByte k else 0#8 := chunkAt_decode h k

/-- Lane `j` of chunk `i` is byte `16i + j` (R101). -/
theorem chunkAt_lane (s : State) (i : Nat) {j : Nat} (h : j < 16) : (s.chunkAt i)[j] = s.laneAt (16 * i + j) := by
  have hi : (16 * i + j) / 16 = i := by omega
  have hj : (16 * i + j) % 16 = j := by omega
  simp only [State.laneAt, hi, hj]

theorem State.keyBytes_lane (s : State) {a b : Nat} (ha : a < 8) (hb : b < 4) :
    s.keyBytes[4 * a + b] = byteOf s.key[a] b := by
  have hdiv : (4 * a + b) / 4 = a := by omega
  have hmod : (4 * a + b) % 4 = b := by omega
  simp [State.keyBytes, hdiv, hmod]

/-! ## The two checks (R94, R98) -/

/-- A passed check: the output length with its chunk count, the pad byte and NOSTRIP. -/
def State.checked (s : State) (n : Nat) (padb : Byte) (nostrip : Bool) : State :=
  { s with padb := padb, nostrip := nostrip }.setLengths n (blocksFor n)

section
variable (s : State) (n : Nat) (padb : Byte) (b : Bool)

@[simp] theorem checked_lop : (s.checked n padb b).lop = s.lop := rfl
@[simp] theorem checked_nostrip : (s.checked n padb b).nostrip = b := rfl
@[simp] theorem checked_blkIdx : (s.checked n padb b).blkIdx = s.blkIdx := rfl
@[simp] theorem checked_key : (s.checked n padb b).key = s.key := rfl
@[simp] theorem checked_keyw : (s.checked n padb b).keyw = s.keyw := rfl
@[simp] theorem checked_outBuf : (s.checked n padb b).outBuf = s.outBuf := rfl

end

theorem encodeCheck_tooLong {s : State} (h : s.cap ≤ s.inputLength) : encodeCheck s = .fail .length s := if_pos h

theorem encodeCheck_fits {s : State} (h : s.inputLength < s.cap) : encodeCheck s =
    .pass (s.checked (s.inputLength + padlen s.inputLength) (BitVec.ofNat 8 (padlen s.inputLength)) s.nostrip) := by
  rw [State.checked, blocksFor_of_mod (add_padlen_mod _)]
  exact if_neg (Nat.not_le.2 h)

theorem decodeCheck_tooLong {s : State} (h : s.cap < s.inputLength) : decodeCheck s = .fail .length s := if_pos h

theorem decodeCheck_empty {s : State} (h : s.inputLength = 0) :
    decodeCheck s = .pass (s.checked 0 s.padb s.nostrip) := by
  rw [decodeCheck, if_neg (by omega), if_pos h]
  rfl

section
variable {s : State} (hlen : 0 < s.inputLength) (hcap : s.inputLength ≤ s.cap)
include hlen hcap

theorem decodeCheck_valid (h : tailValid s.inByte s.inputLength (s.inByte (s.inputLength - 1)) s.lpchk = true) :
    decodeCheck s =
      .pass (s.checked (s.inputLength - (s.inByte (s.inputLength - 1)).toNat) s.padb s.nostrip) := by
  rw [decodeCheck, if_neg (Nat.not_lt.2 hcap), if_neg (Nat.ne_of_gt hlen), if_pos h]
  rfl

theorem decodeCheck_invalid (h : tailValid s.inByte s.inputLength (s.inByte (s.inputLength - 1)) s.lpchk = false) :
    decodeCheck s = if s.lperr then .fail .padding { s with nostrip := true }
      else .pass (s.checked s.inputLength s.padb true) := by
  rw [decodeCheck, if_neg (Nat.not_lt.2 hcap), if_neg (Nat.ne_of_gt hlen), if_neg (Bool.eq_false_iff.1 h)]
  rfl

end

/-- The output length `n` and NOSTRIP that a successful DECODE of `len` bytes may report (R104). -/
structure DecodedLength (len n : Nat) (nostrip : Bool) : Prop where
  le : n ≤ len
  ge : len ≤ n + 16
  whole_iff : n = len ↔ nostrip = true ∨ len = 0

/-- What `DecodeCheck()` can do when NOSTRIP is 0, as START leaves it. -/
theorem decodeCheck_cases {s : State} (hn : s.nostrip = false) :
    (∃ code b, code ≠ .none ∧ decodeCheck s = .fail code { s with nostrip := b }) ∨
      ∃ n b, decodeCheck s = .pass (s.checked n s.padb b) ∧ n ≤ s.cap ∧ DecodedLength s.inputLength n b := by
  rcases Nat.lt_or_ge s.cap s.inputLength with hlong | hcap
  · exact .inl ⟨.length, s.nostrip, by decide, decodeCheck_tooLong hlong⟩
  rcases Nat.eq_zero_or_pos s.inputLength with hzero | hlen
  · exact .inr ⟨0, s.nostrip, decodeCheck_empty hzero, Nat.zero_le _, by omega, by omega, by simp [hzero]⟩
  cases htail : tailValid s.inByte s.inputLength (s.inByte (s.inputLength - 1)) s.lpchk with
  | true =>
    obtain ⟨hp1, hp16, hple, -⟩ := tailValid_iff.1 htail
    refine .inr ⟨_, s.nostrip, decodeCheck_valid hlen hcap htail, by omega, by omega, by omega, ?_⟩
    rw [hn]
    simp only [Bool.false_eq_true, false_or]
    omega
  | false =>
    have hcheck := decodeCheck_invalid hlen hcap htail
    cases hperr : s.lperr with
    | true => exact .inl ⟨.padding, true, by decide, by rw [hcheck, hperr]; rfl⟩
    | false => exact .inr ⟨_, true, by rw [hcheck, hperr]; rfl, hcap, by omega, by omega, by simp⟩

/-! ## What the engine's turns keep (R56) -/

theorem EngineKept.refl (s : State) : EngineKept s s :=
  ⟨⟨rfl, rfl, rfl, rfl, rfl⟩, rfl, rfl, rfl, rfl, rfl, rfl, rfl, rfl⟩

theorem EngineKept.trans {s t u : State} (h : EngineKept s t) (h' : EngineKept t u) : EngineKept s u where
  inputs := ⟨h'.inputs.capBlocks.trans h.inputs.capBlocks, h'.inputs.inLen.trans h.inputs.inLen,
    h'.inputs.inBuf.trans h.inputs.inBuf, h'.inputs.epoch.trans h.inputs.epoch,
    h'.inputs.pending.trans h.inputs.pending⟩
  ctrlOp := h'.ctrlOp.trans h.ctrlOp
  ctrlPadErr := h'.ctrlPadErr.trans h.ctrlPadErr
  ctrlPadChk := h'.ctrlPadChk.trans h.ctrlPadChk
  lop := h'.lop.trans h.lop
  lperr := h'.lperr.trans h.lperr
  lpchk := h'.lpchk.trans h.lpchk
  llen := h'.llen.trans h.llen
  resp := h'.resp.trans h.resp

/-- A run with no input to come is the engine's turns, and keeps what each of them keeps. -/
theorem runs_engineKept {n : Nat} {s t : State} (hq : s.pending = []) (h : Runs n s t) : EngineKept s t := by
  induction n generalizing s with
  | zero => rw [(runs_zero s t).1 h]; exact .refl s
  | succ n ih =>
    obtain ⟨u, hstep, hrun⟩ := (runs_succ n s t).1 h
    rw [step_nil hq] at hstep
    have hkept := engineStep_kept hstep
    exact hkept.trans (ih (hkept.inputs.pending.trans hq) hrun)

/-! ## START with no other input to come (R82) -/

/-- The state after a START of `op` on `s`, no other input coming. -/
def State.startAlone (s : State) (op : BitVec 3) (perr pchk : Bool) : State :=
  (State.start { s with pending := [] } op perr pchk).okayWrite

section
variable (s : State) (op : BitVec 3) (perr pchk : Bool)

theorem startAlone_eq {s : State} (hq : s.pending = []) :
    s.startAlone op perr pchk = (s.start op perr pchk).okayWrite := by
  rw [State.startAlone, ← hq]

theorem startAlone_nostrip : (s.startAlone op perr pchk).nostrip = false := rfl
theorem startAlone_inputLength : (s.startAlone op perr pchk).inputLength = s.inLen.toNat := rfl
theorem startAlone_inByte : (s.startAlone op perr pchk).inByte = s.inByte := rfl

end

/-- What the turns after a START keep, told of the state before it. -/
theorem EngineKept.inputsKept_of_start {s t : State} {op : BitVec 3} {perr pchk : Bool} (hq : s.pending = [])
    (h : EngineKept (s.startAlone op perr pchk) t) : InputsKept s t :=
  ⟨h.inputs.capBlocks, h.inputs.inLen, h.inputs.inBuf, h.inputs.epoch, h.inputs.pending.trans hq.symm⟩

theorem EngineKept.latched_of_start {s t : State} {op : BitVec 3} {perr pchk : Bool}
    (h : EngineKept (s.startAlone op perr pchk) t) : Latched op perr pchk s t :=
  ⟨h.ctrlOp, h.ctrlPadErr, h.ctrlPadChk, h.lop, h.lperr, h.lpchk, h.llen⟩

/-! ## A padding command from its CHECK step on -/

/-- A state with the CHECK step of a command before it and no other input to come. -/
structure AtCheck (op : BitVec 3) (s : State) : Prop where
  phase : s.phase = .check
  pending : s.pending = []
  lop : s.lop = op
  inv : CheckInv s

theorem startAlone_atCheck (s : State) (op : BitVec 3) (perr pchk : Bool) : AtCheck op (s.startAlone op perr pchk) :=
  ⟨rfl, rfl, rfl, ⟨rfl, rfl, rfl⟩, rfl, rfl, rfl, rfl, rfl⟩

/-- `t` reports the `n` output bytes that `f` gives; `f` fills the last chunk too, and no byte after it changed. The
key is as it was. -/
structure Produced (nostrip : Bool) (n : Nat) (f : Nat → Byte) (s t : State) : Prop where
  ended : Ended .none nostrip n (blocksFor n) t
  lanes : ∀ k, k < 16 * blocksFor n → t.outBuf.read k = some (f k)
  frame : ∀ k, 16 * blocksFor n ≤ k → t.outBuf.read k = s.outBuf.read k
  key : KeyKept s t

/-- START changes neither OUT_BUF nor the key. -/
theorem Produced.of_start {nostrip : Bool} {n : Nat} {f : Nat → Byte} {s t : State} {op : BitVec 3} {perr pchk : Bool}
    (h : Produced nostrip n f (s.startAlone op perr pchk) t) : Produced nostrip n f s t :=
  ⟨h.ended, h.lanes, h.frame, h.key.key, h.key.keyw⟩

/-- A host reads the output bytes back through the OUT_LEN mask. -/
theorem Produced.maskedOutByte {nostrip : Bool} {n : Nat} {f : Nat → Byte} {s t : State}
    (h : Produced nostrip n f s t) {k : Nat} (hk : k < n) : t.maskedOutByte k = f k := by
  have hn := le_mul_blocksFor n
  exact State.maskedOutByte_of_read (by rw [h.ended.outLen]; exact hk) (h.lanes k (by omega))

/-- ENCODE and DECODE clear no key. -/
theorem ecbLatched_padding {s : State} (h : s.lop = 0#3 ∨ s.lop = 1#3) : s.ecbLatched = false := by
  rcases h with h | h
  · simp [State.ecbLatched, h]
  · simp [State.ecbLatched, h]

section
variable {op : BitVec 3} {s : State} (hs : AtCheck op s) (hop : op = 0#3 ∨ op = 1#3)
include hs hop

/-- A failed check ends the command in one turn, with no output. -/
theorem AtCheck.fails {code : ErrCode} {b : Bool} (hcode : code ≠ .none)
    (h : s.check = .fail code { s with nostrip := b }) :
    ∃ t, Runs 1 s t ∧ Ended code b 0 0 t ∧ (∀ k, t.outBuf.read k = s.outBuf.read k) ∧ KeyKept s t := by
  have hecb : State.ecbLatched { s with nostrip := b } = false := ecbLatched_padding (hs.lop ▸ hop)
  refine ⟨_, check_fails hs.phase hs.pending h, ?_, ?_, ?_⟩
  · constructor <;> simp [hcode, hs.inv.unreported.outLen, hs.inv.blkIdx]
  · simp
  · constructor <;> simp [hecb]

/-- A passed check with the output length `n` ends the command after a turn for each chunk of it. -/
theorem AtCheck.passes {n : Nat} {padb : Byte} {b : Bool} (hn : n ≤ s.cap)
    (h : s.check = .pass (s.checked n padb b)) :
    ∃ t, Runs (1 + blocksFor n) s t ∧ Produced b n (s.checked n padb b).laneAt s t := by
  have hcap := s.cap_le
  have hround := s.round_le_cap hn
  have holen : (s.checked n padb b).olen.toNat = n := toNat_ofNat32 (by omega)
  have hnblk : (s.checked n padb b).nblk.toNat = blocksFor n := toNat_ofNat32 (by omega)
  have hlop : s.lop = 0#3 ∨ s.lop = 1#3 := hs.lop ▸ hop
  rcases Nat.eq_zero_or_pos (blocksFor n) with hzero | hpos
  · have hempty : (s.checked n padb b).nblk = 0#32 := BitVec.eq_of_toNat_eq (by rw [hnblk, hzero]; rfl)
    have hrun := check_passes_empty hs.phase hs.pending h hempty
    have hecb : (s.checked n padb b).ecbLatched = false := ecbLatched_padding hlop
    refine ⟨_, by rw [hzero]; exact hrun, ?_, ?_, ?_, ?_⟩
    · constructor <;> simp [holen, hzero, hs.inv.blkIdx]
    · simp [hzero]
    · simp
    · constructor <;> simp [hecb]
  · have hlegal : (s.checked n padb b).lop.toNat < 4 := by rcases hlop with e | e <;> simp [e]
    obtain ⟨m, hrun, -, hread⟩ := check_passes hs.phase hs.pending h hs.pending hlegal hs.inv.blkIdx
      (by omega) (by rw [hnblk]; exact hround)
    rw [hnblk] at hrun hread
    have hecb : ((s.checked n padb b).enterRun.withOutput m (s.checked n padb b).nblk).ecbLatched = false :=
      ecbLatched_padding hlop
    refine ⟨_, hrun, ?_, fun k hk => ?_, fun k hk => ?_, ?_⟩
    · constructor <;> simp [holen, hnblk]
    · rw [finish_outBuf, withOutput_outBuf, hread, if_pos hk, State.laneAt]
    · rw [finish_outBuf, withOutput_outBuf, hread, if_neg (Nat.not_lt.2 hk), checked_outBuf]
    · constructor <;> simp [hecb]

end

/-! ## ENCODE (R93) -/

/-- Byte `k` of a padded input. -/
def State.paddedByte (s : State) (k : Nat) : Byte :=
  if k < s.inLen.toNat then s.inByte k else BitVec.ofNat 8 (padlen s.inLen.toNat)

theorem State.paddedByte_input {s : State} {k : Nat} (h : k < s.inLen.toNat) : s.paddedByte k = s.inByte k := if_pos h

theorem State.paddedByte_pad {s : State} {k : Nat} (h : s.inLen.toNat ≤ k) :
    s.paddedByte k = BitVec.ofNat 8 (padlen s.inLen.toNat) := if_neg (Nat.not_lt.2 h)

/-- ENCODE of an input that leaves room for its padding. -/
theorem encode_produces {s : State} (hlen : s.inLen.toNat < s.cap) (perr pchk : Bool) :
    ∃ t, Runs (1 + blocksFor (s.inLen.toNat + padlen s.inLen.toNat)) (s.startAlone 0#3 perr pchk) t ∧
      Produced false (s.inLen.toNat + padlen s.inLen.toNat) s.paddedByte s t := by
  have hs := startAlone_atCheck s 0#3 perr pchk
  have hcheck := encodeCheck_fits (s := s.startAlone 0#3 perr pchk) hlen
  rw [startAlone_inputLength, startAlone_nostrip] at hcheck
  obtain ⟨t, hrun, hprod⟩ := hs.passes (.inl rfl) (s.add_padlen_le_cap hlen) ((check_encode hs.lop).trans hcheck)
  have hlane : ((s.startAlone 0#3 perr pchk).checked (s.inLen.toNat + padlen s.inLen.toNat)
      (BitVec.ofNat 8 (padlen s.inLen.toNat)) false).laneAt = s.paddedByte := funext fun k => laneAt_encode rfl k
  exact ⟨t, hrun, (hlane ▸ hprod).of_start⟩

/-! ## DECODE (R97) -/

/-- Byte `k` of the output of a DECODE that keeps `n` bytes, with the fill of its last chunk. -/
def State.keptByte (s : State) (n k : Nat) : Byte := if k < n then s.inByte k else 0#8

theorem State.keptByte_input {s : State} {n k : Nat} (h : k < n) : s.keptByte n k = s.inByte k := if_pos h

/-- A DECODE whose check passes with the output length `n`. -/
theorem decode_produces {s : State} {perr pchk : Bool} {n : Nat} {padb : Byte} {b : Bool} (hn : n ≤ s.cap)
    (h : decodeCheck (s.startAlone 1#3 perr pchk) = .pass ((s.startAlone 1#3 perr pchk).checked n padb b)) :
    ∃ t, Runs (1 + blocksFor n) (s.startAlone 1#3 perr pchk) t ∧ Produced b n (s.keptByte n) s t := by
  have hs := startAlone_atCheck s 1#3 perr pchk
  obtain ⟨t, hrun, hprod⟩ := hs.passes (.inr rfl) hn ((check_decode hs.lop).trans h)
  have hcap := s.cap_le
  have holen : ((s.startAlone 1#3 perr pchk).checked n padb b).olen.toNat = n := toNat_ofNat32 (by omega)
  have hlane : ((s.startAlone 1#3 perr pchk).checked n padb b).laneAt = s.keptByte n := funext fun k => by
    rw [laneAt_decode rfl, holen]
    rfl
  exact ⟨t, hrun, (hlane ▸ hprod).of_start⟩

/-! ## What a command word leads to -/

/-- A START on an idle engine leads where the turns after it end. -/
theorem CommandLeadsTo.eq_of_runs {s t v : State} {w : Word} {op : BitVec 3} {perr pchk : Bool} {n : Nat}
    (h : CommandLeadsTo s w t) (hp : s.phase = .idle)
    (hexec : ∀ s, exec (decodeWord w) s = .next (startCommand op perr pchk s))
    (hrun : Runs n (s.startAlone op perr pchk) v) (hv : v.phase = .idle) : t = v := by
  have hstep : step { s with pending := [.bus (ctrlWrite w)] } = .next (s.startAlone op perr pchk) := by
    rw [step_with_bus, transact_ctrlWrite, hexec, startCommand_idle (s := { s with pending := [] }) hp]
    rfl
  exact settles_unique h ((runs_succ n _ v).2 ⟨_, hstep, hrun⟩) hv (runs_engineKept rfl hrun).inputs.pending

theorem exec_word_encode (perr pchk : Bool) (s : State) :
    exec (decodeWord (encode (.encode perr pchk))) s = .next (startCommand 0#3 perr pchk s) := by
  rw [decodeWord_encode_encode]
  rfl

theorem exec_word_decode (perr pchk : Bool) (s : State) :
    exec (decodeWord (encode (.decode perr pchk))) s = .next (startCommand 1#3 perr pchk s) := by
  rw [decodeWord_encode_decode]
  rfl

theorem exec_encode_idle {s : State} (hp : s.phase = .idle) (hq : s.pending = []) (perr pchk : Bool) :
    exec (.encode perr pchk) s = .next (s.startAlone 0#3 perr pchk) := by
  rw [startAlone_eq _ _ _ hq, ← startCommand_idle hp]
  rfl

section
variable {s t : State} {perr pchk : Bool} (hp : s.phase = .idle)
include hp

/-- Where an ENCODE that fits leads. -/
theorem CommandLeadsTo.encode_produced (h : CommandLeadsTo s (encode (.encode perr pchk)) t)
    (hlen : s.inLen.toNat < s.cap) :
    Produced false (s.inLen.toNat + padlen s.inLen.toNat) s.paddedByte s t ∧ t.capBlocks = s.capBlocks := by
  obtain ⟨v, hrun, hprod⟩ := encode_produces hlen perr pchk
  obtain rfl := h.eq_of_runs hp (exec_word_encode perr pchk) hrun hprod.ended.phase
  exact ⟨hprod, (runs_engineKept rfl hrun).inputs.capBlocks⟩

variable (h : CommandLeadsTo s (encode (.decode perr pchk)) t)
include h

/-- Where a DECODE whose check passes leads. -/
theorem CommandLeadsTo.decode_produced {n : Nat} {padb : Byte} {b : Bool} (hn : n ≤ s.cap)
    (hcheck : decodeCheck (s.startAlone 1#3 perr pchk) = .pass ((s.startAlone 1#3 perr pchk).checked n padb b)) :
    Produced b n (s.keptByte n) s t := by
  obtain ⟨v, hrun, hprod⟩ := decode_produces hn hcheck
  obtain rfl := h.eq_of_runs hp (exec_word_decode perr pchk) hrun hprod.ended.phase
  exact hprod

/-- A DECODE whose check fails leads to its code. -/
theorem CommandLeadsTo.decode_failed {code : ErrCode} {b : Bool} (hcode : code ≠ .none)
    (hcheck : decodeCheck (s.startAlone 1#3 perr pchk) = .fail code { s.startAlone 1#3 perr pchk with nostrip := b }) :
    t.err = code := by
  have hs := startAlone_atCheck s 1#3 perr pchk
  obtain ⟨v, hrun, hended, -, -⟩ := hs.fails (.inr rfl) hcode ((check_decode hs.lop).trans hcheck)
  obtain rfl := h.eq_of_runs hp (exec_word_decode perr pchk) hrun hended.phase
  exact hended.err

/-- Where a DECODE that succeeds leads: the first bytes of its input (R104). -/
theorem CommandLeadsTo.decode_succeeded (herr : t.err = .none) :
    ∃ n b, Produced b n (s.keptByte n) s t ∧ DecodedLength s.inLen.toNat n b := by
  rcases decodeCheck_cases (startAlone_nostrip s 1#3 perr pchk) with
    ⟨code, b, hcode, hcheck⟩ | ⟨n, b, hcheck, hn, hlen⟩
  · exact absurd ((h.decode_failed hp hcode hcheck).symm.trans herr) hcode
  · exact ⟨n, b, h.decode_produced hp hn hcheck, hlen⟩

/-- A DECODE of a valid tail leads to the input without it (R97). -/
theorem CommandLeadsTo.decode_stripped (hlen : 0 < s.inLen.toNat) (hcap : s.inLen.toNat ≤ s.cap)
    (htail : tailValid s.inByte s.inLen.toNat (s.inByte (s.inLen.toNat - 1)) pchk = true) {n : Nat}
    (hn : s.inLen.toNat - (s.inByte (s.inLen.toNat - 1)).toNat = n) : Produced false n (s.keptByte n) s t := by
  have hcheck := decodeCheck_valid (s := s.startAlone 1#3 perr pchk) hlen hcap htail
  rw [startAlone_inputLength, startAlone_inByte, hn] at hcheck
  exact h.decode_produced hp (by omega) hcheck

end

/-- The tail of a padded input is valid in every mode, and its pad byte is the pad count (R103). -/
theorem tailValid_padded {f : Nat → Byte} {len : Nat}
    (h : ∀ k, len ≤ k → k < len + padlen len → f k = BitVec.ofNat 8 (padlen len)) (chk : Bool) :
    tailValid f (len + padlen len) (BitVec.ofNat 8 (padlen len)) chk = true := by
  have hle := padlen_le len
  rw [tailValid_iff, padlen_toNat]
  exact ⟨padlen_pos len, hle, by omega, .inr fun k hk hlt => h k (by omega) hlt⟩

/-! ## The obligations -/

/-- Settles O27: by the division that defines the pad length. -/
theorem padLengthIsOneToSixteen : Obligations.PadLengthIsOneToSixteen := fun len =>
  ⟨rfl, padlen_pos len, padlen_le len, add_padlen_mod len, padlen_eq_sixteen_iff⟩

/-- Settles O29: the bytes compared are those of the tail, numbered from its first. -/
theorem tailIsValidExactlyWhen : Obligations.TailIsValidExactlyWhen := fun _ _ _ _ => tailValid_iff

/-- Settles O32: lane `j` of chunk `i` is output byte `16i + j`. -/
theorem chunkLanes : Obligations.ChunkLanes := by
  intro s i j hj
  have hsome {n : Nat} (hn : n < 4) (hlop : s.lop = BitVec.ofNat 3 n) : s.chunk i = some (s.chunkAt i) :=
    State.chunk_eq_some (by rw [hlop, BitVec.toNat_ofNat]; omega) i
  refine ⟨fun h => ?_, fun h => ?_, fun h => ?_, fun h => ?_, State.inBlock_getElem s i j hj,
    fun a b ha hb => State.keyBytes_lane s ha hb⟩
  · exact ⟨_, hsome (by omega) h, (chunkAt_lane s i hj).trans (laneAt_encode h _)⟩
  · exact ⟨_, hsome (by omega) h, (chunkAt_lane s i hj).trans (laneAt_decode h _)⟩
  · rw [hsome (by omega) h, chunkAt_encrypt h]
  · rw [hsome (by omega) h, chunkAt_decrypt h]

/-- Settles O10: the check passes exactly below CAP, and the padded length is whole blocks. -/
theorem encodePadsTheInputOrReportsLength : Obligations.EncodePadsTheInputOrReportsLength := by
  refine ⟨fun w hw => decodeWord_encodeRow hw, fun s perr pchk hp hq => ⟨fun hlen => ?_, fun hlen => ?_⟩⟩
  · obtain ⟨t, hrun, hended, hlanes, hframe, hkey⟩ := encode_produces hlen perr pchk
    have hkept := runs_engineKept rfl hrun
    have hmod := add_padlen_mod s.inLen.toNat
    rw [blocksFor_of_mod hmod] at hrun hended hlanes hframe
    rw [Nat.mul_div_cancel' (Nat.dvd_of_mod_eq_zero hmod)] at hlanes hframe
    exact ⟨_, t, exec_encode_idle hp hq perr pchk, hrun, hended,
      fun k hk => (hlanes k (by omega)).trans (congrArg some (State.paddedByte_input hk)),
      fun k hk hlt => (hlanes k hlt).trans (congrArg some (State.paddedByte_pad hk)),
      hframe, hkept.inputsKept_of_start hq, hkept.latched_of_start, hkey⟩
  · have hs := startAlone_atCheck s 0#3 perr pchk
    have hcheck := (check_encode hs.lop).trans (encodeCheck_tooLong hlen)
    obtain ⟨t, hrun, hended, hout, hkey⟩ := hs.fails (b := false) (.inl rfl) (by decide) hcheck
    have hkept := runs_engineKept rfl hrun
    exact ⟨_, t, exec_encode_idle hp hq perr pchk, hrun, hended, hout, hkept.inputsKept_of_start hq,
      hkept.latched_of_start, hkey.key, hkey.keyw⟩

/-- Settles O20: OUT_LEN is the input length and its pad length. -/
theorem encodeGrowsByOneToSixteenToAMultiple : Obligations.EncodeGrowsByOneToSixteenToAMultiple := by
  intro s t perr pchk hp hlen h
  obtain ⟨hprod, -⟩ := h.encode_produced hp hlen
  have hmod := add_padlen_mod s.inLen.toNat
  have hpos := padlen_pos s.inLen.toNat
  have hle := padlen_le s.inLen.toNat
  rw [hprod.ended.outLen]
  omega

/-- Settles O21: what a DECODE that succeeds may report holds in every mode, PAD_ERR = 0 or 1. -/
theorem decodeGivesAPrefixOfItsInput : Obligations.DecodeGivesAPrefixOfItsInput := by
  intro s t perr pchk hp h herr
  obtain ⟨n, b, hprod, hle, hge, hwhole⟩ := h.decode_succeeded hp herr
  have hout := hprod.ended.outLen
  have hiff : t.outLen = s.inLen ↔ t.nostrip = true ∨ s.inLen = 0#32 := by
    rw [hprod.ended.nostrip, ← BitVec.toNat_inj, ← BitVec.toNat_inj, hout]
    exact hwhole
  refine ⟨by omega, by omega, fun hn => hiff.2 (.inl hn), fun _ => hiff, fun k hk => ?_⟩
  rw [hout] at hk
  exact (hprod.maskedOutByte hk).trans (State.keptByte_input hk)

/-- Settles O24: the copied output ends in a valid tail, so DECODE keeps what stands before the padding. -/
theorem decodeUndoesEncode : Obligations.DecodeUndoesEncode := by
  intro s t s' t' pe pc pe' pc' hp hlen h ⟨hp', _, hcap', hlen', hbytes⟩ h'
  obtain ⟨henc, hcap⟩ := h.encode_produced hp hlen
  have hpos := padlen_pos s.inLen.toNat
  have hfits := s.add_padlen_le_cap hlen
  have hcapEq : s'.cap = s.cap := State.cap_congr (hcap'.trans hcap)
  have hinput : s'.inLen.toNat = s.inLen.toNat + padlen s.inLen.toNat := by rw [hlen', henc.ended.outLen]
  have hin {k : Nat} (hk : k < s.inLen.toNat + padlen s.inLen.toNat) : s'.inByte k = s.paddedByte k :=
    (hbytes k (by rw [henc.ended.outLen]; exact hk)).trans (henc.maskedOutByte hk)
  have hpad (k : Nat) (hk : s.inLen.toNat ≤ k) (hlt : k < s.inLen.toNat + padlen s.inLen.toNat) :
      s'.inByte k = BitVec.ofNat 8 (padlen s.inLen.toNat) := (hin hlt).trans (State.paddedByte_pad hk)
  have hlast : s'.inByte (s'.inLen.toNat - 1) = BitVec.ofNat 8 (padlen s.inLen.toNat) :=
    hpad _ (by omega) (by omega)
  have htail : tailValid s'.inByte s'.inLen.toNat (s'.inByte (s'.inLen.toNat - 1)) pc' = true := by
    rw [hlast, hinput]
    exact tailValid_padded hpad pc'
  have hkeep : s'.inLen.toNat - (s'.inByte (s'.inLen.toNat - 1)).toNat = s.inLen.toNat := by
    rw [hlast, padlen_toNat, hinput, Nat.add_sub_cancel]
  have hdec := h'.decode_stripped hp' (by omega) (by omega) htail hkeep
  refine ⟨hdec.ended.err, hdec.ended.nostrip, BitVec.eq_of_toNat_eq hdec.ended.outLen, fun k hk => ?_⟩
  calc t'.maskedOutByte k = s'.inByte k := (hdec.maskedOutByte hk).trans (State.keptByte_input hk)
    _ = s.paddedByte k := hin (by omega)
    _ = s.inByte k := State.paddedByte_input hk

end Sys2Proof.Machine
end

section
/-! SUPPORT. Proofs for the ECB iterator family (42_ecb_iterator.md): what ENCRYPT and DECRYPT lead to, and the laws
between them. -/

namespace Sys2Proof

/-! ## The words of the commands (R107, R108) -/

theorem decodeWord_encode_encrypt (perr pchk : Bool) :
    decodeWord (encode (.encrypt perr pchk)) = .encrypt perr pchk := by
  revert perr pchk; decide

theorem decodeWord_encode_decrypt (perr pchk : Bool) :
    decodeWord (encode (.decrypt perr pchk)) = .decrypt perr pchk := by
  revert perr pchk; decide

end Sys2Proof

namespace Sys2Proof.Machine

theorem exec_word_encrypt (perr pchk : Bool) (s : State) :
    exec (decodeWord (encode (.encrypt perr pchk))) s = .next (startCommand 2#3 perr pchk s) := by
  rw [decodeWord_encode_encrypt]
  rfl

theorem exec_word_decrypt (perr pchk : Bool) (s : State) :
    exec (decodeWord (encode (.decrypt perr pchk))) s = .next (startCommand 3#3 perr pchk s) := by
  rw [decodeWord_encode_decrypt]
  rfl

/-! ## The block transform (R106, R110) -/

/-- What a cipher command applies to each chunk: `Enc` for OP = 2, `Dec` for OP = 3. -/
def blockTransform (op : BitVec 3) (k : KeyVec) : Block → Block :=
  if op = 2#3 then Config.enc k else Config.dec k

/-- The two directions undo each other (R9, P2). -/
theorem blockTransform_decrypt_encrypt (k : KeyVec) (b : Block) :
    blockTransform 3#3 k (blockTransform 2#3 k b) = b := (Config.blockPrim k).symm_apply_apply b

theorem chunkAt_ecb {s : State} (h : s.lop = 2#3 ∨ s.lop = 3#3) (i : Nat) :
    s.chunkAt i = blockTransform s.lop s.keyBytes (s.inBlock i) := by
  rcases h with h | h
  · rw [chunkAt_encrypt h, h]; rfl
  · rw [chunkAt_decrypt h, h]; rfl

/-- A block of IN_BUF is told by its sixteen bytes. -/
theorem State.inBlock_eq_iff {s : State} {i : Nat} {b : Block} :
    s.inBlock i = b ↔ ∀ j (h : j < 16), s.inByte (16 * i + j) = b[j] := by
  simp only [Vector.ext_iff, State.inBlock_getElem]

/-! ## The check (R109) -/

theorem check_ecb {s : State} (h : s.lop = 2#3 ∨ s.lop = 3#3) : s.check = ecbCheck s :=
  h.elim check_encrypt check_decrypt

/-- What the check of a cipher command started on `s` asks for. -/
structure EcbReady (s : State) : Prop where
  fits : s.inLen.toNat ≤ s.cap
  aligned : s.inLen.toNat % 16 = 0
  loaded : s.keyw = 0xFF#8

/-- The code that comes first in R125's order when the check fails. -/
def State.ecbError (s : State) : ErrCode :=
  if s.cap < s.inLen.toNat then .length else if s.inLen.toNat % 16 ≠ 0 then .alignment else .keyLength

theorem State.ecbError_ne_none (s : State) : s.ecbError ≠ .none := by
  unfold State.ecbError
  split
  · decide
  · split <;> decide

section
variable {s : State} {op : BitVec 3} {perr pchk : Bool}

theorem ecbCheck_ready (h : EcbReady s) : ecbCheck (s.startAlone op perr pchk) =
    .pass ((s.startAlone op perr pchk).setLengths s.inLen.toNat (s.inLen.toNat / 16)) := by
  obtain ⟨hfits, haligned, hloaded⟩ := h
  have hkey : (s.startAlone op perr pchk).keyLoaded = true := beq_iff_eq.2 hloaded
  have hcap : (s.startAlone op perr pchk).cap = s.cap := rfl
  rw [ecbCheck, startAlone_inputLength, hcap, if_neg (Nat.not_lt.2 hfits), if_neg (not_not.2 haligned), hkey]
  rfl

theorem ecbCheck_notReady (h : ¬ EcbReady s) :
    ecbCheck (s.startAlone op perr pchk) = .fail s.ecbError (s.startAlone op perr pchk) := by
  have hcap : (s.startAlone op perr pchk).cap = s.cap := rfl
  rw [ecbCheck, startAlone_inputLength, hcap, State.ecbError]
  by_cases hlong : s.cap < s.inLen.toNat
  · rw [if_pos hlong, if_pos hlong]
  rw [if_neg hlong, if_neg hlong]
  by_cases haligned : s.inLen.toNat % 16 ≠ 0
  · rw [if_pos haligned, if_pos haligned]
  have hkey : (s.startAlone op perr pchk).keyLoaded = false :=
    beq_eq_false_iff_ne.2 fun hloaded => h ⟨Nat.not_lt.1 hlong, not_not.1 haligned, hloaded⟩
  rw [if_neg haligned, if_neg haligned, hkey]
  rfl

end

/-! ## A cipher command from its START on (R107, R108) -/

/-- `t` reports `f` of each input chunk of `s`, in order, and no byte of OUT_BUF after them changed. The key is
cleared. -/
structure Transformed (f : Block → Block) (s t : State) : Prop where
  ended : Ended .none false s.inLen.toNat (s.inLen.toNat / 16) t
  lanes : ∀ i, i < s.inLen.toNat / 16 → ∀ j (h : j < 16), t.outBuf.read (16 * i + j) = some (f (s.inBlock i))[j]
  frame : ∀ k, s.inLen.toNat ≤ k → t.outBuf.read k = s.outBuf.read k
  key : KeyCleared t

/-- A host reads chunk `i` back through the OUT_LEN mask. -/
theorem Transformed.maskedOutByte {f : Block → Block} {s t : State} (h : Transformed f s t) {i j : Nat}
    (hi : i < s.inLen.toNat / 16) (hj : j < 16) : t.maskedOutByte (16 * i + j) = (f (s.inBlock i))[j] :=
  State.maskedOutByte_of_read (by rw [h.ended.outLen]; omega) (h.lanes i hi j hj)

/-- A passed check, with or without chunks to produce: `1 + h.NBLK` turns, every chunk written (R88). -/
theorem check_passes_any {s v : State} (hp : s.phase = .check) (hq : s.pending = []) (h : s.check = .pass v)
    (hvp : v.pending = []) (hl : v.lop.toNat < 4) (hb : v.blkIdx = 0#32) (hc : 16 * v.nblk.toNat ≤ v.cap) :
    ∃ m : Memory, Runs (1 + v.nblk.toNat) s ((v.withOutput m v.nblk).finish .none) ∧
      ∀ k, m.read k = if k < 16 * v.nblk.toNat then some ((v.chunkAt (k / 16))[k % 16]'(by omega))
        else v.outBuf.read k := by
  rcases Nat.eq_zero_or_pos v.nblk.toNat with hzero | hpos
  · have hempty : v.nblk = 0#32 := BitVec.eq_of_toNat_eq hzero
    have hsame : v.withOutput v.outBuf v.nblk = v := by rw [hempty, ← hb]; rfl
    refine ⟨v.outBuf, ?_, fun k => ?_⟩
    · rw [hsame, hzero]
      exact check_passes_empty hp hq h hempty
    · rw [if_neg (by omega)]
  · obtain ⟨m, hrun, -, hread⟩ := check_passes hp hq h hvp hl hb hpos hc
    have hphase : (v.enterRun.withOutput m v.nblk).finish .none = (v.withOutput m v.nblk).finish .none := rfl
    exact ⟨m, hphase ▸ hrun, hread⟩

theorem keyCleared_finish {s : State} (h : s.lop = 2#3 ∨ s.lop = 3#3) (code : ErrCode) :
    KeyCleared (s.finish code) := by
  have hecb := State.ecbLatched_iff.2 h
  constructor <;> simp [hecb]

section
variable {s : State} {op : BitVec 3} (hop : op = 2#3 ∨ op = 3#3) (perr pchk : Bool)
include hop

/-- A cipher command whose check passes transforms every chunk. -/
theorem ecb_transforms (h : EcbReady s) :
    ∃ t, Runs (1 + s.inLen.toNat / 16) (s.startAlone op perr pchk) t ∧
      Transformed (blockTransform op s.keyBytes) s t := by
  let v := (s.startAlone op perr pchk).setLengths s.inLen.toNat (s.inLen.toNat / 16)
  have hs := startAlone_atCheck s op perr pchk
  have hcap := s.cap_le
  have hfits := h.fits
  have haligned := h.aligned
  have holen : v.olen.toNat = s.inLen.toNat := toNat_ofNat32 s.inLen.isLt
  have hnblk : v.nblk.toNat = s.inLen.toNat / 16 := toNat_ofNat32 (by omega)
  have hnostrip : v.nostrip = false := rfl
  have hcheck : (s.startAlone op perr pchk).check = .pass v := (check_ecb hop).trans (ecbCheck_ready h)
  have hlegal : op.toNat < 4 := by rcases hop with rfl | rfl <;> decide
  have hroom : 16 * v.nblk.toNat ≤ s.cap := by omega
  obtain ⟨m, hrun, hread⟩ := check_passes_any hs.phase hs.pending hcheck hs.pending hlegal hs.inv.blkIdx hroom
  rw [hnblk] at hrun hread
  refine ⟨_, hrun, ?_, fun i hi j hj => ?_, fun k hk => ?_, keyCleared_finish hop .none⟩
  · constructor <;> simp [holen, hnblk, hnostrip]
  · rw [finish_outBuf, withOutput_outBuf, hread, if_pos (by omega)]
    exact congrArg some ((chunkAt_lane v i hj).symm.trans (by rw [chunkAt_ecb (s := v) hop]; rfl))
  · rw [finish_outBuf, withOutput_outBuf, hread, if_neg (by omega)]
    rfl

/-- A cipher command whose check fails ends in one turn, with no output. -/
theorem ecb_fails (h : ¬ EcbReady s) :
    ∃ t, Runs 1 (s.startAlone op perr pchk) t ∧ Ended s.ecbError false 0 0 t ∧
      (∀ k, t.outBuf.read k = s.outBuf.read k) ∧ KeyCleared t := by
  have hs := startAlone_atCheck s op perr pchk
  have hcheck : (s.startAlone op perr pchk).check = .fail s.ecbError (s.startAlone op perr pchk) :=
    (check_ecb hop).trans (ecbCheck_notReady h)
  refine ⟨_, check_fails hs.phase hs.pending hcheck, ?_, fun k => ?_, keyCleared_finish hop _⟩
  · constructor <;> simp [s.ecbError_ne_none, startAlone_nostrip, hs.inv.unreported.outLen, hs.inv.blkIdx]
  · rw [finish_outBuf]
    rfl

end

/-! ## What the word of a cipher command leads to -/

section
variable {s t : State} {w : Word} {op : BitVec 3} {perr pchk : Bool}
  (hop : op = 2#3 ∨ op = 3#3) (hexec : ∀ s, exec (decodeWord w) s = .next (startCommand op perr pchk s))
  (hp : s.phase = .idle) (h : CommandLeadsTo s w t)
include hop hexec hp h

/-- Where a cipher command whose check passes leads. -/
theorem CommandLeadsTo.ecb_transformed (hready : EcbReady s) :
    Transformed (blockTransform op s.keyBytes) s t ∧ t.capBlocks = s.capBlocks := by
  obtain ⟨v, hrun, htrans⟩ := ecb_transforms hop perr pchk hready
  obtain rfl := h.eq_of_runs hp hexec hrun htrans.ended.phase
  exact ⟨htrans, (runs_engineKept rfl hrun).inputs.capBlocks⟩

/-- A cipher command that succeeds has passed its check. -/
theorem CommandLeadsTo.ecb_ready (herr : t.err = .none) : EcbReady s := by
  by_contra hready
  obtain ⟨v, hrun, hended, -, -⟩ := ecb_fails hop perr pchk hready
  obtain rfl := h.eq_of_runs hp hexec hrun hended.phase
  exact s.ecbError_ne_none (hended.err.symm.trans herr)

/-- Where a cipher command that succeeds leads, and that its input was whole chunks. -/
theorem CommandLeadsTo.ecb_succeeded (herr : t.err = .none) :
    Transformed (blockTransform op s.keyBytes) s t ∧ s.inLen.toNat % 16 = 0 := by
  have hready := h.ecb_ready hop hexec hp herr
  exact ⟨(h.ecb_transformed hop hexec hp hready).1, hready.aligned⟩

end

/-! ## DECRYPT of what ENCRYPT left (R9, R110) -/

/-- Output handed on twice, the command between giving back its input bytes, is output handed on once. -/
theorem CopiedOut.of_same_output {t s t' s' : State} (h : CopiedOut t s) (h' : CopiedOut t' s')
    (hcap : t'.capBlocks = s.capBlocks) (hlen : t'.outLen = s.inLen)
    (hbytes : ∀ k, k < s.inLen.toNat → t'.maskedOutByte k = s.inByte k) : CopiedOut t s' := by
  obtain ⟨-, -, hcap1, hlen1, hbytes1⟩ := h
  obtain ⟨hp, hq, hcap2, hlen2, hbytes2⟩ := h'
  have houtLen : t'.outLen = t.outLen := hlen.trans hlen1
  refine ⟨hp, hq, hcap2.trans (hcap.trans hcap1), hlen2.trans houtLen, fun k hk => ?_⟩
  calc s'.inByte k = t'.maskedOutByte k := hbytes2 k (by rw [houtLen]; exact hk)
    _ = s.inByte k := hbytes k (by rw [hlen1]; exact hk)
    _ = t.maskedOutByte k := hbytes1 k hk

/-- ENCRYPT of `s` with its output copied, then DECRYPT under the same loaded key: both succeed, and the output is the
input of `s`. -/
theorem CommandLeadsTo.decrypt_encrypt {s t s' t' : State} {pe pc pe' pc' : Bool} (hp : s.phase = .idle)
    (hready : EcbReady s) (h : CommandLeadsTo s (encode (.encrypt pe pc)) t) (hcopy : CopiedOut t s')
    (hloaded : s'.keyw = 0xFF#8) (hkey : s'.key = s.key)
    (h' : CommandLeadsTo s' (encode (.decrypt pe' pc')) t') :
    t.err = .none ∧ t'.err = .none ∧ t'.capBlocks = s.capBlocks ∧ t'.outLen = s.inLen ∧
      ∀ k, k < s.inLen.toNat → t'.maskedOutByte k = s.inByte k := by
  obtain ⟨henc, hcap⟩ := h.ecb_transformed (.inl rfl) (exec_word_encrypt pe pc) hp hready
  obtain ⟨hp', -, hcap', hlen', hbytes⟩ := hcopy
  have hcapEq : s'.capBlocks = s.capBlocks := hcap'.trans hcap
  have hlen : s'.inLen = s.inLen := hlen'.trans (BitVec.eq_of_toNat_eq henc.ended.outLen)
  have haligned := hready.aligned
  have hready' : EcbReady s' :=
    ⟨by rw [hlen, State.cap_congr hcapEq]; exact hready.fits, by rw [hlen]; exact haligned, hloaded⟩
  obtain ⟨hdec, hcap''⟩ := h'.ecb_transformed (.inr rfl) (exec_word_decrypt pe' pc') hp' hready'
  have hblock {i : Nat} (hi : i < s.inLen.toNat / 16) : s'.inBlock i = blockTransform 2#3 s.keyBytes (s.inBlock i) :=
    State.inBlock_eq_iff.2 fun j hj =>
      (hbytes _ (by rw [henc.ended.outLen]; omega)).trans (henc.maskedOutByte hi hj)
  refine ⟨henc.ended.err, hdec.ended.err, hcap''.trans hcapEq,
    (BitVec.eq_of_toNat_eq hdec.ended.outLen).trans hlen, fun k hk => ?_⟩
  have hi : k / 16 < s.inLen.toNat / 16 := by omega
  have hround : blockTransform 3#3 s'.keyBytes (s'.inBlock (k / 16)) = s.inBlock (k / 16) := by
    rw [hblock hi, State.keyBytes_congr hkey, blockTransform_decrypt_encrypt]
  calc t'.maskedOutByte k = t'.maskedOutByte (16 * (k / 16) + k % 16) := by rw [Nat.div_add_mod]
    _ = (blockTransform 3#3 s'.keyBytes (s'.inBlock (k / 16)))[k % 16]'(by omega) :=
      hdec.maskedOutByte (by rw [hlen]; exact hi) _
    _ = s.inByte (16 * (k / 16) + k % 16) := by rw [hround, State.inBlock_getElem]
    _ = s.inByte k := by rw [Nat.div_add_mod]

/-! ## The obligations -/

/-- Settles O22: a command that succeeds has passed the check, and reports the latched length. -/
theorem ecbKeepsTheLength : Obligations.EcbKeepsTheLength := by
  rintro s t i perr pchk hp (rfl | rfl) h herr
  · obtain ⟨htrans, -⟩ := h.ecb_succeeded (.inl rfl) (exec_word_encrypt perr pchk) hp herr
    exact BitVec.eq_of_toNat_eq htrans.ended.outLen
  · obtain ⟨htrans, -⟩ := h.ecb_succeeded (.inr rfl) (exec_word_decrypt perr pchk) hp herr
    exact BitVec.eq_of_toNat_eq htrans.ended.outLen

/-- Settles O23: a chunk of output is `Enc` of the key and the input chunk alone. -/
theorem equalChunksEncryptEqually : Obligations.EqualChunksEncryptEqually := by
  intro s t s' t' pe pc pe' pc' i i' hp hp' h herr h' herr' hkey hi hi' hbytes j hj
  obtain ⟨htrans, haligned⟩ := h.ecb_succeeded (.inl rfl) (exec_word_encrypt pe pc) hp herr
  obtain ⟨htrans', haligned'⟩ := h'.ecb_succeeded (.inl rfl) (exec_word_encrypt pe' pc') hp' herr'
  rw [htrans.ended.outLen] at hi
  rw [htrans'.ended.outLen] at hi'
  have hblock : s.inBlock i = s'.inBlock i' :=
    State.inBlock_eq_iff.2 fun j hj => by rw [State.inBlock_getElem, hbytes j hj]
  rw [htrans.maskedOutByte (by omega) hj, htrans'.maskedOutByte (by omega) hj]
  simp only [hblock, State.keyBytes_congr hkey]

/-- Settles O25: the two ciphers give back what ENCODE left, so DECODE sees it and undoes ENCODE. -/
theorem fullRoundTripGivesTheInputBack : Obligations.FullRoundTripGivesTheInputBack := by
  intro s0 t0 s1 t1 s2 t2 s3 t3 pe0 pc0 pe1 pc1 pe2 pc2 pe3 pc3 hp hlen h0 hcopy0 hloaded1 h1 hcopy1 hloaded2 hkey h2
    hcopy2 h3
  obtain ⟨henc, hcap0⟩ := h0.encode_produced hp hlen
  have ⟨hp1, _, hcap1, hlen1, _⟩ := hcopy0
  have hlength : s1.inLen.toNat = s0.inLen.toNat + padlen s0.inLen.toNat := by rw [hlen1, henc.ended.outLen]
  have hready : EcbReady s1 := by
    refine ⟨?_, ?_, hloaded1⟩
    · rw [hlength, State.cap_congr (hcap1.trans hcap0)]
      exact s0.add_padlen_le_cap hlen
    · rw [hlength]
      exact add_padlen_mod _
  obtain ⟨herr1, herr2, hcap2, hlen2, hbytes⟩ := h1.decrypt_encrypt hp1 hready hcopy1 hloaded2 hkey h2
  have hcopy : CopiedOut t0 s3 := hcopy0.of_same_output hcopy2 hcap2 hlen2 hbytes
  obtain ⟨herr3, -, hout, hback⟩ := decodeUndoesEncode s0 t0 s3 t3 pe0 pc0 pe3 pc3 hp hlen h0 hcopy h3
  exact ⟨henc.ended.err, herr1, herr2, herr3, hout, hback⟩

end Sys2Proof.Machine
end

section
/-! SUPPORT. Proofs for the exceptions family (60_exceptions.md): the code the CHECK step reports, in R125's order, and
DECODE's report of an invalid tail. -/

namespace Sys2Proof.Machine

/-! ## The code the CHECK step reports (R83) -/

/-- The code a verdict reports. -/
def Verdict.code : Verdict → ErrCode
  | .fail code _ => code
  | .pass _ => .none

/-- The CHECK step reports its verdict's code. -/
theorem conclude_check_err {s : State} (h : s.err = .none) : s.check.conclude.err = s.check.code := by
  rcases check_frame s with ⟨code, n, hcheck⟩ | ⟨olen, nblk, padb, n, hcheck⟩
  · rw [hcheck]
    exact finish_err _ code
  · rw [hcheck, Verdict.conclude]
    split
    · exact finish_err _ .none
    · exact h

/-- A CHECK step that reports an error has ended the command (R126). -/
theorem conclude_check_ends {s : State} (h : s.check.code ≠ .none) :
    s.check.conclude.phase = .idle ∧ s.check.conclude.done = true := by
  cases hcheck : s.check with
  | fail code v => exact ⟨finish_phase v code, finish_done v code⟩
  | pass v => exact absurd (congrArg Verdict.code hcheck) h

/-! ## The order of priority (R125) -/

/-- The first error that applies to the latched command. -/
def State.firstError (s : State) : ErrCode :=
  if 4 ≤ s.lop.toNat then .badOp
  else if (s.lop = 0#3 ∧ s.cap ≤ s.inputLength) ∨ s.cap < s.inputLength then .length
  else if (s.lop = 2#3 ∨ s.lop = 3#3) ∧ s.inputLength % 16 ≠ 0 then .alignment
  else if (s.lop = 2#3 ∨ s.lop = 3#3) ∧ s.keyw ≠ 0xFF#8 then .keyLength
  else if s.lop = 1#3 ∧ s.lperr = true ∧ 0 < s.inputLength ∧
      tailValid s.inByte s.inputLength (s.inByte (s.inputLength - 1)) s.lpchk = false then .padding
  else .none

theorem encodeCheck_code {s : State} (h : s.lop = 0#3) : (encodeCheck s).code = s.firstError := by
  rcases Nat.lt_or_ge s.inputLength s.cap with hfits | hlong
  · rw [encodeCheck_fits hfits]
    simp [State.firstError, Verdict.code, h, hfits, hfits.le]
  · rw [encodeCheck_tooLong hlong]
    simp [State.firstError, Verdict.code, h, hlong]

theorem decodeCheck_code {s : State} (h : s.lop = 1#3) : (decodeCheck s).code = s.firstError := by
  rcases Nat.lt_or_ge s.cap s.inputLength with hlong | hcap
  · rw [decodeCheck_tooLong hlong]
    simp [State.firstError, Verdict.code, h, hlong]
  rcases Nat.eq_zero_or_pos s.inputLength with hzero | hlen
  · rw [decodeCheck_empty hzero]
    simp [State.firstError, Verdict.code, h, hzero]
  cases htail : tailValid s.inByte s.inputLength (s.inByte (s.inputLength - 1)) s.lpchk with
  | true =>
    rw [decodeCheck_valid hlen hcap htail]
    simp [State.firstError, Verdict.code, h, hcap, htail]
  | false =>
    rw [decodeCheck_invalid hlen hcap htail]
    cases hperr : s.lperr with
    | true => simp [State.firstError, Verdict.code, h, hcap, hlen, htail, hperr]
    | false => simp [State.firstError, Verdict.code, h, hcap, hperr]

theorem ecbCheck_code {s : State} (h : s.lop = 2#3 ∨ s.lop = 3#3) : (ecbCheck s).code = s.firstError := by
  have hlegal : ¬ 4 ≤ s.lop.toNat := by rcases h with h | h <;> simp [h]
  have hencode : s.lop ≠ 0#3 := by rcases h with h | h <;> simp [h]
  have hdecode : s.lop ≠ 1#3 := by rcases h with h | h <;> simp [h]
  simp only [State.firstError, hlegal, hencode, hdecode, h, if_false, false_and, false_or, true_and]
  unfold ecbCheck
  by_cases hlong : s.cap < s.inputLength
  · rw [if_pos hlong, if_pos hlong]
    rfl
  rw [if_neg hlong, if_neg hlong]
  by_cases hodd : s.inputLength % 16 ≠ 0
  · rw [if_pos hodd, if_pos hodd]
    rfl
  rw [if_neg hodd, if_neg hodd]
  by_cases hkey : s.keyw = 0xFF#8
  · simp [State.keyLoaded, Verdict.code, hkey]
  · simp [State.keyLoaded, Verdict.code, hkey]

theorem op_cases (op : BitVec 3) : 4 ≤ op.toNat ∨ op = 0#3 ∨ op = 1#3 ∨ op = 2#3 ∨ op = 3#3 := by
  bv_omega

/-- Each command's check looks for its errors in the order of priority. -/
theorem check_code (s : State) : s.check.code = s.firstError := by
  rcases op_cases s.lop with h | h | h | h
  · rw [check_reserved h]
    exact (if_pos h).symm
  · rw [check_encode h, encodeCheck_code h]
  · rw [check_decode h, decodeCheck_code h]
  · rw [check_ecb h, ecbCheck_code h]

/-! ## DECODE of an invalid tail (R119) -/

theorem exec_decode_idle {s : State} (hp : s.phase = .idle) (hq : s.pending = []) (perr pchk : Bool) :
    exec (.decode perr pchk) s = .next (s.startAlone 1#3 perr pchk) := by
  rw [startAlone_eq _ _ _ hq, ← startCommand_idle hp]
  rfl

theorem tailValid_eq_false {f : Nat → Byte} {len : Nat} {p : Byte} {chk : Bool}
    (h : ¬ (1 ≤ p.toNat ∧ p.toNat ≤ 16 ∧ p.toNat ≤ len ∧
      (chk = true → ∀ k, len - p.toNat ≤ k → k < len → f k = p))) : tailValid f len p chk = false := by
  refine Bool.eq_false_iff.2 fun hvalid => h ?_
  obtain ⟨hpos, hle, hlen, hbytes⟩ := tailValid_iff.1 hvalid
  exact ⟨hpos, hle, hlen, fun hchk => hbytes.resolve_left (by simp [hchk])⟩

/-! ## The obligations -/

/-- Settles O13: the check sets NOSTRIP and fails, and a failed check writes nothing but the flags. -/
theorem decodeReportsAnInvalidTail : Obligations.DecodeReportsAnInvalidTail := by
  intro s pchk hp hq len p hlen hcap hinvalid
  have hs := startAlone_atCheck s 1#3 true pchk
  have hcheck : (s.startAlone 1#3 true pchk).check =
      .fail .padding { s.startAlone 1#3 true pchk with nostrip := true } :=
    (check_decode hs.lop).trans (decodeCheck_invalid hlen hcap (tailValid_eq_false hinvalid))
  obtain ⟨t, hrun, hended, hout, hkey⟩ := hs.fails (.inr rfl) (by decide) hcheck
  have hkept := runs_engineKept rfl hrun
  exact ⟨_, t, exec_decode_idle hp hq true pchk, hrun, hended, hout, hkept.inputsKept_of_start hq,
    hkept.latched_of_start, hkey.key, hkey.keyw⟩

/-- Settles O28: the CHECK step reports its verdict's code, which is the first error. -/
theorem checkReportsTheFirstErrorThatApplies : Obligations.CheckReportsTheFirstErrorThatApplies := by
  intro s hp herr hq len
  have hcode := conclude_check_err herr
  exact ⟨s.check.conclude, (step_nil hq).trans (engineStep_check hp), fun h => conclude_check_ends (hcode ▸ h),
    hcode.trans (check_code s)⟩

end Sys2Proof.Machine
end

section
/-! SUPPORT. Proofs for the reset family (70_reset_and_hazards.md): what reset leaves of the registers and the hidden
state, and what stays in OUT_BUF when it cuts a command off. -/

namespace Sys2Proof.Machine

/-! ## The registers and the hidden state after reset (R136) -/

/-- Each register, each hidden field and IN_BUF at the reset value R136 gives it; CAP and OUT_BUF are left open. -/
structure RegistersReset (t : State) : Prop extends Unreported t, KeyCleared t where
  ctrlOp : t.ctrlOp = 0#3
  ctrlPadErr : t.ctrlPadErr = false
  ctrlPadChk : t.ctrlPadChk = false
  nostrip : t.nostrip = false
  inLen : t.inLen = 0#32
  blkIdx : t.blkIdx = 0#32
  phase : t.phase = .idle
  lop : t.lop = 0#3
  lperr : t.lperr = false
  lpchk : t.lpchk = false
  llen : t.llen = 0#32
  nblk : t.nblk = 0#32
  olen : t.olen = 0#32
  padb : t.padb = 0#8
  inBuf : t.inBuf = []

theorem registersReset_resetStep (s : State) : RegistersReset s.resetStep := by
  constructor
  case toUnreported => constructor <;> simp
  case toKeyCleared => constructor <;> simp
  all_goals simp

/-- The reset state has what a reset step leaves in the registers. -/
theorem registersReset_reset : RegistersReset State.reset := { registersReset_resetStep State.reset with }

theorem RegistersReset.busy {t : State} (h : RegistersReset t) : t.busy = false := State.busy_eq_false.2 h.phase

theorem RegistersReset.ctrlWord {t : State} (h : RegistersReset t) : t.ctrlWord = 0#32 := by
  rw [State.ctrlWord_eq_encode, h.ctrlOp, h.ctrlPadErr, h.ctrlPadChk]
  rfl

theorem RegistersReset.statusWord {t : State} (h : RegistersReset t) : t.statusWord = 0#32 := by
  rw [State.statusWord, h.keyw, h.err, h.nostrip, h.done, h.busy]
  rfl

/-- No IN_BUF byte has a value but its draw (R138). -/
theorem RegistersReset.inBuf_read {t : State} (h : RegistersReset t) (k : Nat) : t.inBuf.read k = none := by
  rw [h.inBuf, Memory.read_nil]

/-- OUT_LEN = 0 masks all of OUT_BUF (R52). -/
theorem RegistersReset.maskedOutByte {t : State} (h : RegistersReset t) (k : Nat) : t.maskedOutByte k = 0x00#8 :=
  State.maskedOutByte_of_le (by simp [h.outLen])

/-! ## OUT_BUF after a reset during a command (R137) -/

theorem State.outBufAfterReset_read {s : State} (hb : s.busy = true) {k : Nat} (hk : k < 16 * s.blkIdx.toNat) :
    s.outBufAfterReset.read k = s.outBuf.read k := by
  rw [State.outBufAfterReset, if_pos hb, Memory.read_below, if_pos hk]

/-! ## The obligations -/

/-- Settles O52: the bytes below BLK_IDX stay, and OUT_LEN = 0 masks them. -/
theorem resetDuringACommandMasksItsOutput : Obligations.ResetDuringACommandMasksItsOutput := by
  intro s t q rest hb h
  rw [step_with_reset] at h
  cases h
  have hreset := registersReset_resetStep { s with pending := rest }
  exact ⟨hreset.busy, hreset.done, hreset.toKeyCleared, fun k hk =>
    ⟨State.outBufAfterReset_read (s := { s with pending := rest }) hb hk, hreset.maskedOutByte k⟩⟩

/-- Settles O50. -/
theorem resetValues : Obligations.ResetValues := by
  have h := registersReset_reset
  exact ⟨rfl, h.ctrlWord, h.statusWord, h.inLen, h.outLen, h.blkIdx, rfl, h.key, h.phase, h.lop, h.lperr, h.lpchk,
    h.llen, h.nblk, h.olen, h.padb, h.inBuf_read, h.maskedOutByte⟩

/-- Settles O51: a reset step takes the reset event off the inputs and leaves the registers at their reset values. -/
theorem resetClearsEverythingButCap : Obligations.ResetClearsEverythingButCap := by
  intro s q rest
  have h := registersReset_resetStep { s with pending := rest }
  exact ⟨_, step_with_reset s q rest, rfl, h.ctrlWord, h.statusWord, h.inLen, h.outLen, h.blkIdx, h.key, h.phase,
    h.lop, h.lperr, h.lpchk, h.llen, h.nblk, h.olen, h.padb, resetStep_capBlocks _, resetStep_pending _,
    h.inBuf_read, h.maskedOutByte⟩

end Sys2Proof.Machine
end

section
/-! SUPPORT. Proofs for the words the host writes to CTRL: decoding undoes encoding, a step on a command word runs it,
and which word starts a command. -/

namespace Sys2Proof

/-! ## Packing the fields of a word and reading them back (R67, R69) -/

section
variable (start : Bool) (op : BitVec 3) (perr pchk : Bool)

/-- Each field has its own bits of the word. -/
theorem packWord_getLsbD {i : Nat} (hi : i < 32) : (packWord start op perr pchk).getLsbD i =
    (start && decide (i = 8) || pchk && decide (i = 5) || perr && decide (i = 4) || op.getLsbD i) := by
  simp only [packWord, BitVec.getLsbD_or, bitAt_getLsbD, BitVec.truncate_eq_setWidth, BitVec.getLsbD_setWidth, hi,
    decide_true, Bool.and_true, Bool.true_and]

theorem bitOf_packWord_start : bitOf (packWord start op perr pchk) 8 = start := by
  rw [bitOf, packWord_getLsbD _ _ _ _ (by omega)]
  simp

theorem bitOf_packWord_padErr : bitOf (packWord start op perr pchk) 4 = perr := by
  rw [bitOf, packWord_getLsbD _ _ _ _ (by omega)]
  simp

theorem bitOf_packWord_padChk : bitOf (packWord start op perr pchk) 5 = pchk := by
  rw [bitOf, packWord_getLsbD _ _ _ _ (by omega)]
  simp

theorem opField_packWord : opField (packWord start op perr pchk) = op := by
  refine BitVec.eq_of_getLsbD_eq fun i hi => ?_
  have h8 : i ≠ 8 := by omega
  have h5 : i ≠ 5 := by omega
  have h4 : i ≠ 4 := by omega
  rw [opField, BitVec.getLsbD_extractLsb', Nat.zero_add, packWord_getLsbD _ _ _ _ (by omega)]
  simp [hi, h8, h5, h4]

/-- The decoder takes a packed word apart into the fields it was made of. -/
theorem decodeWord_packWord : decodeWord (packWord start op perr pchk) =
    if start then commandOf op perr pchk else .cfg op perr pchk := by
  rw [decodeWord, bitOf_packWord_start, bitOf_packWord_padErr, bitOf_packWord_padChk, opField_packWord]

end

theorem decodeWord_encode {i : Instr} (h : i.wellFormed = true) : decodeWord (encode i) = i := by
  cases i with
  | cfg op perr pchk => exact decodeWord_packWord false op perr pchk
  | encode perr pchk => exact decodeWord_packWord true 0#3 perr pchk
  | decode perr pchk => exact decodeWord_packWord true 1#3 perr pchk
  | encrypt perr pchk => exact decodeWord_packWord true 2#3 perr pchk
  | decrypt perr pchk => exact decodeWord_packWord true 3#3 perr pchk
  | reservedOp op perr pchk =>
    have hop : 4 ≤ op.toNat := of_decide_eq_true h
    exact (decodeWord_packWord true op perr pchk).trans (commandOf_reserved hop perr pchk)

/-- A table word that decodes is the word of its instruction. -/
theorem decodeWord_of_tableWord {n : Nat} {i : Instr} (h : decodeTableWord 32 n = some i) :
    decodeWord (tableWord 32 n) = i := by
  rw [decodeTableWord, if_pos le_rfl, decodeBytes_bytesOfWord] at h
  exact Option.some.inj h

/-- Settles O3: the decoder reads back the fields the encoder packs, and a word packed again loses its reserved bits
alone. -/
theorem decodeAndEncodeAgree : Obligations.DecodeAndEncodeAgree :=
  ⟨fun _ h => decodeWord_encode h, fun w => ⟨decodeWord_wellFormed w, encode_decodeWord_eq_masked w⟩⟩

/-- Settles O2, by evaluating the decoder on each word. -/
theorem writtenOutWordsDecode : Obligations.WrittenOutWordsDecode :=
  ⟨rfl, rfl, rfl, rfl, rfl, rfl, rfl, rfl, rfl⟩

end Sys2Proof

namespace Sys2Proof.Machine

/-- A well-formed instruction that is no CFG is the START of some OP. -/
theorem exec_of_not_cfg {i : Instr} (hi : i.wellFormed = true) (hcfg : ∀ op perr pchk, i ≠ .cfg op perr pchk) :
    ∃ op perr pchk, ∀ s, exec i s = .next (startCommand op perr pchk s) := by
  cases i with
  | cfg op perr pchk => exact absurd rfl (hcfg op perr pchk)
  | encode perr pchk => exact ⟨0#3, perr, pchk, exec_command (.inl ⟨rfl, rfl⟩)⟩
  | decode perr pchk => exact ⟨1#3, perr, pchk, exec_command (.inr (.inl ⟨rfl, rfl⟩))⟩
  | encrypt perr pchk => exact ⟨2#3, perr, pchk, exec_command (.inr (.inr (.inl ⟨rfl, rfl⟩)))⟩
  | decrypt perr pchk => exact ⟨3#3, perr, pchk, exec_command (.inr (.inr (.inr (.inl ⟨rfl, rfl⟩))))⟩
  | reservedOp op perr pchk =>
    exact ⟨op, perr, pchk, exec_command (.inr (.inr (.inr (.inr ⟨rfl, of_decide_eq_true hi⟩))))⟩

/-- Settles O1: a write of CTRL is the decoded word's instruction, and a word's four bytes decode to what it does. -/
theorem stepRunsTheCommandWordWritten : Obligations.StepRunsTheCommandWordWritten := by
  refine ⟨fun s w i rest hq hi => ?_, fun s n i hi => ?_⟩
  · rw [decodeBytes_bytesOfWord] at hi
    cases hi
    exact ⟨decodeWord_wellFormed w, by rw [step_bus hq, transact_ctrlWrite]⟩
  · rw [State.withFetchWord, step_with_bus, transact_ctrlWrite, decodeWord_of_tableWord hi]

/-- Settles O8. -/
theorem busyEngineTurnsCommandWordsAway : Obligations.BusyEngineTurnsCommandWordsAway :=
  fun _ i hp => exec_busy (State.busy_eq_true.2 hp) i

/-- Settles O9: the first word's START leaves the engine busy, and a busy engine turns the second away. -/
theorem firstOfTwoStartsWins : Obligations.FirstOfTwoStartsWins := by
  intro s i j hp hi hcfg
  obtain ⟨op, perr, pchk, hexec⟩ := exec_of_not_cfg hi hcfg
  refine ⟨(s.start op perr pchk).okayWrite, by rw [hexec, startCommand_idle hp], rfl, rfl, ?_⟩
  exact exec_busy rfl j

end Sys2Proof.Machine
end

section
/-! SUPPORT. What the CHECK step decides, told for every state that START leaves: the error or the lengths, and the
report that the source's functions give for the same inputs. -/

namespace Sys2Proof.Machine

/-! ## The source's functions on the bytes of IN_BUF (R93, R96, R105) -/

theorem State.inBytes_eq_map (s : State) (len : Nat) : s.inBytes 0 len = (List.range len).map s.inByte := by
  simp [State.inBytes]

/-- The first `n` bytes of an input, and the `m` after them. -/
theorem State.inBytes_append (s : State) (n m : Nat) :
    s.inBytes 0 (n + m) = (List.range n).map s.inByte ++ (List.range m).map fun j => s.inByte (n + j) := by
  rw [State.inBytes_eq_map, List.range_add, List.map_append, List.map_map]
  rfl

theorem State.inBytes_take (s : State) {n len : Nat} (h : n ≤ len) :
    (s.inBytes 0 len).take n = (List.range n).map s.inByte := by
  obtain ⟨m, rfl⟩ := Nat.exists_eq_add_of_le h
  rw [State.inBytes_append, List.take_left' (by simp)]

theorem State.inBytes_drop (s : State) {n len : Nat} (h : n ≤ len) :
    (s.inBytes 0 len).drop n = (List.range (len - n)).map fun j => s.inByte (n + j) := by
  obtain ⟨m, rfl⟩ := Nat.exists_eq_add_of_le h
  rw [State.inBytes_append, List.drop_left' (by simp), Nat.add_sub_cancel_left]

theorem State.inBytes_getD (s : State) {len k : Nat} (h : k < len) (d : Byte) :
    (s.inBytes 0 len).getD k d = s.inByte k := by
  rw [List.getD_eq_getElem?_getD, State.inBytes_getElem?, if_pos h, Nat.zero_add]
  rfl

theorem State.inBytes_getLastD (s : State) {len : Nat} (h : 0 < len) (d : Byte) :
    (s.inBytes 0 len).getLastD d = s.inByte (len - 1) := by
  rw [List.getLastD_eq_getLast?, List.getLast?_eq_getElem?, State.inBytes_length, State.inBytes_getElem?,
    if_pos (by omega), Nat.zero_add]
  rfl

/-- The input and its padding, byte by byte. -/
theorem sourceEncode_inBytes (s : State) (len : Nat) : sourceEncode (s.inBytes 0 len) =
    (List.range (len + padlen len)).map fun k => if k < len then s.inByte k else BitVec.ofNat 8 (padlen len) := by
  rw [sourceEncode, State.inBytes_length, List.range_add, List.map_append, State.inBytes_eq_map]
  congr 1
  · exact List.map_congr_left fun k hk => (if_pos (List.mem_range.1 hk)).symm
  · simp [List.map_map, Function.comp_def]

theorem sourceTailValid_inBytes (s : State) {len : Nat} (h : 0 < len) (chk : Bool) :
    sourceTailValid (s.inBytes 0 len) chk = tailValid s.inByte len (s.inByte (len - 1)) chk := by
  simp only [sourceTailValid, tailValid, State.inBytes_getLastD s h, State.inBytes_length]
  by_cases hp : (s.inByte (len - 1)).toNat ≤ len
  · rw [State.inBytes_drop s (Nat.sub_le _ _), Nat.sub_sub_self hp, List.all_map]
    rfl
  · simp [hp]

/-- Sixteen bytes a chunk, the chunks in order. -/
theorem flatMap_chunks (g : Nat → Block) (m : Nat) : ((List.range m).flatMap fun i => (g i).toList) =
    (List.range (16 * m)).map fun k => (g (k / 16))[k % 16]'(by omega) := by
  induction m with
  | zero => rfl
  | succ m ih =>
    have hlast : (g m).toList = (List.range 16).map fun j => (g ((16 * m + j) / 16))[(16 * m + j) % 16]'(by omega) := by
      refine List.ext_getElem (by simp) fun j h1 h2 => ?_
      have hj : j < 16 := by simpa using h1
      have hdiv : (16 * m + j) / 16 = m := by omega
      simp [hdiv, Nat.mod_eq_of_lt hj]
    rw [List.range_succ, List.flatMap_append, ih, Nat.mul_succ, List.range_add, List.map_append, List.map_map]
    congr 1
    exact (List.flatMap_singleton _ m).trans hlast

theorem State.blockOf_inBytes (s : State) {len i : Nat} (h : i < len / 16) :
    blockOf (s.inBytes 0 len) i = s.inBlock i := by
  refine Vector.ext fun j hj => ?_
  rw [State.inBlock_getElem, blockOf, Vector.getElem_ofFn]
  exact s.inBytes_getD (by omega) _

/-- The transformed chunks of a whole number of blocks, byte by byte. -/
theorem sourceProcess_inBytes (s : State) (f : Block → Block) {len : Nat} (h : len % 16 = 0) :
    sourceProcess f (s.inBytes 0 len) =
      (List.range len).map fun k => (f (s.inBlock (k / 16)))[k % 16]'(by omega) := by
  have hlen : 16 * (len / 16) = len := by omega
  have hchunk : sourceProcess f (s.inBytes 0 len) =
      (List.range (len / 16)).flatMap fun i => (f (s.inBlock i)).toList := by
    rw [sourceProcess, State.inBytes_length]
    exact List.flatMap_congr fun i hi => by rw [s.blockOf_inBytes (List.mem_range.1 hi)]
  rw [hchunk, flatMap_chunks fun i => f (s.inBlock i), hlen]

/-! ## The report that is due (R60) -/

section
variable {s : State}

theorem dueReport_encode (h : s.lop = 0#3) :
    s.dueReport = encodeReport s.cap s.inputLength (s.inBytes 0 s.inputLength) := by
  simp [State.dueReport, h]

theorem dueReport_decode (h : s.lop = 1#3) :
    s.dueReport = decodeReport s.cap s.inputLength (s.inBytes 0 s.inputLength) s.lperr s.lpchk := by
  simp [State.dueReport, h]

theorem dueReport_ecb (h : s.lop = 2#3 ∨ s.lop = 3#3) : s.dueReport =
    ecbReport s.cap s.inputLength (s.inBytes 0 s.inputLength) s.keyLoaded (blockTransform s.lop s.keyBytes) := by
  rcases h with h | h
  · simp [State.dueReport, blockTransform, h]
  · simp [State.dueReport, blockTransform, h]

theorem dueReport_reserved (h : 4 ≤ s.lop.toNat) : s.dueReport = .failed .badOp := by
  unfold State.dueReport
  split
  case h_5 => rfl
  all_goals omega

end

/-! ## What the CHECK step decides (R83) -/

/-- What the CHECK step of `s` has found when it passes with the output length `n`, the pad byte and NOSTRIP. -/
structure Planned (s : State) (n : Nat) (padb : Byte) (nostrip : Bool) : Prop where
  fits : n ≤ s.cap
  legalOp : s.lop.toNat < 4
  length : s.inputLength ≤ s.cap
  nostripDecode : nostrip = true → s.lop = 1#3 ∧ s.lperr = false ∧ n = s.inputLength
  encode : s.lop = 0#3 → padb.toNat = padlen s.inputLength ∧ n = s.inputLength + padlen s.inputLength
  decode : s.lop = 1#3 → n ≤ s.inputLength
  ecb : s.ecbLatched = true → n = s.inputLength ∧ s.inputLength % 16 = 0 ∧ s.keyLoaded = true

/-- The two ways the CHECK step can go, each with the report due. -/
inductive Judged (s : State) : Prop where
  | fails (code : ErrCode) (b : Bool) (hcode : code ≠ .none) (hcheck : s.check = .fail code { s with nostrip := b })
      (hnostrip : b = true → s.lop = 1#3) (hdue : s.dueReport = ⟨code, b, []⟩)
  | passes (n : Nat) (padb : Byte) (b : Bool) (hcheck : s.check = .pass (s.checked n padb b))
      (hplan : Planned s n padb b)
      (hdue : s.dueReport = ⟨.none, b, (List.range n).map (s.checked n padb b).laneAt⟩)

section
variable (s : State) (n : Nat) (padb : Byte) (b : Bool)

@[simp] theorem checked_padb : (s.checked n padb b).padb = padb := rfl
@[simp] theorem checked_inputLength : (s.checked n padb b).inputLength = s.inputLength := rfl
@[simp] theorem checked_inByte : (s.checked n padb b).inByte = s.inByte := rfl
@[simp] theorem checked_inBlock : (s.checked n padb b).inBlock = s.inBlock := rfl
@[simp] theorem checked_keyBytes : (s.checked n padb b).keyBytes = s.keyBytes := rfl

end

section
variable {s : State}

theorem checked_olen_toNat {n : Nat} (h : n ≤ s.cap) (padb : Byte) (b : Bool) :
    (s.checked n padb b).olen.toNat = n := by
  have := s.cap_le
  exact toNat_ofNat32 (by omega)

theorem checked_nblk_toNat {n : Nat} (h : n ≤ s.cap) (padb : Byte) (b : Bool) :
    (s.checked n padb b).nblk.toNat = blocksFor n := by
  have := s.cap_le
  have := s.round_le_cap h
  exact toNat_ofNat32 (by omega)

theorem judged_encode (h : s.lop = 0#3) (hn : s.nostrip = false) : Judged s := by
  have hdue := dueReport_encode h
  rcases Nat.lt_or_ge s.inputLength s.cap with hlt | hlong
  · refine .passes _ _ s.nostrip ((check_encode h).trans (encodeCheck_fits hlt)) ?_ ?_
    · constructor
      case fits => exact s.add_padlen_le_cap hlt
      case legalOp => simp [h]
      case length => exact hlt.le
      case nostripDecode => simp [hn]
      case encode => exact fun _ => ⟨padlen_toNat _, rfl⟩
      case decode => simp [h]
      case ecb => simp [ecbLatched_padding (.inl h)]
    · rw [hdue, encodeReport, if_neg (Nat.not_le.2 hlt), sourceEncode_inBytes, hn]
      refine congrArg (Report.mk .none false) (List.map_congr_left fun k _ => ?_)
      rw [laneAt_encode (s := s.checked _ _ _) h, checked_inputLength, checked_inByte, checked_padb]
  · refine .fails .length s.nostrip (by decide) ((check_encode h).trans (encodeCheck_tooLong hlong)) (by simp [hn]) ?_
    rw [hdue, encodeReport, if_pos hlong, hn]
    rfl

/-- The bytes that DECODE keeps. -/
theorem map_laneAt_decode (h : s.lop = 1#3) {n : Nat} (hn : n ≤ s.cap) (hle : n ≤ s.inputLength) (padb : Byte)
    (b : Bool) : (List.range n).map (s.checked n padb b).laneAt = (s.inBytes 0 s.inputLength).take n := by
  rw [s.inBytes_take hle]
  refine List.map_congr_left fun k hk => ?_
  rw [laneAt_decode (s := s.checked n padb b) h, checked_olen_toNat hn, if_pos (List.mem_range.1 hk), checked_inByte]

theorem planned_decode (h : s.lop = 1#3) {n : Nat} (hle : n ≤ s.inputLength) (hcap : s.inputLength ≤ s.cap)
    (padb : Byte) {b : Bool} (hb : b = true → s.lperr = false ∧ n = s.inputLength) : Planned s n padb b where
  fits := hle.trans hcap
  legalOp := by simp [h]
  length := hcap
  nostripDecode hset := ⟨h, hb hset⟩
  encode := by simp [h]
  decode _ := hle
  ecb := by simp [ecbLatched_padding (.inr h)]

theorem judged_decode (h : s.lop = 1#3) (hn : s.nostrip = false) : Judged s := by
  have hdue := dueReport_decode h
  have hcheck := check_decode h
  rcases Nat.lt_or_ge s.cap s.inputLength with hlong | hcap
  · refine .fails .length s.nostrip (by decide) (hcheck.trans (decodeCheck_tooLong hlong)) (fun _ => h) ?_
    rw [hdue, decodeReport, if_pos hlong, hn]
    rfl
  rw [decodeReport, if_neg (Nat.not_lt.2 hcap)] at hdue
  rcases Nat.eq_zero_or_pos s.inputLength with hzero | hlen
  · refine .passes 0 s.padb s.nostrip (hcheck.trans (decodeCheck_empty hzero))
      (planned_decode h (Nat.zero_le _) hcap _ (by simp [hn])) ?_
    rw [hdue, if_pos hzero, hn]
    rfl
  rw [if_neg (Nat.ne_of_gt hlen), sourceTailValid_inBytes s hlen] at hdue
  cases htail : tailValid s.inByte s.inputLength (s.inByte (s.inputLength - 1)) s.lpchk with
  | true =>
    refine .passes _ s.padb s.nostrip (hcheck.trans (decodeCheck_valid hlen hcap htail))
      (planned_decode h (Nat.sub_le _ _) hcap _ (by simp [hn])) ?_
    rw [hdue, if_pos htail, hn, State.inBytes_getLastD s hlen,
      map_laneAt_decode h ((Nat.sub_le _ _).trans hcap) (Nat.sub_le _ _)]
  | false =>
    have hinvalid := hcheck.trans (decodeCheck_invalid hlen hcap htail)
    rw [if_neg (Bool.eq_false_iff.1 htail)] at hdue
    cases hperr : s.lperr with
    | true =>
      exact .fails .padding true (by decide) (hinvalid.trans (if_pos hperr)) (fun _ => h) (hdue.trans (if_pos hperr))
    | false =>
      have hpass := Bool.eq_false_iff.1 hperr
      refine .passes _ s.padb true (hinvalid.trans (if_neg hpass))
        (planned_decode h le_rfl hcap _ fun _ => ⟨hperr, rfl⟩) ?_
      rw [hdue, if_neg hpass, map_laneAt_decode h hcap le_rfl, List.take_of_length_le (by simp)]

theorem judged_ecb (h : s.lop = 2#3 ∨ s.lop = 3#3) (hn : s.nostrip = false) : Judged s := by
  have hdue := dueReport_ecb h
  have hcheck := check_ecb h
  rw [ecbReport] at hdue
  rw [ecbCheck] at hcheck
  by_cases hlong : s.cap < s.inputLength
  · rw [if_pos hlong] at hdue hcheck
    exact .fails .length s.nostrip (by decide) hcheck (by simp [hn]) (by rw [hdue, hn]; rfl)
  rw [if_neg hlong] at hdue hcheck
  by_cases hodd : s.inputLength % 16 ≠ 0
  · rw [if_pos hodd] at hdue hcheck
    exact .fails .alignment s.nostrip (by decide) hcheck (by simp [hn]) (by rw [hdue, hn]; rfl)
  rw [if_neg hodd] at hdue hcheck
  cases hkey : s.keyLoaded with
  | false =>
    rw [hkey] at hdue hcheck
    exact .fails .keyLength s.nostrip (by decide) hcheck (by simp [hn]) (by rw [hdue, hn]; rfl)
  | true =>
    rw [hkey] at hdue hcheck
    have haligned : s.inputLength % 16 = 0 := not_not.1 hodd
    have hpass : s.check = .pass (s.checked s.inputLength s.padb s.nostrip) := by
      rw [hcheck, State.checked, blocksFor_of_mod haligned]
      rfl
    refine .passes _ _ _ hpass ?_ ?_
    · constructor
      case fits => exact Nat.not_lt.1 hlong
      case legalOp => rcases h with h | h <;> simp [h]
      case length => exact Nat.not_lt.1 hlong
      case nostripDecode => simp [hn]
      case encode => rcases h with h | h <;> simp [h]
      case decode => exact fun _ => le_rfl
      case ecb => exact fun _ => ⟨rfl, haligned, hkey⟩
    · rw [hdue, hn]
      refine congrArg (Report.mk .none false)
        ((sourceProcess_inBytes s _ haligned).trans (List.map_congr_left fun k _ => ?_))
      simp only [State.laneAt, chunkAt_ecb (s := s.checked s.inputLength s.padb false) h, checked_lop,
        checked_keyBytes, checked_inBlock]

theorem judged_reserved (h : 4 ≤ s.lop.toNat) (hn : s.nostrip = false) : Judged s :=
  .fails .badOp s.nostrip (by decide) (check_reserved h) (by simp [hn]) (by rw [dueReport_reserved h, hn]; rfl)

/-- What the CHECK step decides in every state with NOSTRIP = 0, as START leaves it. -/
theorem check_judged (hn : s.nostrip = false) : Judged s := by
  rcases op_cases s.lop with h | h | h | h
  · exact judged_reserved h hn
  · exact judged_encode h hn
  · exact judged_decode h hn
  · exact judged_ecb h hn

end

end Sys2Proof.Machine
end

section
/-! SUPPORT. Proofs for what single steps write: transactions on an idle engine, what a step leaves of a result, of
IN_BUF and of the key, and which steps write the flags and counters. -/

namespace Sys2Proof.Machine

/-! ## Writes of KEYi (R30, R31) -/

theorem writeKey_key_getElem (s : State) (i j : Fin 8) (w : Word) :
    (s.writeKey i w).key[j.val] = if j = i then w else s.key[j.val] := by
  rw [show (s.writeKey i w).key[j.val] = (s.key.set i.val w i.isLt)[j.val] from rfl, Vector.getElem_set]
  exact if_congr (by rw [Fin.ext_iff, eq_comm]) rfl rfl

theorem getLsbD_one_shiftLeft (i j : Fin 8) : (1#8 <<< i.val).getLsbD j.val = decide (j = i) := by
  revert i j; decide

theorem writeKey_keyw_getLsbD (s : State) (i j : Fin 8) (w : Word) :
    (s.writeKey i w).keyw.getLsbD j.val = (s.keyw.getLsbD j.val || decide (j = i)) := by
  rw [writeKey_keyw, BitVec.getLsbD_or, getLsbD_one_shiftLeft]

/-- A loaded key stays loaded through a write of KEYi. -/
theorem writeKey_keyw_loaded {s : State} (h : s.keyw = 0xFF#8) (i : Fin 8) (w : Word) :
    (s.writeKey i w).keyw = 0xFF#8 := by
  rw [writeKey_keyw, h]
  exact BitVec.allOnes_or

theorem keyOffset_toNat (i : Fin 8) : (BitVec.ofNat 26 (0x020 + 4 * i.val)).toNat = 0x020 + 4 * i.val :=
  toNat_ofNat26 (by omega)

section
variable {s : State}

/-- A word write of KEYi (R49). -/
theorem transact_key {q : Request} {i : Fin 8} (hp : s.phase = .idle) (hd : q.dir = .wr) (hs : q.size = 4)
    (ho : q.off.toNat = 0x020 + 4 * i.val) : transact q s = .next (s.writeKey i q.wdata).okayWrite := by
  have ha : s.accepts q = true := State.accepts_iff_okayRow.2
    ⟨by simp [State.busy_eq_false.2 hp], .inr (.inl ⟨hs, by omega, hd, .inr (.inr ⟨by omega, by omega⟩)⟩)⟩
  rw [transact_okay ha, State.regionOf_register (by omega) (regAt_eq_key.2 (by omega) : _ = some (.key i))]
  simp [perform, hd, writeRegister]

/-- A byte or aligned word write of IN_BUF (R50, R51). -/
theorem transact_inBuf_write {q : Request} {k : Nat} (hp : s.phase = .idle) (hd : q.dir = .wr)
    (ho : q.off.toNat = 0x1000000 + k) (hk : k < s.cap) (hs : q.size = 1 ∨ (q.size = 4 ∧ k % 4 = 0)) :
    transact q s = .next (s.writeIn k (writeData q.size q.wdata)).okayWrite := by
  have ha : s.accepts q = true := State.accepts_iff_okayRow.2
    ⟨by simp [State.busy_eq_false.2 hp], .inr (.inr (.inl ⟨by omega, by omega, by omega⟩))⟩
  rw [transact_okay ha, State.regionOf_inBuf ho hk]
  simp [perform, hd]

end

theorem length_writeData {size : Nat} (h : size = 1 ∨ size = 4) (w : Word) : (writeData size w).length = size := by
  rcases h with rfl | rfl
  · rfl
  · rfl

/-- A byte written at `k`. -/
theorem State.inByte_writeIn_byte (s : State) (k : Nat) (b : Byte) (a : Nat) :
    (s.writeIn k [b]).inByte a = if a = k then b else s.inByte a := by
  rw [State.inByte_writeIn]
  by_cases h : a = k
  · rw [dif_pos ⟨by omega, by simp; omega⟩, if_pos h]
    simp [h]
  · rw [dif_neg (by simp; omega), if_neg h]

/-! ## What a transaction leaves (R59, R62) -/

/-- The last result, and all a host reads of it, is as it was. -/
structure ResultKept (s t : State) : Prop where
  capBlocks : t.capBlocks = s.capBlocks
  phase : t.phase = s.phase
  lop : t.lop = s.lop
  done : t.done = s.done
  err : t.err = s.err
  nostrip : t.nostrip = s.nostrip
  outLen : t.outLen = s.outLen
  blkIdx : t.blkIdx = s.blkIdx
  outBuf : t.outBuf = s.outBuf
  epoch : t.epoch = s.epoch

theorem ResultKept.maskedOutByte {s t : State} (h : ResultKept s t) (k : Nat) :
    t.maskedOutByte k = s.maskedOutByte k := by
  simp only [State.maskedOutByte, State.outByte, h.outLen, h.outBuf, h.epoch]

section
variable {q : Request} {s t : State}

/-- A transaction makes a START transition, or leaves the result as it is. -/
theorem Transacted.start_or_kept (h : Transacted q s t) :
    (s.phase = .idle ∧ ∃ w, bitOf w 8 = true ∧ q = ctrlWrite w ∧
      t = (s.start (opField w) (bitOf w 4) (bitOf w 5)).okayWrite) ∨ ResultKept s t := by
  cases h with
  | error h => subst h; exact .inr (by constructor <;> rfl)
  | read w _ h => subst h; exact .inr (by constructor <;> rfl)
  | command hp hq h =>
    rw [exec_decodeWord hp] at h
    cases h
    by_cases hw : bitOf q.wdata 8 = true
    · rw [if_pos hw]
      exact .inl ⟨hp, _, hw, hq, rfl⟩
    · rw [if_neg hw]
      exact .inr (by constructor <;> rfl)
  | length _ _ h => subst h; exact .inr (by constructor <;> rfl)
  | key i _ _ h => subst h; exact .inr (by constructor <;> rfl)
  | input k _ _ _ _ _ h => subst h; exact .inr (by constructor <;> rfl)

/-- A transaction is a write of KEYi, or leaves the key as it is. -/
theorem Transacted.key_or_kept (h : Transacted q s t) :
    (s.phase = .idle ∧ ∃ i : Fin 8, q = ⟨.wr, 4, BitVec.ofNat 26 (0x020 + 4 * i.val), q.wdata⟩ ∧
      t = (s.writeKey i q.wdata).okayWrite) ∨ KeyKept s t := by
  cases h with
  | error h => subst h; exact .inr ⟨rfl, rfl⟩
  | read w _ h => subst h; exact .inr ⟨rfl, rfl⟩
  | command hp _ h =>
    rw [exec_decodeWord hp] at h
    cases h
    split
    · exact .inr ⟨rfl, rfl⟩
    · exact .inr ⟨rfl, rfl⟩
  | length _ _ h => subst h; exact .inr ⟨rfl, rfl⟩
  | key i hp hq h => exact .inl ⟨hp, i, hq, h⟩
  | input k _ _ _ _ _ h => subst h; exact .inr ⟨rfl, rfl⟩

/-- A transaction is an accepted write of IN_BUF, or leaves IN_BUF as it is. -/
theorem Transacted.input_or_kept (h : Transacted q s t) :
    (∃ k, q.dir = .wr ∧ (q.size = 1 ∨ q.size = 4 ∧ k % 4 = 0) ∧ q.off.toNat = 0x1000000 + k ∧ k < s.cap ∧
      t = (s.writeIn k (writeData q.size q.wdata)).okayWrite) ∨ (t.inBuf = s.inBuf ∧ t.epoch = s.epoch) := by
  cases h with
  | error h => subst h; exact .inr ⟨rfl, rfl⟩
  | read w _ h => subst h; exact .inr ⟨rfl, rfl⟩
  | command hp _ h =>
    rw [exec_decodeWord hp] at h
    cases h
    split
    · exact .inr ⟨rfl, rfl⟩
    · exact .inr ⟨rfl, rfl⟩
  | length _ _ h => subst h; exact .inr ⟨rfl, rfl⟩
  | key i hp hq h => subst h; exact .inr ⟨rfl, rfl⟩
  | input k _ hd hs ho hk h => exact .inl ⟨k, hd, hs, ho, hk, h⟩

/-- A read changes the response alone, and its response has data. -/
theorem Transacted.of_read (h : Transacted q s t) (hd : q.dir = .rd) :
    ∃ r w, t = { s with resp := some ⟨r, some w⟩ } := by
  cases h with
  | error h => exact ⟨.error, 0#32, by rw [h, hd]; rfl⟩
  | read w _ h => exact ⟨.okay, w, h⟩
  | command _ hq _ => rw [hq] at hd; cases hd
  | length _ hq _ => rw [hq] at hd; cases hd
  | key i _ hq _ => rw [hq] at hd; cases hd
  | input k _ hw _ _ _ _ => rw [hd] at hw; cases hw

end

/-! ## No transaction reads the key (R31) -/

/-- The state with another key; KEYW is as it is. -/
def State.withKey (s : State) (k : Vector Word 8) : State := { s with key := k }

section
variable {s t : State} (k : Vector Word 8)

theorem startCommand_withKey (op : BitVec 3) (perr pchk : Bool) (s : State) :
    startCommand op perr pchk (s.withKey k) = (startCommand op perr pchk s).withKey k := by
  show (if s.busy = true then _ else _) = State.withKey (if s.busy = true then _ else _) k
  split
  · rfl
  · rfl

theorem configure_withKey (op : BitVec 3) (perr pchk : Bool) (s : State) :
    configure op perr pchk (s.withKey k) = (configure op perr pchk s).withKey k := by
  show (if s.busy = true then _ else _) = State.withKey (if s.busy = true then _ else _) k
  split
  · rfl
  · rfl

theorem exec_withKey {i : Instr} (h : exec i s = .next t) : exec i (s.withKey k) = .next (t.withKey k) := by
  cases i with
  | cfg op perr pchk => cases h; exact congrArg Host.Outcome.next (configure_withKey k op perr pchk s)
  | encode perr pchk => cases h; exact congrArg Host.Outcome.next (startCommand_withKey k _ perr pchk s)
  | decode perr pchk => cases h; exact congrArg Host.Outcome.next (startCommand_withKey k _ perr pchk s)
  | encrypt perr pchk => cases h; exact congrArg Host.Outcome.next (startCommand_withKey k _ perr pchk s)
  | decrypt perr pchk => cases h; exact congrArg Host.Outcome.next (startCommand_withKey k _ perr pchk s)
  | reservedOp op perr pchk => cases h; exact congrArg Host.Outcome.next (startCommand_withKey k op perr pchk s)

theorem readRegister_withKey (r : Reg) (s : State) :
    readRegister r (s.withKey k) = (readRegister r s).withKey k := by
  cases r <;> rfl

theorem writeRegister_withKey {r : Reg} {w : Word} (h : writeRegister r w s = .next t) :
    ∃ k', writeRegister r w (s.withKey k) = .next (t.withKey k') := by
  cases r with
  | ctrl => exact ⟨k, exec_withKey k h⟩
  | key i => cases h; exact ⟨k.set i.val w i.isLt, rfl⟩
  | _ => cases h; exact ⟨k, rfl⟩

theorem perform_withKey {g : Region} {q : Request} (h : perform g q s = .next t) :
    ∃ k', perform g q (s.withKey k) = .next (t.withKey k') := by
  obtain ⟨d, size, off, w⟩ := q
  cases g with
  | register r =>
    cases d with
    | rd => cases h; exact ⟨k, congrArg Host.Outcome.next (readRegister_withKey k r s)⟩
    | wr => exact writeRegister_withKey k h
  | _ =>
    cases d with
    | rd => cases h; exact ⟨k, rfl⟩
    | wr => cases h; exact ⟨k, rfl⟩

/-- A transaction goes the same way whatever the key is, but for the key itself. -/
theorem transact_withKey {q : Request} (h : transact q s = .next t) :
    ∃ k', transact q (s.withKey k) = .next (t.withKey k') := by
  have hacc : (s.withKey k).accepts q = s.accepts q := rfl
  cases ha : s.accepts q with
  | false =>
    rw [transact_error ha] at h
    cases h
    exact ⟨k, transact_error (hacc.trans ha)⟩
  | true =>
    rw [transact_okay ha] at h
    rw [transact_okay (hacc.trans ha)]
    exact perform_withKey k h

end

/-! ## What a turn of the engine does to the key (R56, R111) -/

theorem finish_key_kept_or_cleared (s : State) (code : ErrCode) :
    KeyKept s (s.finish code) ∨ (s.ecbLatched = true ∧ KeyCleared (s.finish code)) := by
  cases h : s.ecbLatched with
  | false => exact .inl ⟨by simp [h], by simp [h]⟩
  | true => exact .inr ⟨rfl, keyCleared_finish (State.ecbLatched_iff.1 h) code⟩

/-- A turn of the engine leaves the key as it is, or is the finish of ENCRYPT or DECRYPT and clears it. -/
def KeptOrFinished (s t : State) : Prop :=
  KeyKept s t ∨ (s.ecbLatched = true ∧ s.busy = true ∧ t.phase = .idle ∧ KeyCleared t)

/-- The finish of a command that runs on from `s`. -/
theorem finish_keptOrFinished {s v : State} (hb : s.busy = true) (hlop : v.lop = s.lop) (hkey : KeyKept s v)
    (code : ErrCode) : KeptOrFinished s (v.finish code) := by
  have hecb : v.ecbLatched = s.ecbLatched := by rw [State.ecbLatched, hlop]; rfl
  rcases finish_key_kept_or_cleared v code with hkept | ⟨hv, hclear⟩
  · exact .inl ⟨hkept.key.trans hkey.key, hkept.keyw.trans hkey.keyw⟩
  · exact .inr ⟨hecb ▸ hv, hb, finish_phase v code, hclear⟩

theorem engineStep_keptOrFinished {s t : State} (h : engineStep s = .next t) : KeptOrFinished s t := by
  rcases engineStep_spec h with ⟨-, rfl⟩ | ⟨hp, rfl⟩ | ⟨hp, hrun⟩
  · exact .inl ⟨rfl, rfl⟩
  · have hb := State.busy_eq_true.2 (show s.phase ≠ .idle by simp [hp])
    rcases check_frame s with ⟨c, n, hcheck⟩ | ⟨olen, nblk, padb, n, hcheck⟩ <;> rw [hcheck, Verdict.conclude]
    · exact finish_keptOrFinished hb (by rfl) ⟨by rfl, by rfl⟩ _
    · split
      · exact finish_keptOrFinished hb (by rfl) ⟨by rfl, by rfl⟩ _
      · exact .inl ⟨rfl, rfl⟩
  · have hb := State.busy_eq_true.2 (show s.phase ≠ .idle by simp [hp])
    obtain ⟨c, -, -, -, rfl⟩ := runStep_spec hrun
    rw [State.putChunk_eq]
    split
    · exact finish_keptOrFinished hb (by rfl) ⟨by rfl, by rfl⟩ _
    · exact .inl ⟨rfl, rfl⟩

/-! ## The obligations on single steps -/

/-- Settles O33. -/
theorem engineTurnsWriteOnlyTheirOwn : Obligations.EngineTurnsWriteOnlyTheirOwn := by
  intro s t h
  have hkept := engineStep_kept h
  exact ⟨hkept.inputs.inBuf, hkept.inputs.inLen, hkept.ctrlOp, hkept.ctrlPadErr, hkept.ctrlPadChk,
    hkept.inputs.capBlocks, hkept.resp, (engineStep_keptOrFinished h).imp_left fun hk => ⟨hk.key, hk.keyw⟩⟩

/-- Settles O34: an idle engine's turn does nothing, and a transaction leaves the result unless it makes a START. -/
theorem resultsStayUntilTheNextStart : Obligations.ResultsStayUntilTheNextStart := by
  intro s t e rest hp hreset hstart h
  have hkept : ResultKept { s with pending := rest } t := by
    cases e with
    | reset q => exact absurd rfl (hreset q)
    | engine =>
      rw [step_with_engine, engineStep_idle (s := { s with pending := rest }) hp] at h
      cases h
      constructor <;> rfl
    | bus q =>
      rw [step_with_bus] at h
      rcases (transact_spec h).start_or_kept with ⟨-, w, hw, rfl, -⟩ | hkept
      · exact absurd rfl (hstart w hw)
      · exact hkept
  exact ⟨hkept.phase.trans hp, hkept.done, hkept.err, hkept.nostrip, hkept.outLen, hkept.blkIdx, hkept.outBuf,
    hkept.maskedOutByte⟩

/-- Settles O37: a read gets OKAY with data or ERROR with 0, and writes the response alone. -/
theorem readsHaveNoSideEffect : Obligations.ReadsHaveNoSideEffect := by
  intro s q rest hd
  obtain ⟨t, ht⟩ := transact_total q { s with pending := rest }
  obtain ⟨r, w, rfl⟩ := (transact_spec ht).of_read hd
  exact ⟨r, w, ht⟩

/-- Settles O41. -/
theorem keyWriteStoresTheWordAndMarksIt : Obligations.KeyWriteStoresTheWordAndMarksIt := by
  intro s i w rest hp
  refine ⟨_, transact_key (s := { s with pending := rest }) hp rfl rfl (keyOffset_toNat i), rfl, ?_, ?_,
    fun j hj => ⟨?_, ?_⟩⟩
  · exact (writeKey_key_getElem _ i i w).trans (if_pos rfl)
  · exact (writeKey_keyw_getLsbD _ i i w).trans (by simp)
  · exact (writeKey_key_getElem _ i j w).trans (if_neg hj)
  · exact (writeKey_keyw_getLsbD _ i j w).trans (by simp [hj])

/-- Settles O42: the key takes part in no transaction's way, only in the key it leaves. -/
theorem transactionsDoNotRevealTheKey : Obligations.TransactionsDoNotRevealTheKey := by
  intro s t t' k q rest h h'
  obtain ⟨k', hk'⟩ := transact_withKey k (s := { s with pending := rest }) h
  obtain rfl : t.withKey k' = t' := Host.Outcome.next.inj (hk'.symm.trans h')
  exact ⟨rfl, rfl⟩

/-- Settles O43, by the one byte that is written or read. -/
theorem inBufByteAccesses : Obligations.InBufByteAccesses := by
  intro s k w rest hp hk
  have hcap := s.cap_le
  have ho : (BitVec.ofNat 26 (0x1000000 + k)).toNat = 0x1000000 + k := toNat_ofNat26 (by omega)
  constructor
  · refine ⟨_, transact_inBuf_write (s := { s with pending := rest }) hp rfl ho hk (.inl rfl), rfl, ?_, fun a ha => ?_⟩
    · exact (State.inByte_writeIn_byte _ k _ k).trans (if_pos rfl)
    · exact (State.inByte_writeIn_byte _ k _ a).trans (if_neg ha)
  · exact transact_inBuf_read (s := { s with pending := rest }) hp rfl ho hk (.inl rfl)

/-- Settles O40. -/
theorem inLenWriteStoresTheWord : Obligations.InLenWriteStoresTheWord :=
  fun s w rest hp => transact_setlen (s := { s with pending := rest }) hp w

theorem base_eq : Config.base = Config.baseIndex * 67108864 := rfl

/-- Settles O47. -/
theorem windowOffsetsStartAtBase : Obligations.WindowOffsetsStartAtBase := by
  unfold Obligations.WindowOffsetsStartAtBase
  rw [show 2 ^ 26 = 67108864 by norm_num]
  refine ⟨?_, fun off => ?_, fun addr h => ?_⟩
  · rw [base_eq, Nat.mul_mod_left]
  · have hin : Config.base ≤ Config.base + off.toNat ∧ Config.base + off.toNat < Config.base + 67108864 := by omega
    rw [offsetOf, if_pos hin, Nat.add_sub_cancel_left, BitVec.ofNat_toNat, BitVec.setWidth_eq]
  · have hout : ¬ (Config.base ≤ addr ∧ addr < Config.base + 67108864) := by omega
    exact if_neg hout

/-- Settles O53: of all steps but reset, only an accepted write reaches IN_BUF, and only the bytes it covers. -/
theorem inBufBytesKeepTheirValue : Obligations.InBufBytesKeepTheirValue := by
  intro s t k h hreset hwrite
  cases step_spec h with
  | engine _ h =>
    have hkept := (engineStep_kept h).inputs
    exact congrFun (State.inByte_congr hkept.inBuf hkept.epoch) k
  | reset q rest hq _ => exact absurd hq (hreset q rest)
  | bus q rest hq h =>
    rcases h.input_or_kept with ⟨a, hd, hs, ho, -, rfl⟩ | ⟨hin, hepoch⟩
    · have hcover := hwrite q rest hq hd
      have hlen := length_writeData (hs.imp_right And.left) q.wdata
      exact (State.inByte_writeIn { s with pending := rest } a _ k).trans (dif_neg (by omega))
    · exact congrFun (State.inByte_congr hin hepoch) k

/-- Settles O57: a write of KEYi takes no bit of KEYW away, so what does is a reset or a finish that clears the key. -/
theorem loadedKeyIsLostOnlyWhole : Obligations.LoadedKeyIsLostOnlyWhole := by
  intro s t h hs ht
  cases step_spec h with
  | engine _ h =>
    rcases engineStep_keptOrFinished h with hkept | ⟨hecb, hb, hp, hclear⟩
    · exact absurd (hkept.keyw.trans hs) ht
    · exact ⟨hclear, hp, .inr ⟨hecb, hb⟩⟩
  | bus q rest _ h =>
    rcases h.key_or_kept with ⟨-, i, -, rfl⟩ | hkept
    · exact absurd (writeKey_keyw_loaded (s := { s with pending := rest }) hs i q.wdata) ht
    · exact absurd (hkept.keyw.trans hs) ht
  | reset q rest hq h =>
    subst h
    have hregs := registersReset_resetStep { s with pending := rest }
    exact ⟨hregs.toKeyCleared, hregs.phase, .inl ⟨q, rest, hq⟩⟩

end Sys2Proof.Machine
end

section
/-! SUPPORT. Proofs for the whole machine's invariant: every step keeps it, it holds at reset, and a state that meets it
never stops. -/

namespace Sys2Proof.Machine

/-! ## What every phase keeps: the buffers and the key -/

/-- The part of the invariant that holds in every phase: both buffers canonical inside CAP, unloaded key words 0. -/
structure Stored (s : State) : Prop where
  inWf : s.inBuf.wf
  inInside : s.inBuf.inside s.cap
  outWf : s.outBuf.wf
  outInside : s.outBuf.inside s.cap
  unloadedKey : ∀ i : Fin 8, s.keyw.getLsbD i.val = false → s.key[i.val] = 0#32

section
variable {s t : State}

theorem Inv.stored (h : Inv s) : Stored s := ⟨h.inWf, h.inInside, h.outWf, h.outInside, h.unloadedKey⟩

theorem Stored.inv_idle (h : Stored s) (hp : s.phase = .idle) (hi : IdleInv s) : Inv s where
  __ := h
  idle _ := hi
  check hc := by rw [hp] at hc; cases hc
  run hr := by rw [hp] at hr; cases hr

theorem Stored.inv_check (h : Stored s) (hp : s.phase = .check) (hc : CheckInv s) : Inv s where
  __ := h
  idle hi := by rw [hp] at hi; cases hi
  check _ := hc
  run hr := by rw [hp] at hr; cases hr

theorem Stored.inv_run (h : Stored s) (hp : s.phase = .run) (hr : RunInv s) : Inv s where
  __ := h
  idle hi := by rw [hp] at hi; cases hi
  check hc := by rw [hp] at hc; cases hc
  run _ := hr

/-- The buffers and CAP are as they were. -/
structure BuffersKept (s t : State) : Prop where
  capBlocks : t.capBlocks = s.capBlocks
  inBuf : t.inBuf = s.inBuf
  outBuf : t.outBuf = s.outBuf

/-- The buffers stay, and the key has a word other than 0 only where KEYW has a bit. -/
theorem Stored.of_buffersKept (h : Stored s) (hb : BuffersKept s t)
    (hkey : ∀ i : Fin 8, t.keyw.getLsbD i.val = false → t.key[i.val] = 0#32) : Stored t := by
  have hcap : t.cap = s.cap := State.cap_congr hb.capBlocks
  refine ⟨?_, ?_, ?_, ?_, hkey⟩
  · rw [hb.inBuf]; exact h.inWf
  · rw [hb.inBuf, hcap]; exact h.inInside
  · rw [hb.outBuf]; exact h.outWf
  · rw [hb.outBuf, hcap]; exact h.outInside

theorem Stored.of_kept (h : Stored s) (hb : BuffersKept s t) (hk : KeyKept s t) : Stored t :=
  h.of_buffersKept hb fun i => by rw [hk.keyw, hk.key]; exact h.unloadedKey i

theorem Stored.finish (h : Stored s) (code : ErrCode) : Stored (s.finish code) := by
  have hb : BuffersKept s (s.finish code) := ⟨finish_capBlocks s code, finish_inBuf s code, finish_outBuf s code⟩
  rcases finish_key_kept_or_cleared s code with hkept | ⟨-, hclear⟩
  · exact h.of_kept hb hkept
  · exact h.of_buffersKept hb fun i _ => hclear.key i

theorem Stored.writeKey (h : Stored s) (i : Fin 8) (w : Word) : Stored (s.writeKey i w) := by
  refine h.of_buffersKept ⟨rfl, rfl, rfl⟩ fun j hj => ?_
  rw [writeKey_keyw_getLsbD, Bool.or_eq_false_iff, decide_eq_false_iff_not] at hj
  obtain ⟨hold, hne⟩ := hj
  rw [writeKey_key_getElem, if_neg hne]
  exact h.unloadedKey j hold

theorem Stored.writeIn (h : Stored s) {k : Nat} {bs : List Byte} (hk : k + bs.length ≤ s.cap) :
    Stored (s.writeIn k bs) :=
  { h with inWf := Memory.wf_writeBytes bs h.inWf k, inInside := Memory.inside_writeBytes bs h.inInside hk }

/-- Chunk `i` of OUT_BUF is written. -/
theorem Stored.withOutput (h : Stored s) {i : Nat} (b : Block) (n : Word) (hi : 16 * i + 16 ≤ s.cap) :
    Stored (s.withOutput (s.outBuf.writeBytes (16 * i) b.toList) n) :=
  { h with
    outWf := Memory.wf_writeBytes _ h.outWf _
    outInside := Memory.inside_writeBytes _ h.outInside (by simpa using hi) }

theorem Stored.resetStep (h : Stored s) : Stored s.resetStep where
  inWf := List.Pairwise.nil
  inInside := by simp
  outWf := by
    rw [resetStep_outBuf, State.outBufAfterReset]
    split
    · exact Memory.wf_below h.outWf _
    · exact List.Pairwise.nil
  outInside := by
    rw [resetStep_outBuf, State.outBufAfterReset]
    split
    · exact Memory.inside_below h.outInside _
    · simp
  unloadedKey i _ := (registersReset_resetStep s).key i

end

/-! ## The invariant reads neither the inputs to come nor the last response -/

section
variable {s t : State}

theorem IdleInv.of_resultKept (h : IdleInv s) (hk : ResultKept s t) : IdleInv t where
  fresh hd := by
    obtain ⟨⟨hdone, herr, hout⟩, hn, hb⟩ := h.fresh (hk.done ▸ hd)
    exact ⟨⟨hk.done.trans hdone, hk.err.trans herr, hk.outLen.trans hout⟩, hk.nostrip.trans hn, hk.blkIdx.trans hb⟩
  failed := by rw [hk.err, hk.outLen, hk.blkIdx]; exact h.failed
  nostripDecode := by rw [hk.nostrip, hk.lop]; exact h.nostripDecode
  fits := by rw [hk.blkIdx, State.cap_congr hk.capBlocks]; exact h.fits
  blocks := by rw [hk.blkIdx, hk.outLen]; exact h.blocks
  written := by rw [State.outWritten, hk.blkIdx, hk.outBuf]; exact h.written

theorem CheckInv.withInputs (h : CheckInv s) (p : List Event) (r : Option Response) : CheckInv (s.withInputs p r) :=
  { h with unreported := { h.unreported with } }

/-- The chunks go on from another index, with another OUT_BUF. -/
theorem RunInv.advance (h : RunInv s) {m : Memory} {n : Word} (hn : n.toNat < s.nblk.toNat)
    (hm : ∀ k, k < 16 * n.toNat → (m.read k).isSome = true) (p : List Event) (r : Option Response) :
    RunInv ((s.withOutput m n).withInputs p r) :=
  { h with unreported := { h.unreported with }, progress := hn, written := hm }

theorem RunInv.withInputs (h : RunInv s) (p : List Event) (r : Option Response) : RunInv (s.withInputs p r) :=
  h.advance h.progress h.written p r

theorem Inv.withInputs (h : Inv s) (p : List Event) (r : Option Response) : Inv (s.withInputs p r) where
  __ := h.stored
  idle hp := (h.idle hp).of_resultKept (by constructor <;> rfl)
  check hp := (h.check hp).withInputs p r
  run hp := (h.run hp).withInputs p r

end

/-- With no chunk written there is nothing to ask of OUT_BUF. -/
theorem outWritten_of_blkIdx_zero {s : State} (h : s.blkIdx = 0#32) : s.outWritten (16 * s.blkIdx.toNat) := by
  simp [State.outWritten, h]

/-! ## Transactions and reset -/

section
variable {q : Request} {s t : State}

/-- A transaction that a busy engine answers changes the response alone. -/
theorem Transacted.of_busy (h : Transacted q s t) (hp : s.phase ≠ .idle) : ∃ r, t = s.withInputs s.pending r := by
  cases h with
  | error h => exact ⟨_, h⟩
  | read w _ h => exact ⟨_, h⟩
  | command hidle _ _ => exact absurd hidle hp
  | length hidle _ _ => exact absurd hidle hp
  | key i hidle _ _ => exact absurd hidle hp
  | input k hidle _ _ _ _ _ => exact absurd hidle hp

theorem Transacted.stored (h : Transacted q s t) (hs : Stored s) : Stored t := by
  cases h with
  | error h => subst h; exact hs.of_kept ⟨rfl, rfl, rfl⟩ ⟨rfl, rfl⟩
  | read w _ h => subst h; exact hs.of_kept ⟨rfl, rfl, rfl⟩ ⟨rfl, rfl⟩
  | command hp _ h =>
    rw [exec_decodeWord hp] at h
    cases h
    split
    · exact hs.of_kept ⟨rfl, rfl, rfl⟩ ⟨rfl, rfl⟩
    · exact hs.of_kept ⟨rfl, rfl, rfl⟩ ⟨rfl, rfl⟩
  | length _ _ h => subst h; exact hs.of_kept ⟨rfl, rfl, rfl⟩ ⟨rfl, rfl⟩
  | key i _ _ h => subst h; exact (hs.writeKey i _).of_kept ⟨rfl, rfl, rfl⟩ ⟨rfl, rfl⟩
  | input k _ _ hsize _ hk h =>
    subst h
    have hlen := length_writeData (hsize.imp_right And.left) q.wdata
    have hmod := s.cap_mod
    exact (hs.writeIn (by omega)).of_kept ⟨rfl, rfl, rfl⟩ ⟨rfl, rfl⟩

/-- A START transition leaves what CHECK expects (R82). -/
theorem checkInv_start (s : State) (op : BitVec 3) (perr pchk : Bool) :
    CheckInv (s.start op perr pchk).okayWrite := ⟨⟨rfl, rfl, rfl⟩, rfl, rfl, rfl, rfl, rfl⟩

theorem Transacted.inv (h : Transacted q s t) (hs : Inv s) : Inv t := by
  by_cases hp : s.phase = .idle
  · have hstored := h.stored hs.stored
    rcases h.start_or_kept with ⟨-, w, -, -, rfl⟩ | hkept
    · exact hstored.inv_check rfl (checkInv_start s _ _ _)
    · exact hstored.inv_idle (hkept.phase.trans hp) ((hs.idle hp).of_resultKept hkept)
  · obtain ⟨r, rfl⟩ := h.of_busy hp
    exact hs.withInputs _ r

theorem RegistersReset.idleInv (h : RegistersReset t) : IdleInv t where
  fresh _ := ⟨h.toUnreported, h.nostrip, h.blkIdx⟩
  failed _ := ⟨h.outLen, h.blkIdx⟩
  nostripDecode hn := by rw [h.nostrip] at hn; cases hn
  fits := by simp [h.blkIdx]
  blocks := by simp [h.blkIdx, h.outLen, blocksFor]
  written := outWritten_of_blkIdx_zero h.blkIdx

theorem Inv.resetStep (h : Inv s) : Inv s.resetStep :=
  h.stored.resetStep.inv_idle rfl (registersReset_resetStep s).idleInv

end

/-! ## The end of a command -/

/-- What `finish` leaves, in the three places it is called from: a failed check, a check that plans no chunk, and the
last chunk. -/
theorem finish_idleInv {s : State} {code : ErrCode} (hfail : code ≠ .none → s.outLen = 0#32 ∧ s.blkIdx = 0#32)
    (hnostrip : s.nostrip = true → s.lop = 1#3) (hfits : 16 * s.blkIdx.toNat ≤ s.cap)
    (hblocks : s.blkIdx.toNat = blocksFor (if code = .none then s.olen else s.outLen).toNat)
    (hwritten : s.outWritten (16 * s.blkIdx.toNat)) : IdleInv (s.finish code) := by
  have hcap : (s.finish code).cap = s.cap := State.cap_congr (finish_capBlocks s code)
  constructor
  case fresh => simp
  case failed =>
    intro hcode
    rw [finish_err] at hcode
    rw [finish_outLen, finish_blkIdx, if_neg hcode]
    exact hfail hcode
  case nostripDecode => simpa using hnostrip
  case fits => rw [finish_blkIdx, hcap]; exact hfits
  case blocks => rw [finish_blkIdx, finish_outLen]; exact hblocks
  case written => simpa [State.outWritten] using hwritten

/-! ## The CHECK step (R83, R94, R98, R109) -/

section
variable {s : State}

/-- A check that plans a chunk goes to RUN with what the chunks need. -/
theorem Planned.runInv {n : Nat} {padb : Byte} {b : Bool} (hplan : Planned s n padb b) (h : CheckInv s)
    (hn : 0 < blocksFor n) : RunInv (s.checked n padb b).enterRun := by
  have holen := checked_olen_toNat hplan.fits padb b
  have hnblk := checked_nblk_toNat hplan.fits padb b
  have hwhole (hlen : n = s.inputLength) : (s.checked n padb b).olen = s.llen :=
    BitVec.eq_of_toNat_eq (holen.trans hlen)
  have hblk : (s.checked n padb b).enterRun.blkIdx.toNat = 0 := by simp [h.blkIdx]
  constructor
  case unreported => exact { h.unreported with }
  case progress => rw [hblk, enterRun_nblk, hnblk]; exact hn
  case fits => rw [enterRun_nblk, hnblk]; exact s.round_le_cap hplan.fits
  case blocks => rw [enterRun_nblk, enterRun_olen, hnblk, holen]
  case legalOp => exact hplan.legalOp
  case length => exact hplan.length
  case nostripDecode =>
    intro hb
    obtain ⟨hlop, hperr, hlen⟩ := hplan.nostripDecode hb
    exact ⟨hlop, hperr, hwhole hlen⟩
  case encode =>
    intro hlop
    obtain ⟨hpadb, hlen⟩ := hplan.encode hlop
    exact ⟨hpadb, holen.trans hlen⟩
  case decode => exact fun hlop => holen.le.trans (hplan.decode hlop)
  case ecb =>
    intro hecb
    obtain ⟨hlen, haligned, hkey⟩ := hplan.ecb hecb
    exact ⟨hwhole hlen, haligned, hkey⟩
  case written => exact outWritten_of_blkIdx_zero h.blkIdx

/-- A check that plans no chunk ends the command at once. -/
theorem Planned.finish_idleInv {n : Nat} {padb : Byte} {b : Bool} (hplan : Planned s n padb b) (h : CheckInv s)
    (hn : blocksFor n = 0) : IdleInv ((s.checked n padb b).finish .none) := by
  have holen := checked_olen_toNat hplan.fits padb b
  have hblk : (s.checked n padb b).blkIdx.toNat = 0 := by simp [h.blkIdx]
  refine Machine.finish_idleInv (fun hcode => absurd rfl hcode) ?_ ?_ ?_ ?_
  · intro hb
    obtain ⟨hlop, -, -⟩ := hplan.nostripDecode hb
    exact hlop
  · rw [hblk]; exact Nat.zero_le _
  · rw [hblk, if_pos rfl, holen, hn]
  · exact outWritten_of_blkIdx_zero h.blkIdx

theorem CheckInv.conclude_inv (h : CheckInv s) (hs : Stored s) : Inv s.check.conclude := by
  cases check_judged h.nostrip with
  | fails code b hcode hcheck hnostrip _ =>
    have hv : Stored { s with nostrip := b } := hs.of_kept ⟨rfl, rfl, rfl⟩ ⟨rfl, rfl⟩
    have hout := h.unreported.outLen
    have hblk := h.blkIdx
    rw [hcheck]
    refine (hv.finish code).inv_idle (finish_phase _ code) (finish_idleInv (fun _ => ⟨hout, hblk⟩) hnostrip ?_ ?_ ?_)
    · simp [hblk]
    · simp [hblk, hcode, hout, blocksFor]
    · exact outWritten_of_blkIdx_zero hblk
  | passes n padb b hcheck hplan _ =>
    have hnblk := checked_nblk_toNat hplan.fits padb b
    have hv : Stored (s.checked n padb b) := hs.of_kept ⟨rfl, rfl, rfl⟩ ⟨rfl, rfl⟩
    rw [hcheck, Verdict.conclude]
    by_cases hzero : (s.checked n padb b).nblk = 0#32
    · have hnone : blocksFor n = 0 := by rw [← hnblk, hzero]; rfl
      rw [if_pos hzero]
      exact (hv.finish .none).inv_idle (finish_phase _ _) (hplan.finish_idleInv h hnone)
    · have hsome : 0 < blocksFor n := by
        rw [← hnblk]
        exact Nat.pos_of_ne_zero fun e => hzero (BitVec.eq_of_toNat_eq e)
      rw [if_neg hzero]
      have hrun : Stored (s.checked n padb b).enterRun := hv.of_kept ⟨rfl, rfl, rfl⟩ ⟨rfl, rfl⟩
      exact hrun.inv_run rfl (hplan.runInv h hsome)

/-! ## The RUN step (R84) -/

/-- With chunk `i` the bytes written so far reach the end of it. -/
theorem read_writeChunk_isSome {m : Memory} {i : Nat} (h : ∀ k, k < 16 * i → (m.read k).isSome = true) (c : Block) :
    ∀ k, k < 16 * (i + 1) → ((m.writeBytes (16 * i) c.toList).read k).isSome = true := by
  intro k hk
  rw [Memory.read_writeChunk]
  split
  · rfl
  · exact h k (by omega)

theorem RunInv.putChunk_inv (h : RunInv s) (hs : Stored s) (hp : s.phase = .run) (c : Block) :
    Inv (s.putChunk s.blkIdx.toNat c) := by
  have hprogress := h.progress
  have hfits := h.fits
  have hlt := s.nblk.isLt
  have hnext : (BitVec.ofNat 32 (s.blkIdx.toNat + 1)).toNat = s.blkIdx.toNat + 1 := toNat_ofNat32 (by omega)
  have hv := hs.withOutput c (BitVec.ofNat 32 (s.blkIdx.toNat + 1)) (i := s.blkIdx.toNat) (by omega)
  have hwritten := read_writeChunk_isSome h.written c
  rw [← hnext] at hwritten
  by_cases hlast : s.blkIdx.toNat + 1 = s.nblk.toNat
  · rw [State.putChunk, if_pos hlast]
    refine (hv.finish .none).inv_idle (finish_phase _ _)
      (finish_idleInv (fun hcode => absurd rfl hcode) ?_ ?_ ?_ hwritten)
    · intro hn
      obtain ⟨hlop, -, -⟩ := h.nostripDecode hn
      exact hlop
    · rw [withOutput_blkIdx, hnext, hlast]; exact hfits
    · rw [withOutput_blkIdx, hnext, hlast, if_pos rfl]; exact h.blocks
  · rw [State.putChunk, if_neg hlast]
    exact hv.inv_run hp (h.advance (by omega) hwritten s.pending s.resp)

end

/-! ## The obligations -/

theorem engineStep_inv {s t : State} (hs : Inv s) (h : engineStep s = .next t) : Inv t := by
  rcases engineStep_spec h with ⟨-, rfl⟩ | ⟨hp, rfl⟩ | ⟨hp, hrun⟩
  · exact hs
  · exact (hs.check hp).conclude_inv hs.stored
  · obtain ⟨c, -, -, -, rfl⟩ := runStep_spec hrun
    exact (hs.run hp).putChunk_inv hs.stored hp c

/-- Settles O58, by everything a step can do. -/
theorem everyStepKeepsInv : Obligations.EveryStepKeepsInv := by
  intro s t hs h
  cases step_spec h with
  | engine _ h => exact engineStep_inv (hs.withInputs s.pending.tail s.resp) h
  | bus q rest _ h => exact h.inv (hs.withInputs rest s.resp)
  | reset q rest _ h => rw [h]; exact (hs.withInputs rest s.resp).resetStep

theorem stored_reset : Stored State.reset where
  inWf := List.Pairwise.nil
  inInside := by simp [State.reset]
  outWf := List.Pairwise.nil
  outInside := by simp [State.reset]
  unloadedKey i _ := registersReset_reset.key i

/-- Settles O59. -/
theorem invHoldsAtReset : Obligations.InvHoldsAtReset := stored_reset.inv_idle rfl registersReset_reset.idleInv

theorem RunInv.ready {s : State} (h : RunInv s) (hp : s.phase = .run) (hq : s.pending = []) : RunReady s :=
  ⟨hp, hq, h.legalOp, h.progress, h.fits⟩

/-- A turn of the engine from a state that meets the invariant has a next state. -/
theorem Inv.engineStep_total {s : State} (h : Inv s) : ∃ t, engineStep s = .next t := by
  cases hp : s.phase with
  | idle => exact ⟨s, engineStep_idle hp⟩
  | check => exact ⟨_, engineStep_check hp⟩
  | run =>
    have hr := h.run hp
    exact ⟨_, (engineStep_run hp).trans (runStep_eq hr.legalOp hr.progress hr.fits)⟩

theorem Inv.step_total {s : State} (h : Inv s) : ∃ t, step s = .next t := by
  cases hq : s.pending with
  | nil => rw [step_nil hq]; exact h.engineStep_total
  | cons e rest =>
    cases e with
    | engine => rw [step_engine hq]; exact (h.withInputs rest s.resp).engineStep_total
    | bus q => rw [step_bus hq]; exact transact_total q _
    | reset q => rw [step_reset hq]; exact ⟨_, rfl⟩

/-- Settles O60: a state that meets the invariant has a next state, which meets it again. -/
theorem invStatesNeverStop : Obligations.InvStatesNeverStop := by
  intro s n hs
  induction n generalizing s with
  | zero => exact ⟨s, (runs_zero s s).2 rfl⟩
  | succ n ih =>
    obtain ⟨u, hu⟩ := hs.step_total
    obtain ⟨t, ht⟩ := ih u (everyStepKeepsInv s u hs hu)
    exact ⟨t, (runs_succ n s t).2 ⟨u, hu, ht⟩⟩

end Sys2Proof.Machine
end

section
/-! SUPPORT. Proofs for whole commands: what DECODE, ENCRYPT and DECRYPT lead to, the report and the step count of every
command, and that interleaved transactions do not disturb one. -/

namespace Sys2Proof.Machine

/-! ## DECODE (R97) -/

section
variable {s : State} {perr pchk : Bool} (hp : s.phase = .idle) (hq : s.pending = [])
include hp hq

/-- A DECODE whose check passes with the output length `n`, told byte by byte. -/
theorem exec_decode_passes {n : Nat} {b : Bool} (hn : n ≤ s.cap)
    (h : decodeCheck (s.startAlone 1#3 perr pchk) =
      .pass ((s.startAlone 1#3 perr pchk).checked n (s.startAlone 1#3 perr pchk).padb b)) :
    ∃ s1 t, exec (.decode perr pchk) s = .next s1 ∧ Runs (1 + (n + 15) / 16) s1 t ∧
      Ended .none b n ((n + 15) / 16) t ∧
      (∀ k, k < n → t.outBuf.read k = some (s.inByte k)) ∧
      (∀ k, n ≤ k → k < 16 * ((n + 15) / 16) → t.outBuf.read k = some 0#8) ∧
      (∀ k, 16 * ((n + 15) / 16) ≤ k → t.outBuf.read k = s.outBuf.read k) ∧
      InputsKept s t ∧ Latched 1#3 perr pchk s t ∧ KeyKept s t := by
  obtain ⟨t, hrun, hended, hlanes, hframe, hkey⟩ := decode_produces hn h
  have hround := le_mul_blocksFor n
  have hkept := runs_engineKept rfl hrun
  exact ⟨_, t, exec_decode_idle hp hq perr pchk, hrun, hended,
    fun k hk => (hlanes k (by omega)).trans (congrArg some (if_pos hk)),
    fun k hk hlt => (hlanes k hlt).trans (congrArg some (if_neg (Nat.not_lt.2 hk))),
    hframe, hkept.inputsKept_of_start hq, hkept.latched_of_start, hkey⟩

/-- A DECODE that ends in its CHECK step with no output. -/
theorem exec_decode_ends {t : State} {code : ErrCode} {b : Bool} (hrun : Runs 1 (s.startAlone 1#3 perr pchk) t)
    (hended : Ended code b 0 0 t) (hout : ∀ k, t.outBuf.read k = s.outBuf.read k) (hkey : KeyKept s t) :
    ∃ s1 t, exec (.decode perr pchk) s = .next s1 ∧ Runs 1 s1 t ∧ Ended code b 0 0 t ∧
      (∀ k, t.outBuf.read k = s.outBuf.read k) ∧ InputsKept s t ∧ Latched 1#3 perr pchk s t ∧ KeyKept s t := by
  have hkept := runs_engineKept rfl hrun
  exact ⟨_, t, exec_decode_idle hp hq perr pchk, hrun, hended, hout, hkept.inputsKept_of_start hq,
    hkept.latched_of_start, hkey⟩

end

/-- Settles O11: the check passes with the length before the tail. -/
theorem decodeStripsAValidTail : Obligations.DecodeStripsAValidTail := by
  intro s perr pchk hp hq len p n hlen hcap hp1 hp16 hple hbytes
  have htail : tailValid s.inByte len (s.inByte (len - 1)) pchk = true := by
    refine tailValid_iff.2 ⟨hp1, hp16, hple, ?_⟩
    cases pchk with
    | false => exact .inl rfl
    | true => exact .inr (hbytes rfl)
  exact exec_decode_passes hp hq ((Nat.sub_le len p).trans hcap)
    (decodeCheck_valid (s := s.startAlone 1#3 perr pchk) hlen hcap htail)

/-- Settles O12: the check sets NOSTRIP and passes with the whole length. -/
theorem decodePassesAnInvalidTailThrough : Obligations.DecodePassesAnInvalidTailThrough := by
  intro s pchk hp hq len p hlen hcap hinvalid
  exact exec_decode_passes hp hq hcap
    (decodeCheck_invalid (s := s.startAlone 1#3 false pchk) hlen hcap (tailValid_eq_false hinvalid))

/-- Settles O14: neither case reaches the tail. -/
theorem decodeOfEmptyAndOfTooLongInput : Obligations.DecodeOfEmptyAndOfTooLongInput := by
  intro s perr pchk hp hq hlen
  have hs := startAlone_atCheck s 1#3 perr pchk
  by_cases hzero : s.inLen.toNat = 0
  · rw [if_pos hzero]
    have hcheck := decodeCheck_empty (s := s.startAlone 1#3 perr pchk) hzero
    obtain ⟨t, hrun, hended, -, hframe, hkey⟩ := decode_produces (Nat.zero_le _) hcheck
    exact exec_decode_ends hp hq hrun hended (fun k => hframe k (Nat.zero_le _)) hkey
  · rw [if_neg hzero]
    have hlong : s.cap < s.inLen.toNat := hlen.resolve_left hzero
    have hcheck := decodeCheck_tooLong (s := s.startAlone 1#3 perr pchk) hlong
    obtain ⟨t, hrun, hended, hout, hkey⟩ :=
      hs.fails (b := false) (.inr rfl) (by decide) ((check_decode hs.lop).trans hcheck)
    exact exec_decode_ends hp hq hrun hended hout ⟨hkey.key, hkey.keyw⟩

/-! ## ENCRYPT and DECRYPT (R107, R108) -/

section
variable {s : State} {op : BitVec 3} {i : Instr} {perr pchk : Bool} (hop : op = 2#3 ∨ op = 3#3)
  (hexec : ∀ s, exec i s = .next (startCommand op perr pchk s)) (hp : s.phase = .idle) (hq : s.pending = [])
include hop hexec hp hq

/-- A cipher command transforms each chunk, or reports its first error; the key is cleared either way. -/
theorem exec_ecb :
    (s.inLen.toNat ≤ s.cap ∧ s.inLen.toNat % 16 = 0 ∧ s.keyw = 0xFF#8 →
      ∃ s1 t, exec i s = .next s1 ∧ Runs (1 + s.inLen.toNat / 16) s1 t ∧
        Ended .none false s.inLen.toNat (s.inLen.toNat / 16) t ∧
        (∀ c, c < s.inLen.toNat / 16 → ∀ j (h : j < 16),
          t.outBuf.read (16 * c + j) = some (blockTransform op s.keyBytes (s.inBlock c))[j]) ∧
        (∀ k, s.inLen.toNat ≤ k → t.outBuf.read k = s.outBuf.read k) ∧
        InputsKept s t ∧ Latched op perr pchk s t ∧ KeyCleared t) ∧
    (¬ (s.inLen.toNat ≤ s.cap ∧ s.inLen.toNat % 16 = 0 ∧ s.keyw = 0xFF#8) →
      ∃ s1 t, exec i s = .next s1 ∧ Runs 1 s1 t ∧ Ended s.ecbError false 0 0 t ∧
        (∀ k, t.outBuf.read k = s.outBuf.read k) ∧
        InputsKept s t ∧ Latched op perr pchk s t ∧ KeyCleared t) := by
  have hstart : exec i s = .next (s.startAlone op perr pchk) := by
    rw [hexec, startCommand_idle hp, startAlone_eq _ _ _ hq]
  constructor
  · rintro ⟨hfits, haligned, hloaded⟩
    obtain ⟨t, hrun, htrans⟩ := ecb_transforms hop perr pchk ⟨hfits, haligned, hloaded⟩
    have hkept := runs_engineKept rfl hrun
    exact ⟨_, t, hstart, hrun, htrans.ended, htrans.lanes, htrans.frame, hkept.inputsKept_of_start hq,
      hkept.latched_of_start, htrans.key⟩
  · intro hnot
    obtain ⟨t, hrun, hended, hout, hkey⟩ := ecb_fails hop perr pchk (s := s)
      fun h => hnot ⟨h.fits, h.aligned, h.loaded⟩
    have hkept := runs_engineKept rfl hrun
    exact ⟨_, t, hstart, hrun, hended, hout, hkept.inputsKept_of_start hq, hkept.latched_of_start, hkey⟩

end

/-- Settles O15: OP = 2 selects `Enc`. -/
theorem encryptTransformsEachChunkOrReports : Obligations.EncryptTransformsEachChunkOrReports :=
  fun _ _ _ hp hq => exec_ecb (.inl rfl) (fun _ => rfl) hp hq

/-- Settles O16: OP = 3 selects `Dec`. -/
theorem decryptTransformsEachChunkOrReports : Obligations.DecryptTransformsEachChunkOrReports :=
  fun _ _ _ hp hq => exec_ecb (.inr rfl) (fun _ => rfl) hp hq

/-! ## The report and the step count (R85, R88) -/

/-- The command of `s` ends in `t` after exactly `n` turns, and is busy before. -/
structure EndsAfter (n : Nat) (s t : State) : Prop where
  runs : Runs n s t
  phase : t.phase = .idle
  done : t.done = true
  before : ∀ m, m < n → ∃ u, Runs m s u ∧ u.busy = true

theorem EndsAfter.of_one {s t : State} (hb : s.busy = true) (h : Runs 1 s t) (hp : t.phase = .idle)
    (hd : t.done = true) : EndsAfter 1 s t := by
  refine ⟨h, hp, hd, fun m hm => ?_⟩
  rw [Nat.lt_one_iff.1 hm]
  exact ⟨s, (runs_zero s s).2 rfl, hb⟩

/-- What a host reads of a command that has ended with `n` output bytes. -/
theorem Ended.report_eq {t : State} {code : ErrCode} {b : Bool} {n m : Nat} {f : Nat → Byte} (h : Ended code b n m t)
    (hbytes : ∀ k, k < n → t.outBuf.read k = some (f k)) : t.report = ⟨code, b, (List.range n).map f⟩ := by
  have hout : t.outputBytes = (List.range n).map f := by
    rw [State.outputBytes, h.outLen]
    exact List.map_congr_left fun k hk =>
      State.maskedOutByte_of_read (by rw [h.outLen]; exact List.mem_range.1 hk) (hbytes k (List.mem_range.1 hk))
  rw [State.report, h.err, h.nostrip, hout]

/-- A command whose check passes is busy until its last chunk is written. -/
theorem check_passes_busy {s v : State} (hp : s.phase = .check) (hq : s.pending = []) (h : s.check = .pass v)
    (hvp : v.pending = []) (hl : v.lop.toNat < 4) (hb : v.blkIdx = 0#32) (hc : 16 * v.nblk.toNat ≤ v.cap) :
    ∀ n, n < 1 + v.nblk.toNat → ∃ u, Runs n s u ∧ u.busy = true := by
  rcases Nat.eq_zero_or_pos v.nblk.toNat with hzero | hpos
  · intro n hn
    obtain rfl : n = 0 := by omega
    exact ⟨s, (runs_zero s s).2 rfl, State.busy_eq_true.2 (by simp [hp])⟩
  · obtain ⟨_, -, hbusy, -⟩ := check_passes hp hq h hvp hl hb hpos hc
    exact hbusy

section
variable {s : State} (hp : s.phase = .check) (hq : s.pending = []) (h : CheckInv s)
include hp hq h

/-- A failed check ends the command in one turn, and reports no output. -/
theorem CheckInv.fails_reports {code : ErrCode} {b : Bool} (hcode : code ≠ .none)
    (hcheck : s.check = .fail code { s with nostrip := b }) :
    ∃ t, EndsAfter 1 s t ∧ t.report = ⟨code, b, []⟩ := by
  have hended : Ended code b 0 0 (State.finish { s with nostrip := b } code) := by
    constructor <;> simp [hcode, h.unreported.outLen, h.blkIdx]
  have hbusy : s.busy = true := State.busy_eq_true.2 (by simp [hp])
  exact ⟨_, .of_one hbusy (check_fails hp hq hcheck) hended.phase hended.done,
    hended.report_eq (f := s.inByte) fun k hk => absurd hk (Nat.not_lt_zero k)⟩

/-- A passed check ends the command after a turn for each chunk, and reports the chunks' bytes. -/
theorem CheckInv.passes_reports {n : Nat} {padb : Byte} {b : Bool} (hplan : Planned s n padb b)
    (hcheck : s.check = .pass (s.checked n padb b)) :
    ∃ t, EndsAfter (1 + blocksFor n) s t ∧ t.report = ⟨.none, b, (List.range n).map (s.checked n padb b).laneAt⟩ := by
  have hround := le_mul_blocksFor n
  have holen := checked_olen_toNat hplan.fits padb b
  have hnblk := checked_nblk_toNat hplan.fits padb b
  have hroom : 16 * (s.checked n padb b).nblk.toNat ≤ s.cap := by rw [hnblk]; exact s.round_le_cap hplan.fits
  obtain ⟨m, hrun, hread⟩ := check_passes_any hp hq hcheck hq hplan.legalOp h.blkIdx hroom
  have hbusy := check_passes_busy hp hq hcheck hq hplan.legalOp h.blkIdx hroom
  rw [hnblk] at hrun hread hbusy
  have hended : Ended .none b n (blocksFor n)
      (((s.checked n padb b).withOutput m (s.checked n padb b).nblk).finish .none) := by
    constructor <;> simp [holen, hnblk]
  refine ⟨_, ⟨hrun, hended.phase, hended.done, hbusy⟩, hended.report_eq fun k hk => ?_⟩
  rw [finish_outBuf, withOutput_outBuf, hread, if_pos (by omega), State.laneAt]

/-- A command from its CHECK step on ends after the steps R88 gives, with the report due. -/
theorem CheckInv.command_ends : ∃ t, EndsAfter s.dueReport.engineSteps s t ∧ t.report = s.dueReport := by
  cases check_judged h.nostrip with
  | fails code b hcode hcheck _ hdue =>
    have hsteps : s.dueReport.engineSteps = 1 := by rw [hdue]; exact if_neg hcode
    rw [hsteps, hdue]
    exact h.fails_reports hp hq hcode hcheck
  | passes n padb b hcheck hplan hdue =>
    have hsteps : s.dueReport.engineSteps = 1 + blocksFor n := by simp [hdue, Report.engineSteps]
    rw [hsteps, hdue]
    exact h.passes_reports hp hq hplan hcheck

end

/-- Settles O18. -/
theorem everyCommandReportsTheSourceFunction : Obligations.EveryCommandReportsTheSourceFunction := by
  intro s hp h hq
  obtain ⟨t, hends, hreport⟩ := h.command_ends hp hq
  exact ⟨t, hends.runs, hends.phase, hends.done, hreport, hends.before⟩

/-! ## Every command ends (R147) -/

/-- No command takes more than `1 + CAP/16` turns. -/
theorem engineSteps_dueReport_le {s : State} (hn : s.nostrip = false) : s.dueReport.engineSteps ≤ 1 + s.cap / 16 := by
  cases check_judged hn with
  | fails code b hcode _ _ hdue =>
    have hsteps : s.dueReport.engineSteps = 1 := by rw [hdue]; exact if_neg hcode
    omega
  | passes n padb b _ hplan hdue =>
    have hsteps : s.dueReport.engineSteps = 1 + blocksFor n := by simp [hdue, Report.engineSteps]
    have hround := s.round_le_cap hplan.fits
    omega

/-- Settles O26: from CHECK on by the step count of the command, in RUN by the chunks that remain. -/
theorem everyCommandFinishes : Obligations.EveryCommandFinishes := by
  intro s hs hb hq
  cases hp : s.phase with
  | idle => exact absurd hp (State.busy_eq_true.1 hb)
  | check =>
    have hcheck := hs.check hp
    obtain ⟨t, hends, -⟩ := hcheck.command_ends hp hq
    exact ⟨_, t, engineSteps_dueReport_le hcheck.nostrip, hends.runs, hends.phase, hends.done⟩
  | run =>
    have hrun := hs.run hp
    have hfits := hrun.fits
    obtain ⟨m, hruns, -, -⟩ := run_phase (hrun.ready hp hq)
    exact ⟨_, _, by omega, hruns, finish_phase _ _, finish_done _ _⟩

/-! ## Transactions between the turns of a busy engine (R58, R60) -/

/-- The engine's turns alone go the same way whatever was answered last. -/
theorem runs_withInputs {n : Nat} {s t : State} (hq : s.pending = []) (h : Runs n s t) (r : Option Response) :
    Runs n (s.withInputs [] r) (t.withInputs [] r) := by
  induction n generalizing s with
  | zero => rw [(runs_zero s t).1 h]; exact (runs_zero _ _).2 rfl
  | succ n ih =>
    obtain ⟨u, hstep, hrun⟩ := (runs_succ n s t).1 h
    rw [step_nil hq] at hstep
    have hu : u.pending = [] := (engineStep_kept hstep).inputs.pending.trans hq
    exact (runs_succ _ _ _).2 ⟨_, engineStep_withInputs hstep [] r, ih hu hrun⟩

/-- The first of `n + 1` turns, and what is left of a busy stretch after it. -/
theorem busy_after_step {n : Nat} {s v : State} (hstep : step s = .next v)
    (hbusy : ∀ m, m ≤ n + 1 → ∃ u, Runs m s u ∧ u.busy = true) : ∀ m, m ≤ n → ∃ u, Runs m v u ∧ u.busy = true := by
  intro m hm
  obtain ⟨u, hrun, hu⟩ := hbusy (m + 1) (by omega)
  obtain ⟨v', hstep', hrun'⟩ := (runs_succ m s u).1 hrun
  obtain rfl : v' = v := Host.Outcome.next.inj (hstep'.symm.trans hstep)
  exact ⟨u, hrun', hu⟩

/-- Transactions among the turns of a busy engine, and one turn more: where the turns alone lead, but for the
response. -/
theorem runs_interleaved {evs : List Event} {s u : State} (hq : s.pending = []) (hreset : NoReset evs)
    (hbusy : ∀ n, n ≤ engineTurns evs → ∃ v, Runs n s v ∧ v.busy = true) (hrun : Runs (engineTurns evs + 1) s u) :
    ∃ r, Runs (evs.length + 1) (s.withInputs (evs ++ [.engine]) s.resp) (u.withInputs [] r) := by
  induction evs generalizing s u with
  | nil =>
    have hstep := (runs_one s u).1 hrun
    rw [step_nil hq] at hstep
    exact ⟨s.resp, (runs_one _ _).2 (engineStep_withInputs hstep [] s.resp)⟩
  | cons e rest ih =>
    have hreset' : NoReset rest := fun e he => hreset e (List.mem_cons_of_mem _ he)
    cases e with
    | reset q => exact absurd rfl (hreset (.reset q) List.mem_cons_self q)
    | engine =>
      have hturns : engineTurns (.engine :: rest) = engineTurns rest + 1 := List.countP_cons_of_pos rfl
      rw [hturns] at hbusy hrun
      obtain ⟨v, hstep, hrun'⟩ := (runs_succ _ s u).1 hrun
      have hbusy' := busy_after_step hstep hbusy
      rw [step_nil hq] at hstep
      have hkept := engineStep_kept hstep
      obtain ⟨r, hr⟩ := ih (hkept.inputs.pending.trans hq) hreset' hbusy' hrun'
      rw [hkept.resp] at hr
      exact ⟨r, (runs_succ _ _ _).2 ⟨_, engineStep_withInputs hstep _ s.resp, hr⟩⟩
    | bus q =>
      have hturns : engineTurns (.bus q :: rest) = engineTurns rest := List.countP_cons_of_neg (by simp)
      rw [hturns] at hbusy hrun
      obtain ⟨v, hzero, hv⟩ := hbusy 0 (Nat.zero_le _)
      obtain rfl := (runs_zero s v).1 hzero
      obtain ⟨a, hstep, -, -⟩ := transact_busy (s := v.withInputs (rest ++ [.engine]) v.resp) hv q
      have hbusy' (n : Nat) (hn : n ≤ engineTurns rest) :
          ∃ w, Runs n (v.withInputs [] (some a)) w ∧ w.busy = true := by
        obtain ⟨w, hw, hwb⟩ := hbusy n hn
        exact ⟨_, runs_withInputs hq hw (some a), hwb⟩
      obtain ⟨r, hr⟩ := ih (s := v.withInputs [] (some a)) rfl hreset' hbusy' (runs_withInputs hq hrun (some a))
      exact ⟨r, (runs_succ _ _ _).2 ⟨_, hstep, hr⟩⟩

/-- Settles O19: a busy engine's transactions leave the engine's turns what they are. -/
theorem interleavedTransactionsDoNotDisturbACommand : Obligations.InterleavedTransactionsDoNotDisturbACommand := by
  intro s u evs hreset hbusy hrun
  obtain ⟨r, hr⟩ := runs_interleaved rfl hreset hbusy hrun
  have hu : u.pending = [] := (runs_engineKept rfl hrun).inputs.pending
  exact ⟨_, hr, by rw [State.withInputs, ← hu]⟩

end Sys2Proof.Machine
end

section
/-! SUPPORT. Proofs for the host's assembler (30_encoding.md): what a sequence of statements leads to, `loadkey` and
`fill`. -/

namespace Sys2Proof.Machine

/-! ## A sequence of statements (R77) -/

/-- Statements `m`, `m + 1`, ... of a sequence whose transactions each take the engine from `P m` to `P (m + 1)`. -/
theorem runs_stmts {P : Nat → State → Prop} {stmt : Nat → Stmt} {c : Nat} {rest : List Event} {m : Nat} {u : State}
    (hstep : ∀ i u rest, m ≤ i → i < m + c → P i u →
      ∃ t, transact (stmt i).request { u with pending := rest } = .next t ∧ t.pending = rest ∧ P (i + 1) t)
    (hu : P m u) (hq : u.pending = hostEvents ((List.range' m c).map stmt) ++ rest) :
    ∃ t, Runs c u t ∧ t.pending = rest ∧ P (m + c) t := by
  induction c generalizing m u with
  | zero => exact ⟨u, (runs_zero u u).2 rfl, hq, hu⟩
  | succ c ih =>
    obtain ⟨v, hv, hvq, hvP⟩ := hstep m u (hostEvents ((List.range' (m + 1) c).map stmt) ++ rest) le_rfl (by omega) hu
    have hfirst : step u = .next v := (step_bus hq).trans hv
    obtain ⟨t, ht, htq, htP⟩ := ih (fun i u rest hi hlt => hstep i u rest (by omega) (by omega)) hvP hvq
    exact ⟨t, (runs_succ c u t).2 ⟨v, hfirst, ht⟩, htq, by rwa [show m + (c + 1) = m + 1 + c by omega]⟩

/-! ## `loadkey` (R80) -/

/-- The first `m` statements of `loadkey` have run on `s`: the words are in KEY0 .. KEY(m-1), their KEYW bits are set,
and nothing else of the engine changed. -/
structure KeyLoadedSoFar (s : State) (k : List Byte) (m : Nat) (u : State) : Prop where
  eq : u = { s with key := u.key, keyw := u.keyw, pending := u.pending, resp := u.resp }
  words : ∀ i : Fin 8, i.val < m → u.key[i.val] = wordAt k i.val ∧ u.keyw.getLsbD i.val = true
  resp : 0 < m → u.resp = some ⟨.okay, none⟩

/-- The next word of `loadkey`. -/
theorem KeyLoadedSoFar.next {s u : State} {k : List Byte} {m : Nat} (hp : s.phase = .idle) (hm : m < 8)
    (h : KeyLoadedSoFar s k m u) (rest : List Event) :
    ∃ t, transact (Stmt.wr32 (offKey m) (wordAt k m) false).request { u with pending := rest } = .next t ∧
      t.pending = rest ∧ KeyLoadedSoFar s k (m + 1) t := by
  have hidle : u.phase = .idle := by rw [h.eq]; exact hp
  let v : State := { u with pending := rest }
  refine ⟨(v.writeKey ⟨m, hm⟩ (wordAt k m)).okayWrite,
    transact_key (s := v) (i := ⟨m, hm⟩) hidle rfl rfl (keyOffset_toNat ⟨m, hm⟩), rfl, ?_, fun i hi => ?_, fun _ => rfl⟩
  · conv_lhs => simp only [v]; rw [h.eq]
    rfl
  · have hkey := writeKey_key_getElem v ⟨m, hm⟩ i (wordAt k m)
    have hbit := writeKey_keyw_getLsbD v ⟨m, hm⟩ i (wordAt k m)
    by_cases hi' : i = ⟨m, hm⟩
    · exact ⟨hkey.trans (by rw [if_pos hi', hi']), hbit.trans (by simp [hi'])⟩
    · have hne : i.val ≠ m := fun e => hi' (Fin.ext e)
      obtain ⟨hw, hb⟩ := h.words i (by omega)
      exact ⟨hkey.trans ((if_neg hi').trans hw), hbit.trans (by rw [hb, Bool.true_or])⟩

/-- Byte `j` of word `m` of a byte sequence. -/
theorem byteOf_wordAt (b : List Byte) (m : Nat) {j : Nat} (hj : j < 4) :
    byteOf (wordAt b m) j = b.getD (4 * m + j) 0#8 :=
  byteOf_readData_word (fun a => b.getD a 0#8) (4 * m) hj

theorem keyw_eq_of_all {w : BitVec 8} (h : ∀ i : Fin 8, w.getLsbD i.val = true) : w = 0xFF#8 := by
  refine BitVec.eq_of_getLsbD_eq fun i hi => ?_
  rw [h ⟨i, hi⟩]
  interval_cases i <;> rfl

/-- Settles O48: the eight words are loaded one after the other. -/
theorem loadKeyLoadsTheThirtyTwoBytes : Obligations.LoadKeyLoadsTheThirtyTwoBytes := by
  intro s k hp hk
  obtain ⟨t, hrun, hq, h⟩ := runs_stmts (P := KeyLoadedSoFar s k) (m := 0) (c := 8) (rest := [])
    (stmt := fun i => .wr32 (offKey i) (wordAt k i) false) (u := { s with pending := hostEvents (loadkey k) })
    (fun i u rest _ hi hu => hu.next hp (by omega) rest)
    ⟨rfl, fun i hi => absurd hi (Nat.not_lt_zero _), fun h => absurd h (lt_irrefl 0)⟩
    (by rw [loadkey, List.range_eq_range', List.append_nil])
  refine ⟨t, hrun, keyw_eq_of_all fun i => (h.words i i.isLt).2, fun n hn => ?_, ?_⟩
  · have hword := (h.words ⟨n / 4, by omega⟩ (by show n / 4 < 8; omega)).1
    have hlane : t.keyBytes[n] = byteOf t.key[n / 4] (n % 4) := by simp [State.keyBytes]
    rw [hlane, hword, byteOf_wordAt k _ (by omega), Nat.div_add_mod, List.getD_eq_getElem?_getD,
      List.getElem?_eq_getElem (by omega)]
    rfl
  · have heq := h.eq
    rwa [hq, h.resp (by omega)] at heq

/-! ## `fill` (R80) -/

/-- The first `n` bytes of `b` have been written to IN_BUF of `s`, and nothing else of the engine changed. -/
structure FilledSoFar (s : State) (b : List Byte) (n : Nat) (u : State) : Prop where
  eq : u = { s with inBuf := u.inBuf, pending := u.pending, resp := u.resp }
  bytes : ∀ a, u.inByte a = if a < n then b.getD a 0#8 else s.inByte a

/-- The statement of `fill` for the whole word `m`. -/
def fillWord (b : List Byte) (m : Nat) : Stmt := .wr32 (offIn (4 * m)) (wordAt b m) false

/-- The statement of `fill` for byte `j` after the whole words. -/
def fillByte (b : List Byte) (j : Nat) : Stmt :=
  .wr8 (offIn (4 * (b.length / 4) + j)) (b.getD (4 * (b.length / 4) + j) 0#8) false

theorem hostEvents_fillIn (b : List Byte) : hostEvents (fillIn b) =
    hostEvents ((List.range (b.length / 4)).map (fillWord b)) ++
      hostEvents ((List.range (b.length % 4)).map (fillByte b)) := List.map_append

theorem length_fillIn (b : List Byte) : (fillIn b).length = b.length / 4 + b.length % 4 := by simp [fillIn]

theorem byteOf_zextByte (b : Byte) : byteOf (zextByte b) 0 = b := by
  refine BitVec.eq_of_getLsbD_eq fun i hi => ?_
  have hword : i < 32 := by omega
  rw [byteOf_getLsbD, zextByte, BitVec.getLsbD_setWidth, Nat.mul_zero, Nat.zero_add, decide_eq_true hi,
    decide_eq_true hword, Bool.true_and, Bool.true_and]

/-- The bytes that come next are written. -/
theorem FilledSoFar.write {s u : State} {b : List Byte} {n : Nat} (h : FilledSoFar s b n u) (rest : List Event)
    {bs : List Byte} (hbs : ∀ j (hj : j < bs.length), bs[j] = b.getD (n + j) 0#8) :
    FilledSoFar s b (n + bs.length) (State.writeIn { u with pending := rest } n bs).okayWrite := by
  refine ⟨?_, fun a => ?_⟩
  · conv_lhs => rw [h.eq]
    rfl
  · have hu : State.inByte { u with pending := rest } a = u.inByte a := rfl
    have hread := State.inByte_writeIn { u with pending := rest } n bs a
    rw [hu, h.bytes] at hread
    refine Eq.trans hread ?_
    by_cases hin : n ≤ a ∧ a < n + bs.length
    · rw [dif_pos hin, if_pos hin.2, hbs, Nat.add_sub_cancel' hin.1]
    · rw [dif_neg hin]
      exact if_congr (by omega) rfl rfl

section
variable {s : State} {b : List Byte} (hp : s.phase = .idle) (hb : b.length ≤ s.cap)
include hp hb

/-- The next whole word of `fill`. -/
theorem FilledSoFar.next_word {u : State} {m : Nat} (hm : m < b.length / 4) (h : FilledSoFar s b (4 * m) u)
    (rest : List Event) : ∃ t, transact (fillWord b m).request { u with pending := rest } = .next t ∧
      t.pending = rest ∧ FilledSoFar s b (4 * (m + 1)) t := by
  have hidle : u.phase = .idle := by rw [h.eq]; exact hp
  have hcap : u.cap = s.cap := State.cap_congr (by rw [h.eq])
  have hnext := h.write rest (bs := bytesOfWord (wordAt b m)) fun j hj =>
    (bytesOfWord_getElem _ j hj).trans (byteOf_wordAt b m hj)
  exact ⟨_, transact_wrIn (s := { u with pending := rest }) hidle (show _ < u.cap by omega) (by omega) _ false, rfl,
    hnext⟩

/-- The next single byte of `fill`. -/
theorem FilledSoFar.next_byte {u : State} {j : Nat} (hj : j < b.length % 4)
    (h : FilledSoFar s b (4 * (b.length / 4) + j) u) (rest : List Event) :
    ∃ t, transact (fillByte b j).request { u with pending := rest } = .next t ∧
      t.pending = rest ∧ FilledSoFar s b (4 * (b.length / 4) + (j + 1)) t := by
  have hcapLe := s.cap_le
  have hidle : u.phase = .idle := by rw [h.eq]; exact hp
  have hcap : u.cap = s.cap := State.cap_congr (by rw [h.eq])
  have ho : (offIn (4 * (b.length / 4) + j)).toNat = 0x1000000 + (4 * (b.length / 4) + j) := toNat_ofNat26 (by omega)
  refine ⟨_, transact_inBuf_write (s := { u with pending := rest }) hidle rfl ho (show _ < u.cap by omega) (.inl rfl),
    rfl, h.write rest (bs := [byteOf (zextByte _) 0]) fun a ha => ?_⟩
  obtain rfl : a = 0 := by simpa using ha
  exact byteOf_zextByte _

/-- The whole words of `fill`. -/
theorem fill_words (rest : List Event) :
    ∃ t, Runs (b.length / 4)
        { s with pending := hostEvents ((List.range (b.length / 4)).map (fillWord b)) ++ rest } t ∧
      t.pending = rest ∧ FilledSoFar s b (4 * (b.length / 4)) t := by
  obtain ⟨t, hrun, hq, h⟩ := runs_stmts (P := fun m => FilledSoFar s b (4 * m)) (stmt := fillWord b) (m := 0)
    (c := b.length / 4) (rest := rest)
    (u := { s with pending := hostEvents ((List.range (b.length / 4)).map (fillWord b)) ++ rest })
    (fun i u rest _ hi hu => hu.next_word hp hb (by omega) rest) ⟨rfl, fun a => rfl⟩ (by rw [List.range_eq_range'])
  exact ⟨t, hrun, hq, by rwa [Nat.zero_add] at h⟩

/-- The bytes of `fill` after its whole words. -/
theorem fill_bytes {u : State} (h : FilledSoFar s b (4 * (b.length / 4)) u)
    (hq : u.pending = hostEvents ((List.range (b.length % 4)).map (fillByte b))) :
    ∃ t, Runs (b.length % 4) u t ∧ t.pending = [] ∧ FilledSoFar s b b.length t := by
  obtain ⟨t, hrun, hq, h⟩ := runs_stmts (P := fun j => FilledSoFar s b (4 * (b.length / 4) + j)) (stmt := fillByte b)
    (m := 0) (c := b.length % 4) (rest := []) (fun i u rest _ hi hu => hu.next_byte hp hb (by omega) rest) h
    (by rw [hq, List.range_eq_range', List.append_nil])
  exact ⟨t, hrun, hq, by rwa [Nat.zero_add, Nat.div_add_mod] at h⟩

end

/-- Settles O49: the whole words, then the bytes that remain. -/
theorem fillPutsTheBytesInInBuf : Obligations.FillPutsTheBytesInInBuf := by
  intro s b hp hb
  obtain ⟨u, hwords, huq, hu⟩ := fill_words hp hb (hostEvents ((List.range (b.length % 4)).map (fillByte b)))
  obtain ⟨t, hbytes, htq, ht⟩ := fill_bytes hp hb hu huq
  refine ⟨t, ?_, ?_, fun a ha => ?_, ?_⟩
  · rw [length_fillIn, hostEvents_fillIn]
    exact runs_add hwords hbytes
  · refine List.ext_getElem (by simp) fun k h1 h2 => ?_
    have hk : t.inByte k = b.getD k 0#8 := (ht.bytes k).trans (if_pos h2)
    simp [State.inBytes, hk, List.getElem?_eq_getElem h2]
  · exact (ht.bytes a).trans (if_neg (Nat.not_lt.2 ha))
  · have heq := ht.eq
    rwa [htq] at heq

end Sys2Proof.Machine
end

section
/-! SUPPORT. Proofs for the writers of the flags and the counters (10_state.md section 9). -/

namespace Sys2Proof.Machine

/-! ## NOSTRIP after the CHECK step (R28, R98) -/

/-- The state a verdict goes on with. -/
def Verdict.state : Verdict → State
  | .fail _ s => s
  | .pass s => s

theorem Verdict.conclude_nostrip (v : Verdict) : v.conclude.nostrip = v.state.nostrip := by
  cases v with
  | fail code s => exact finish_nostrip s code
  | pass s =>
    rw [Verdict.conclude]
    split
    · exact finish_nostrip s .none
    · rfl

/-- The latched command is a DECODE that finds its tail invalid. -/
abbrev State.findsInvalidTail (s : State) : Prop :=
  s.lop = 1#3 ∧ 0 < s.llen.toNat ∧ s.llen.toNat ≤ s.cap ∧
    tailValid s.inByte s.llen.toNat (s.inByte (s.llen.toNat - 1)) s.lpchk = false

section
variable {s : State}

theorem encodeCheck_nostrip (s : State) : (encodeCheck s).state.nostrip = s.nostrip := by
  rcases Nat.lt_or_ge s.inputLength s.cap with hfits | hlong
  · rw [encodeCheck_fits hfits]; rfl
  · rw [encodeCheck_tooLong hlong]; rfl

theorem ecbCheck_nostrip (s : State) : (ecbCheck s).state.nostrip = s.nostrip := by
  unfold ecbCheck
  split
  · rfl
  split
  · rfl
  split
  · rfl
  · rfl

theorem decodeCheck_nostrip_kept (hlop : s.lop = 1#3) (h : ¬ s.findsInvalidTail) :
    (decodeCheck s).state.nostrip = s.nostrip := by
  rcases Nat.lt_or_ge s.cap s.inputLength with hlong | hcap
  · rw [decodeCheck_tooLong hlong]; rfl
  rcases Nat.eq_zero_or_pos s.inputLength with hzero | hlen
  · rw [decodeCheck_empty hzero]; rfl
  have htail : tailValid s.inByte s.inputLength (s.inByte (s.inputLength - 1)) s.lpchk = true :=
    (Bool.eq_false_or_eq_true _).resolve_right fun hinvalid => h ⟨hlop, hlen, hcap, hinvalid⟩
  rw [decodeCheck_valid hlen hcap htail]; rfl

theorem decodeCheck_nostrip_set (h : s.findsInvalidTail) : (decodeCheck s).state.nostrip = true := by
  obtain ⟨-, hlen, hcap, htail⟩ := h
  rw [decodeCheck_invalid hlen hcap htail]
  split
  · rfl
  · rfl

/-- The CHECK step sets NOSTRIP exactly for a DECODE of an invalid tail, and else leaves it. -/
theorem conclude_check_nostrip :
    s.check.conclude.nostrip = if s.findsInvalidTail then true else s.nostrip := by
  rw [Verdict.conclude_nostrip]
  by_cases h : s.findsInvalidTail
  · have ⟨hlop, _⟩ := h
    rw [if_pos h, check_decode hlop, decodeCheck_nostrip_set h]
  rw [if_neg h]
  rcases op_cases s.lop with hlop | hlop | hlop | hlop
  · rw [check_reserved hlop]; rfl
  · rw [check_encode hlop, encodeCheck_nostrip]
  · rw [check_decode hlop, decodeCheck_nostrip_kept hlop h]
  · rw [check_ecb hlop, ecbCheck_nostrip]

end

/-! ## The flags and counters after each turn of the engine (R39) -/

/-- The command goes on in RUN, with the flags and OUT_LEN as they were. -/
structure GoesOn (s t : State) : Prop where
  phase : t.phase = .run
  done : t.done = s.done
  err : t.err = s.err
  keyw : t.keyw = s.keyw
  outLen : t.outLen = s.outLen

/-- The command finishes with `code`, and `olen` is what it has as its output length. -/
structure Finishes (code : ErrCode) (s t : State) (olen : Word) : Prop where
  phase : t.phase = .idle
  done : t.done = true
  err : t.err = code
  keyw : t.keyw = if s.ecbLatched then 0x00#8 else s.keyw
  outLen : t.outLen = if code = .none then olen else s.outLen

/-- The finish of a state `v` that `s` ran on to. -/
theorem finish_finishes {s v : State} (code : ErrCode) (hlop : v.lop = s.lop) (hkeyw : v.keyw = s.keyw)
    (hout : v.outLen = s.outLen) : Finishes code s (v.finish code) v.olen := by
  have hecb : v.ecbLatched = s.ecbLatched := by rw [State.ecbLatched, hlop]; rfl
  exact ⟨finish_phase v code, finish_done v code, finish_err v code, by rw [finish_keyw, hecb, hkeyw],
    by rw [finish_outLen, hout]⟩

theorem conclude_check_flags {s : State} : s.check.conclude.blkIdx = s.blkIdx ∧
    (GoesOn s s.check.conclude ∨ ∃ code, Finishes code s s.check.conclude s.check.conclude.olen) := by
  rcases check_frame s with ⟨code, n, hcheck⟩ | ⟨olen, nblk, padb, n, hcheck⟩ <;> rw [hcheck, Verdict.conclude]
  · rw [finish_blkIdx, finish_olen]
    exact ⟨rfl, .inr ⟨code, finish_finishes code (by rfl) (by rfl) (by rfl)⟩⟩
  · split
    · rw [finish_blkIdx, finish_olen]
      exact ⟨rfl, .inr ⟨.none, finish_finishes .none (by rfl) (by rfl) (by rfl)⟩⟩
    · exact ⟨rfl, .inl ⟨rfl, rfl, rfl, rfl, rfl⟩⟩

theorem putChunk_flags {s : State} (hp : s.phase = .run) (c : Block) :
    (s.putChunk s.blkIdx.toNat c).blkIdx = s.blkIdx + 1#32 ∧
      (GoesOn s (s.putChunk s.blkIdx.toNat c) ∨ Finishes .none s (s.putChunk s.blkIdx.toNat c) s.olen) := by
  refine ⟨by rw [putChunk_blkIdx, BitVec.ofNat_add, BitVec.ofNat_toNat, BitVec.setWidth_eq], ?_⟩
  rw [State.putChunk_eq]
  split
  · exact .inr (finish_finishes .none (by rfl) (by rfl) (by rfl))
  · exact .inl ⟨hp, rfl, rfl, rfl, rfl⟩

/-- Settles O56, by everything a step can do. -/
theorem flagsAndCountersHaveTheirWriters : Obligations.FlagsAndCountersHaveTheirWriters := by
  intro s t h hreset
  cases step_spec h with
  | reset q rest hq _ => exact absurd hq (hreset q rest)
  | bus q rest hq h =>
    rcases h.start_or_kept with ⟨hp, w, hw, rfl, rfl⟩ | hkept
    · exact .inl ⟨hp, rfl, ⟨w, rest, hw, hq⟩, rfl, rfl, rfl, rfl, rfl, rfl⟩
    rcases h.key_or_kept with ⟨hp, i, hkey, rfl⟩ | hkey
    · exact .inr (.inl ⟨hp, hp, ⟨i, q.wdata, rest, hkey ▸ hq, rfl⟩, rfl, rfl, rfl, rfl, rfl⟩)
    · exact .inr (.inr (.inr (.inr
        ⟨hkept.phase, hkept.done, hkept.nostrip, hkept.err, hkey.keyw, hkept.outLen, hkept.blkIdx⟩)))
  | engine _ h =>
    rcases engineStep_spec h with ⟨-, rfl⟩ | ⟨hp, rfl⟩ | ⟨hp, hrun⟩
    · exact .inr (.inr (.inr (.inr ⟨rfl, rfl, rfl, rfl, rfl, rfl, rfl⟩)))
    · obtain ⟨hblk, hflags⟩ := conclude_check_flags (s := { s with pending := s.pending.tail })
      refine .inr (.inr (.inl ⟨hp, hblk, conclude_check_nostrip, ?_⟩))
      rcases hflags with hgo | ⟨code, hfin⟩
      · exact .inl ⟨hgo.phase, hgo.done, hgo.err, hgo.keyw, hgo.outLen⟩
      · exact .inr ⟨hfin.phase, hfin.done, hfin.keyw, by rw [hfin.err]; exact hfin.outLen⟩
    · obtain ⟨c, -, -, -, rfl⟩ := runStep_spec hrun
      obtain ⟨hblk, hflags⟩ := putChunk_flags hp c
      refine .inr (.inr (.inr (.inl ⟨hp, hblk, putChunk_nostrip _ _ c, ?_⟩)))
      rcases hflags with hgo | hfin
      · exact .inl ⟨hgo.phase, hgo.done, hgo.err, hgo.keyw, hgo.outLen⟩
      · exact .inr ⟨hfin.phase, hfin.done, hfin.err, hfin.keyw, hfin.outLen⟩

end Sys2Proof.Machine
end
